-- ==== Sys2Proof/Word.lean ====
section
/-! DEFINITION. The word types of E264-CORE: the 32-bit command and response word (30_encoding.md R60, R62) and the
8-bit byte or sample (00_scope.md R2, R10). -/

namespace Sys2Proof

/-- A command word, a response word or a 32-bit register (30_encoding.md R60, R62). -/
abbrev Word := BitVec 32

/-- A CPB byte or an FB sample (00_scope.md R2, R10). -/
abbrev Byte := BitVec 8

end Sys2Proof
end

