-- ==== Sys2Proof/Machine/Arith.lean ====
section
/-! DEFINITION. The arithmetic primitives of 00_scope.md R9 that are not already operations of Int, Nat or BitVec:
`sext_N(v)` is `BitVec.toInt`, `zext_N(v)` is `BitVec.toNat`, the bitwise operations and `<<`
are those of BitVec. -/

namespace Sys2Proof.Machine

/-- `a >> k` on a signed integer: floor(a / 2^k) (R9). -/
def asr (a : Int) (k : Nat) : Int := a / 2 ^ k

/-- `wrap32(v)`: the integer in [−2^31, 2^31 − 1] congruent to `v` modulo 2^32 (R9). -/
def wrap32 (v : Int) : Int := Int.bmod v (2 ^ 32)

/-- `Clip3(lo, hi, v)` (R9). -/
def clip3 (lo hi v : Int) : Int := if v < lo then lo else if v > hi then hi else v

/-- `Clip1(v)` = `Clip3(0, 255, v)` (R9). -/
def clip1 (v : Int) : Int := clip3 0 255 v

/-- `Abs(v)` (R9). -/
def absInt (v : Int) : Int := if v < 0 then -v else v

/-- A sample value as the byte FB stores. -/
def toByte (v : Int) : Byte := BitVec.ofInt 8 v

end Sys2Proof.Machine
end

