-- ==== Sys2Proof/Config.lean ====
section
/-! DEFINITION. What an implementation fixes (00_scope.md R6, the OPEN parameters) and the free values
(93_implementation_defined.md U1, U3). Operations take the parameters as an argument; the machine uses the
opaque constant `Config.params`, so no proof can see a value of it. -/

namespace Sys2Proof

/-- The OPEN parameters of 00_scope.md R6, with exactly the ranges the rule gives. -/
structure Params where
  /-- `CpbSize`, 0 ≤ CpbSize ≤ 2^32 − 1. -/
  cpbSize : BitVec 32
  /-- `MaxMbsW − 1`; `MaxMbsW` is 1..4095. -/
  maxMbsWLessOne : Fin 4095
  /-- `MaxMbsH − 1`; `MaxMbsH` is 1..4095. -/
  maxMbsHLessOne : Fin 4095
  /-- `DeqRound`: whether dequantisation adds the rounding term. -/
  deqRound : Bool
  /-- `CtxInitMN`: (column, ctxIdx) to (m, n), each a signed 8-bit pattern. -/
  ctxInitMN : BitVec 2 → BitVec 10 → BitVec 8 × BitVec 8
  deriving Inhabited

/-- `MaxMbsW` (00_scope.md R6). -/
def Params.maxMbsW (P : Params) : Nat := P.maxMbsWLessOne.val + 1

/-- `MaxMbsH` (00_scope.md R6). -/
def Params.maxMbsH (P : Params) : Nat := P.maxMbsHLessOne.val + 1

/-- The parameters of this hardware: one value for a whole run, never seen by a proof.
DESIGN CHOICE (log 8), safe. -/
opaque Config.params : Params

/-- The value CTX entry `i` holds after reset number `epoch`, until it is written
(10_state.md R33, 93_implementation_defined.md U1): a free value. DESIGN CHOICE (log 6), safe. -/
opaque Config.ctxDraw : Nat → Nat → BitVec 7

/-- The value of an FB sample not written since power-up (10_state.md R33, 93_implementation_defined.md U3):
a free value, fixed from power-up on. DESIGN CHOICE (log 5), safe. -/
opaque Config.fbPowerUp : Nat → Byte

/-- The value of a CPB byte the model's host has not written (10_state.md R33: CPB is owned by the host):
a free value. DESIGN CHOICE (log 7), safe. -/
opaque Config.cpbPowerUp : Nat → Byte

end Sys2Proof
end

