-- ==== Sys2Proof/Machine/State.lean ====
section
/-! DEFINITION. The state of E264-CORE (10_state.md R20 to R35, 20_memory.md R40 to R43) as plain data, the moves of its
host, the reasons a step can stop, and the state after reset (10_state.md R33). -/

namespace Sys2Proof.Machine

/-- The fault codes of 60_exceptions.md R181. A fault of the hardware is a response, not a stop of the model:
every meaning that raises one goes on to a next state. -/
inductive FaultCode where
  | eOpcode | eReserved | eReg | eOperand | eState | eGeometry | eCpb
  deriving DecidableEq, Repr

/-- The flags of STATUS (10_state.md R24). -/
inductive Flag where
  | cabact | ovr | alignerr | badinit | fault
  deriving DecidableEq, Repr

/-- The component of a plane: 0 luma, 1 Cb, 2 Cr (20_memory.md R43). -/
inductive Comp where
  | y | cb | cr
  deriving DecidableEq, Repr

/-- The response to a command, `(err, data)` (30_encoding.md R62). -/
structure Response where
  err  : Bool
  data : Word
  deriving DecidableEq, Repr

/-- What the host can do to the block: deliver a command (30_encoding.md R62), rewrite a CPB byte or an FB sample
between commands (20_memory.md R56), or apply reset (70_reset_and_hazards.md R200). DESIGN CHOICE (log 1, log 10). -/
inductive HostMove where
  | command (w : Word)
  | writeCpb (a : BitVec 32) (b : Byte)
  | writeFb (slot : BitVec 5) (comp : Comp) (x y : BitVec 16) (b : Byte)
  | reset
  deriving DecidableEq, Repr

/-- The elements of a memory space that have been written, by address, addresses strictly rising. An unlisted
address holds no written value; the space's read function says what a read of it gives (log 5, log 6, log 7). -/
abbrev Cells (w : Nat) := List (Nat × BitVec w)

/-- A byte memory: CPB, and FB under its sample keys (20_memory.md R40). -/
abbrev Memory := List Host.Cell

/-- The state of the block (10_state.md R20) with the model's own fields `ctxEpoch`, `response` and `inbox`. -/
structure State where
  /-- `DST_X`, 0x00, u16 (R22) -/
  dstX : BitVec 16
  /-- `DST_Y`, 0x01, u16 (R22) -/
  dstY : BitVec 16
  /-- `MV_X`, 0x02, s16 (R22) -/
  mvX : BitVec 16
  /-- `MV_Y`, 0x03, s16 (R22) -/
  mvY : BitVec 16
  /-- `W0`, 0x04, s16 (R22) -/
  w0 : BitVec 16
  /-- `W1`, 0x05, s16 (R22) -/
  w1 : BitVec 16
  /-- `WROUND`, 0x06, u16 (R22) -/
  wround : BitVec 16
  /-- `WSHIFT`, 0x07, u4 (R22) -/
  wshift : BitVec 4
  /-- `WOFF`, 0x08, s16 (R22) -/
  woff : BitVec 16
  /-- `BS`, 0x09, u12: four 3-bit boundary strengths (R22) -/
  bs : BitVec 12
  /-- `QPAV`, 0x0A, u6 (R22) -/
  qpav : BitVec 6
  /-- `FOA`, 0x0B, s8 (R22) -/
  foa : BitVec 8
  /-- `FOB`, 0x0C, s8 (R22) -/
  fob : BitVec 8
  /-- `CUR_SLOT`, 0x0D, u5 (R22) -/
  curSlot : BitVec 5
  /-- `STATUS`, 0x10, 5 bits (R24) -/
  status : BitVec 5
  /-- `FAULTCODE`, 0x11, u8 (R25) -/
  faultcode : BitVec 8
  /-- `PIC_W_MBS`, 0x12, u16 (R26) -/
  picW : BitVec 16
  /-- `PIC_H_MBS`, 0x13, u16 (R26) -/
  picH : BitVec 16
  /-- `CPB_PTR`, 0x14, u32 (R27) -/
  cpbPtr : BitVec 32
  /-- `CPB_END`, 0x15, u32 (R27) -/
  cpbEnd : BitVec 32
  /-- `COD_RANGE`, 0x16, u9 (R28) -/
  codRange : BitVec 9
  /-- `COD_OFFSET`, 0x17, u9 (R28) -/
  codOffset : BitVec 9
  /-- the unconsumed bits of the byte last fetched, left-justified (R29) -/
  bitbuf : BitVec 8
  /-- how many bits of `bitbuf` are unconsumed, 0..8 (R29, log 12) -/
  bitcnt : BitVec 4
  /-- how many zero bytes were delivered just before, saturating at 2 (R29, log 12) -/
  zeros : BitVec 2
  /-- `COEF[0..63]`, each s32 (R30) -/
  coef : Vector (BitVec 32) 64
  /-- `WS[0..63]`, each u8 (R31) -/
  ws : Vector (BitVec 8) 64
  /-- the CTX entries written since the last reset (R32; log 6) -/
  ctx : Cells 7
  /-- the CPB bytes the host has written (20_memory.md R41; log 7) -/
  cpb : Memory
  /-- the FB samples written since power-up (20_memory.md R43; log 5) -/
  fb : Memory
  /-- the model's own: how many resets have happened, which names the CTX draw (log 6) -/
  ctxEpoch : Nat
  /-- the model's own: the response to the last command (30_encoding.md R62; log 3) -/
  response : Option Response
  /-- the model's own: the host's moves not yet taken, the next one first (10_state.md R21; log 1) -/
  inbox : List HostMove
  deriving DecidableEq, Repr

/-- Why the model has no next state. None of these is a fault of the hardware (that is `FaultCode`). -/
inductive Fault where
  /-- Raised by `fetch_byte()` (RDBITS, CABSTART, CABDEC, CABBYP, CABTERM) when it needs a CPB byte at an address
  at or past `CpbSize`: stuck (20_memory.md R41, 93_implementation_defined.md U2; log 4). Safe. -/
  | cpbFetchOutside
  /-- Raised by the host's move `writeCpb` at an address at or past `CpbSize`, a byte that does not exist
  (20_memory.md R40; log 10). Safe. -/
  | hostCpbOutside
  deriving DecidableEq, Repr

/-- Why a command has no meaning in the model. -/
inductive Refusal where
  /-- Raised by an arm of `exec` whose command has no meaning yet. Safe. -/
  | notModelled (mnemonic : String)
  deriving DecidableEq, Repr

/-- The outcome of a meaning. -/
abbrev Result := Host.Outcome State Fault Refusal

/-- The machine right after reset (10_state.md R33, 70_reset_and_hazards.md R200): registers 0, WS 16 everywhere,
CTX, CPB and FB with nothing listed. The three model fields: log 1, log 3, log 6. -/
def State.reset : State where
  dstX := 0
  dstY := 0
  mvX := 0
  mvY := 0
  w0 := 0
  w1 := 0
  wround := 0
  wshift := 0
  woff := 0
  bs := 0
  qpav := 0
  foa := 0
  fob := 0
  curSlot := 0
  status := 0
  faultcode := 0
  picW := 0
  picH := 0
  cpbPtr := 0
  cpbEnd := 0
  codRange := 0
  codOffset := 0
  bitbuf := 0
  bitcnt := 0
  zeros := 0
  coef := Vector.replicate 64 0
  ws := Vector.replicate 64 16
  ctx := []
  cpb := []
  fb := []
  ctxEpoch := 0
  response := none
  inbox := []

end Sys2Proof.Machine
end

