-- ==== Sys2Proof/Machine/Flags.lean ====
section
/-! DEFINITION. The STATUS register's flags (10_state.md R24): reading, setting and clearing them. -/

namespace Sys2Proof.Machine

/-- The bit of STATUS a flag stands at (R24). -/
def flagBit : Flag → Nat
  | .cabact => 0
  | .ovr => 1
  | .alignerr => 2
  | .badinit => 3
  | .fault => 4

/-- STATUS with only that flag set. -/
def flagMask (f : Flag) : BitVec 5 := 1#5 <<< flagBit f

/-- The flag is 1. -/
def flagOn (f : Flag) (s : State) : Bool := s.status.getLsbD (flagBit f)

/-- `STATUS.F <- 1`. -/
def setFlag (f : Flag) (s : State) : State := { s with status := s.status ||| flagMask f }

/-- `STATUS.F <- 0`. -/
def clearFlag (f : Flag) (s : State) : State := { s with status := s.status &&& ~~~(flagMask f) }

/-- `STATUS.F <- 1` when `b`, and nothing otherwise: the sticky flags are only ever set by a condition. -/
def setFlagIf (f : Flag) (b : Bool) (s : State) : State := if b then setFlag f s else s

/-- `STATUS.F <- b`. -/
def putFlag (f : Flag) (b : Bool) (s : State) : State := if b then setFlag f s else clearFlag f s

/-- CLRST's effect (40_system.md R84): bit `k` of the mask clears STATUS bit `k + 1`; clearing FAULT zeroes FAULTCODE. -/
def clearSticky (mask : BitVec 4) (s : State) : State :=
  { s with
    status := s.status &&& ~~~(mask ++ 0#1)
    faultcode := if mask.getLsbD 3 then 0 else s.faultcode }

end Sys2Proof.Machine
end

