-- ==== Sys2Proof/Machine/Ops.lean ====
section
/-! DEFINITION. The operations every meaning shares: the response, raising a fault (the hardware's one exception
mechanism) and clearing it, reset, the memory spaces, and the bitstream fetch unit. -/

namespace Sys2Proof.Machine

/-! ### Responses, faults, reset -/

/-- `resp <- v`: the command succeeds with data `v` (30_encoding.md R62). -/
def respond (v : Word) (s : State) : Result := .next { s with response := some ⟨false, v⟩ }

/-- The number of a fault code (60_exceptions.md R181). -/
def faultNumber : FaultCode → BitVec 8
  | .eOpcode => 1
  | .eReserved => 2
  | .eReg => 3
  | .eOperand => 4
  | .eState => 5
  | .eGeometry => 6
  | .eCpb => 7

/-- The fault record after a fault (60_exceptions.md R183): FAULTCODE takes the code if STATUS.FAULT was 0, FAULT is
set, the response is (1, code); nothing else changes. -/
def faultRecord (c : FaultCode) (s : State) : State :=
  { setFlag .fault s with
    faultcode := if flagOn .fault s then s.faultcode else faultNumber c
    response := some ⟨true, (faultNumber c).setWidth 32⟩ }

/-- `raise Fault(c)`: taking the hardware's exception. There is no handler and nothing to return from
(60_exceptions.md R180, R184): the block then accepts the next command. -/
def raiseFault (c : FaultCode) (s : State) : Result := .next (faultRecord c s)

/-- Clearing the fault record (60_exceptions.md R184) is what stands in the place of a return from exception: CLRST FAULT. -/
def clearFault (s : State) : State := clearSticky 0b1000#4 s

/-- Reset of the block (70_reset_and_hazards.md R200): every register, flag, the fetch buffer, COEF and WS take their
reset values, every CTX entry is drawn anew, FB and CPB are not touched. The host's moves stay (log 1). -/
def resetBlock (s : State) : State :=
  { State.reset with
    cpb := s.cpb
    fb := s.fb
    ctxEpoch := s.ctxEpoch + 1
    inbox := s.inbox }

/-- What a bit-consuming command answers: its response, or the stuck fetch of log 4. -/
def finish (r : Except Fault (Word × State)) : Result :=
  match r with
  | .ok (v, s) => respond v s
  | .error f => .fault f

/-! ### The written elements of a memory space -/

/-- The value written at `a`, if any. -/
def cellGet {w : Nat} : Cells w → Nat → Option (BitVec w)
  | [], _ => none
  | (b, v) :: m, a => if a = b then some v else if a < b then none else cellGet m a

/-- Write `v` at `a`, keeping the addresses strictly rising. -/
def cellSet {w : Nat} : Cells w → Nat → BitVec w → Cells w
  | [], a, v => [(a, v)]
  | (b, u) :: m, a, v =>
    if a = b then (a, v) :: m else if a < b then (a, v) :: (b, u) :: m else (b, u) :: cellSet m a v

/-- Write a list of elements in order. -/
def cellSetAll {w : Nat} (m : Cells w) (ws : List (Nat × BitVec w)) : Cells w :=
  ws.foldl (fun m c => cellSet m c.1 c.2) m

/-- A listing of the elements 0..n−1. -/
def cellListing {w : Nat} (n : Nat) (f : Nat → BitVec w) : Cells w := (List.range' 0 n).map fun i => (i, f i)

/-- The canonical form: addresses strictly rising. -/
abbrev Cells.wf {w : Nat} (m : Cells w) : Prop := m.Pairwise (fun c d => c.1 < d.1)

/-- The canonical form of a byte memory. -/
abbrev Memory.wf (m : Memory) : Prop := Cells.wf m

/-! ### CTX -/

/-- `CTX[i]`: the value written, else the free draw of this reset (10_state.md R33; log 6). -/
def ctxRead (s : State) (i : BitVec 10) : BitVec 7 :=
  (cellGet s.ctx i.toNat).getD (Config.ctxDraw s.ctxEpoch i.toNat)

/-- `CTX[i] <- v`. -/
def ctxWrite (i : BitVec 10) (v : BitVec 7) (s : State) : State := { s with ctx := cellSet s.ctx i.toNat v }

/-- `CTX[i] <- f i` for every i = 0..1023. -/
def ctxWriteAll (f : Nat → BitVec 7) (s : State) : State := { s with ctx := cellListing 1024 f }

/-! ### FB (20_memory.md R43, R44) -/

/-- The number of a component (20_memory.md R43). -/
def compNumber : Comp → Nat
  | .y => 0
  | .cb => 1
  | .cr => 2

/-- The model's key of the sample (slot, comp, x, y), one to one for x, y < 65536 (log 13). -/
def sampleKey (slot : BitVec 5) (c : Comp) (x y : Nat) : Nat :=
  ((slot.toNat * 3 + compNumber c) * 65536 + y) * 65536 + x

/-- `FB[s][c][x, y]`: the value written, else the free power-up value (10_state.md R33; log 5). -/
def fbRead (s : State) (slot : BitVec 5) (c : Comp) (x y : Nat) : Byte :=
  (cellGet s.fb (sampleKey slot c x y)).getD (Config.fbPowerUp (sampleKey slot c x y))

/-- Write a list of samples of one plane, each (x, y, value). -/
def fbWriteAll (slot : BitVec 5) (c : Comp) (ws : List (Nat × Nat × Byte)) (s : State) : State :=
  { s with fb := cellSetAll s.fb (ws.map fun t => (sampleKey slot c t.1 t.2.1, t.2.2)) }

/-- PIC_W_MBS and PIC_H_MBS are legal (10_state.md R26). -/
def pictureLegal (P : Params) (s : State) : Bool :=
  decide (1 ≤ s.picW.toNat ∧ s.picW.toNat ≤ P.maxMbsW ∧ 1 ≤ s.picH.toNat ∧ s.picH.toNat ≤ P.maxMbsH)

/-- `width(c)`: 16·PIC_W_MBS for luma, half of it for chroma (20_memory.md R43). -/
def planeWidth (s : State) : Comp → Nat
  | .y => 16 * s.picW.toNat
  | .cb | .cr => 8 * s.picW.toNat

/-- `height(c)` (20_memory.md R43). -/
def planeHeight (s : State) : Comp → Nat
  | .y => 16 * s.picH.toNat
  | .cb | .cr => 8 * s.picH.toNat

/-- `RefSample(slot, c, x, y)` (20_memory.md R44): x and y are any integers, clamped to the plane. -/
def refSample (s : State) (slot : BitVec 5) (c : Comp) (x y : Int) : Int :=
  (fbRead s slot c (clip3 0 (planeWidth s c - 1) x).toNat (clip3 0 (planeHeight s c - 1) y).toNat).toNat

/-! ### CPB and the bitstream fetch unit (20_memory.md R41, R45 to R47) -/

/-- The contents of CPB at `a`: what the host wrote there, else its free value (log 7). -/
def cpbByte (s : State) (a : Nat) : Byte := (cellGet s.cpb a).getD (Config.cpbPowerUp a)

/-- The block's read of `CPB[a]`; stuck at or past `CpbSize` (20_memory.md R41, U2; log 4). -/
def cpbRead (P : Params) (s : State) (a : Nat) : Except Fault Byte :=
  if a < P.cpbSize.toNat then .ok (cpbByte s a) else .error .cpbFetchOutside

/-- The start-code or zero-run test of `fetch_byte()` (20_memory.md R46): p + 2 < CPB_END and the bytes at
p, p + 1, p + 2 are 00, 00 and at most 01. A byte is read only when those before it match (log 4). -/
def startCodeAhead (P : Params) (s : State) : Except Fault Bool :=
  if s.cpbPtr.toNat + 2 < s.cpbEnd.toNat then do
    let b0 ← cpbRead P s s.cpbPtr.toNat
    if b0 ≠ 0 then .ok false else do
      let b1 ← cpbRead P s (s.cpbPtr.toNat + 1)
      if b1 ≠ 0 then .ok false else do
        let b2 ← cpbRead P s (s.cpbPtr.toNat + 2)
        .ok (decide (b2.toNat ≤ 1))
  else .ok false

/-- `zeros` after the byte `b` is delivered: one more zero byte, saturating at 2, or none (20_memory.md R46). -/
def zerosAfter (zeros : BitVec 2) (b : Byte) : BitVec 2 :=
  if b = 0 then (if zeros.toNat < 2 then zeros + 1 else 2) else 0

/-- The loop of `fetch_byte()` (20_memory.md R46) with `left` = CPB_END − CPB_PTR bytes left; at 0 the end is reached:
OVR is set and 0 delivered. -/
def fetchLoop (P : Params) : Nat → State → Except Fault (Byte × State)
  | 0, s => .ok (0, setFlag .ovr s)
  | left + 1, s => do
    let hit ← startCodeAhead P s
    if hit then .ok (0, setFlag .ovr { s with cpbEnd := s.cpbPtr })
    else do
      let b ← cpbRead P s s.cpbPtr.toNat
      if s.zeros = 2 ∧ b = 3 then fetchLoop P left { s with cpbPtr := s.cpbPtr + 1, zeros := 0 }
      else .ok (b, { s with cpbPtr := s.cpbPtr + 1, zeros := zerosAfter s.zeros b })

/-- `fetch_byte()` (20_memory.md R46). -/
def fetchByte (P : Params) (s : State) : Except Fault (Byte × State) :=
  fetchLoop P (s.cpbEnd.toNat - s.cpbPtr.toNat) s

/-- The first lines of `read_bit()`: fetch a byte when no bit is left (20_memory.md R47). -/
def refill (P : Params) (s : State) : Except Fault State :=
  if s.bitcnt = 0 then do
    let r ← fetchByte P s
    .ok { r.2 with bitbuf := r.1, bitcnt := 8 }
  else .ok s

/-- Take the next bit out of `bitbuf` (20_memory.md R47). -/
def takeBit (s : State) : Bool × State :=
  (s.bitbuf.msb, { s with bitbuf := s.bitbuf <<< 1, bitcnt := s.bitcnt - 1 })

/-- `read_bit()` (20_memory.md R47). -/
def readBit (P : Params) (s : State) : Except Fault (Bool × State) := do
  let s ← refill P s
  .ok (takeBit s)

/-- The loop of `read_bits(n)`: `v` holds the bits read so far, the first the most significant (20_memory.md R47). -/
def readBitsFrom (P : Params) : Nat → Nat → State → Except Fault (Nat × State)
  | 0, v, s => .ok (v, s)
  | n + 1, v, s => do
    let r ← readBit P s
    readBitsFrom P n (2 * v + r.1.toNat) r.2

/-- `read_bits(n)` (20_memory.md R47). -/
def readBits (P : Params) (n : Nat) (s : State) : Except Fault (Nat × State) := readBitsFrom P n 0 s

end Sys2Proof.Machine
end

