-- ==== Sys2Proof/Machine/Operands.lean ====
section
/-! DEFINITION. Operand assembly (30_encoding.md R64, R66): the register map (10_state.md R22 to R29, R34) with its reads
and writes, component numbers, size codes, and the position checks. -/

namespace Sys2Proof.Machine

/-- The assigned registers by name (10_state.md R22, R24 to R29). -/
inductive Reg where
  | dstX | dstY | mvX | mvY | w0 | w1 | wround | wshift | woff | bs | qpav | foa | fob | curSlot
  | status | faultcode | picW | picH | cpbPtr | cpbEnd | codRange | codOffset | bitbuf
  deriving DecidableEq, Repr

/-- The register of a number; 0x0E, 0x0F and 0x19 to 0xFF are unassigned (10_state.md R34). -/
def regOfNumber (n : BitVec 8) : Option Reg :=
  match n.toNat with
  | 0x00 => some .dstX
  | 0x01 => some .dstY
  | 0x02 => some .mvX
  | 0x03 => some .mvY
  | 0x04 => some .w0
  | 0x05 => some .w1
  | 0x06 => some .wround
  | 0x07 => some .wshift
  | 0x08 => some .woff
  | 0x09 => some .bs
  | 0x0A => some .qpav
  | 0x0B => some .foa
  | 0x0C => some .fob
  | 0x0D => some .curSlot
  | 0x10 => some .status
  | 0x11 => some .faultcode
  | 0x12 => some .picW
  | 0x13 => some .picH
  | 0x14 => some .cpbPtr
  | 0x15 => some .cpbEnd
  | 0x16 => some .codRange
  | 0x17 => some .codOffset
  | 0x18 => some .bitbuf
  | _ => none

/-- WRL and WRH may not name it (40_system.md R81). -/
def regReadOnly : Reg → Bool
  | .status | .faultcode | .codRange | .codOffset | .bitbuf => true
  | .dstX | .dstY | .mvX | .mvY | .w0 | .w1 | .wround | .wshift | .woff | .bs | .qpav | .foa | .fob
  | .curSlot | .picW | .picH | .cpbPtr | .cpbEnd => false

/-- RDREG's value (40_system.md R83): sign-extended for an sN register, zero-extended for a uN one; BITBUF reads as
zeros, bitcnt, bitbuf joined. -/
def regRead (s : State) : Reg → Word
  | .dstX => s.dstX.setWidth 32
  | .dstY => s.dstY.setWidth 32
  | .mvX => s.mvX.signExtend 32
  | .mvY => s.mvY.signExtend 32
  | .w0 => s.w0.signExtend 32
  | .w1 => s.w1.signExtend 32
  | .wround => s.wround.setWidth 32
  | .wshift => s.wshift.setWidth 32
  | .woff => s.woff.signExtend 32
  | .bs => s.bs.setWidth 32
  | .qpav => s.qpav.setWidth 32
  | .foa => s.foa.signExtend 32
  | .fob => s.fob.signExtend 32
  | .curSlot => s.curSlot.setWidth 32
  | .status => s.status.setWidth 32
  | .faultcode => s.faultcode.setWidth 32
  | .picW => s.picW.setWidth 32
  | .picH => s.picH.setWidth 32
  | .cpbPtr => s.cpbPtr
  | .cpbEnd => s.cpbEnd
  | .codRange => s.codRange.setWidth 32
  | .codOffset => s.codOffset.setWidth 32
  | .bitbuf => (s.zeros ++ s.bitcnt ++ s.bitbuf).setWidth 32

/-- WRL's effect (40_system.md R81): the low bits of the immediate; a 32-bit register's high half becomes 0. The
read-only registers are not written (WRL has faulted on them). -/
def regWriteLow (imm : BitVec 16) (s : State) : Reg → State
  | .dstX => { s with dstX := imm }
  | .dstY => { s with dstY := imm }
  | .mvX => { s with mvX := imm }
  | .mvY => { s with mvY := imm }
  | .w0 => { s with w0 := imm }
  | .w1 => { s with w1 := imm }
  | .wround => { s with wround := imm }
  | .wshift => { s with wshift := imm.setWidth 4 }
  | .woff => { s with woff := imm }
  | .bs => { s with bs := imm.setWidth 12 }
  | .qpav => { s with qpav := imm.setWidth 6 }
  | .foa => { s with foa := imm.setWidth 8 }
  | .fob => { s with fob := imm.setWidth 8 }
  | .curSlot => { s with curSlot := imm.setWidth 5 }
  | .picW => { s with picW := imm }
  | .picH => { s with picH := imm }
  | .cpbPtr => { s with cpbPtr := imm.setWidth 32 }
  | .cpbEnd => { s with cpbEnd := imm.setWidth 32 }
  | .status | .faultcode | .codRange | .codOffset | .bitbuf => s

/-- The component a `comp` field names; 3 is reserved (30_encoding.md R64, R65). -/
def compOfField (f : BitVec 2) : Option Comp :=
  match f.toNat with
  | 0 => some .y
  | 1 => some .cb
  | 2 => some .cr
  | _ => none

/-- comp = 1 + cr (30_encoding.md R64). -/
def compOfCr (cr : BitVec 1) : Comp := if cr = 0 then .cb else .cr

/-- A size or mode code other than the reserved 3 (30_encoding.md R65 (c), R66). -/
def codeLegal (code : BitVec 2) : Bool := code != 3#2

/-- A luma block side 4 << code, or a chroma block side 2 << code (30_encoding.md R66). -/
def blockSide (c : Comp) (code : BitVec 2) : Nat :=
  match c with
  | .y => 4 <<< code.toNat
  | .cb | .cr => 2 <<< code.toNat

/-- A `bw` × `bh` block at (DST_X, DST_Y) lies inside plane `c` (20_memory.md R44; 43_transform.md R132; 44_interp.md R146). -/
def blockInside (s : State) (c : Comp) (bw bh : Nat) : Bool :=
  decide (s.dstX.toNat + bw ≤ planeWidth s c ∧ s.dstY.toNat + bh ≤ planeHeight s c)

/-- The (x, y) offsets of a `bw` × `bh` block, row by row. -/
def blockOffsets (bw bh : Nat) : List (Nat × Nat) :=
  (List.range bh).flatMap fun y => (List.range bw).map fun x => (x, y)

/-- Write `f x y` to every sample of the block at (DST_X, DST_Y) of plane `c` of slot CUR_SLOT, row by row. Every `f x y`
is taken of the state before the first write (44_interp.md R146; log 15). -/
def writeBlock (c : Comp) (bw bh : Nat) (f : Nat → Nat → Byte) (s : State) : State :=
  fbWriteAll s.curSlot c
    ((blockOffsets bw bh).map fun o => (s.dstX.toNat + o.1, s.dstY.toNat + o.2, f o.1 o.2)) s

end Sys2Proof.Machine
end

