-- ==== Sys2Proof/Machine/Bitstream.lean ====
section
/-! DEFINITION. The bitstream commands (41_bitstream.md R90, R91), for any parameters and then for this hardware's. -/

namespace Sys2Proof.Machine

/-- BSINIT (R90). -/
def bsinit (P : Params) (s : State) : Result :=
  if s.cpbPtr.toNat ≤ s.cpbEnd.toNat ∧ ¬ P.cpbSize.toNat < s.cpbEnd.toNat then
    respond 0 (clearFlag .cabact { s with bitbuf := 0, bitcnt := 0, zeros := 0 })
  else raiseFault .eCpb s

/-- RDBITS n (R91). -/
def rdbits (P : Params) (n : BitVec 6) (s : State) : Result :=
  if n.toNat = 0 ∨ n.toNat > 32 then raiseFault .eOperand s
  else if flagOn .cabact s then raiseFault .eState s
  else finish (do
    let r ← readBits P n.toNat s
    .ok (BitVec.ofNat 32 r.1, r.2))

/-- BSINIT on this hardware. -/
def execBsinit (s : State) : Result := bsinit Config.params s

/-- RDBITS on this hardware. -/
def execRdbits (n : BitVec 6) (s : State) : Result := rdbits Config.params n s

end Sys2Proof.Machine
end

