-- ==== Sys2Proof/Machine/Tables.lean ====
section
/-! DEFINITION. The numeric tables: CABAC (42_cabac.md R101, R102), dequantisation (43_transform.md R125) and deblocking
thresholds (45_deblock.md R161). -/

namespace Sys2Proof.Machine

/-! ### CABAC -/

/-- The rows of `rangeTabLPS`, pStateIdx 0 to 63 (R101). -/
def rangeTabRows : List (List Nat) :=
  [[128, 176, 208, 240], [128, 167, 197, 227], [128, 158, 187, 216], [123, 150, 178, 205],
   [116, 142, 169, 195], [111, 135, 160, 185], [105, 128, 152, 175], [100, 122, 144, 166],
   [95, 116, 137, 158], [90, 110, 130, 150], [85, 104, 123, 142], [81, 99, 117, 135],
   [77, 94, 111, 128], [73, 89, 105, 122], [69, 85, 100, 116], [66, 80, 95, 110]] ++
  [[62, 76, 90, 104], [59, 72, 86, 99], [56, 69, 81, 94], [53, 65, 77, 89],
   [51, 62, 73, 85], [48, 59, 69, 80], [46, 56, 66, 76], [43, 53, 63, 72],
   [41, 50, 59, 69], [39, 48, 56, 65], [37, 45, 54, 62], [35, 43, 51, 59],
   [33, 41, 48, 56], [32, 39, 46, 53], [30, 37, 43, 50], [29, 35, 41, 48]] ++
  [[27, 33, 39, 45], [26, 31, 37, 43], [24, 30, 35, 41], [23, 28, 33, 39],
   [22, 27, 32, 37], [21, 26, 30, 35], [20, 24, 29, 33], [19, 23, 27, 31],
   [18, 22, 26, 30], [17, 21, 25, 28], [16, 20, 23, 27], [15, 19, 22, 25],
   [14, 18, 21, 24], [14, 17, 20, 23], [13, 16, 19, 22], [12, 15, 18, 21]] ++
  [[12, 14, 17, 20], [11, 14, 16, 19], [11, 13, 15, 18], [10, 12, 15, 17],
   [10, 12, 14, 16], [9, 11, 13, 15], [9, 11, 12, 14], [8, 10, 12, 14],
   [8, 9, 11, 13], [7, 9, 11, 12], [7, 9, 10, 12], [7, 8, 10, 11],
   [6, 8, 9, 11], [6, 7, 9, 10], [6, 7, 8, 9], [2, 2, 2, 2]]

/-- `rangeTabLPS[p][q]` (R101). -/
def rangeTabLPS (p : BitVec 6) (q : BitVec 2) : Nat := (rangeTabRows.getD p.toNat []).getD q.toNat 0

/-- `transIdxLPS[0..63]` (R102). -/
def transIdxLPSList : List Nat :=
  [0, 0, 1, 2, 2, 4, 4, 5, 6, 7, 8, 9, 9, 11, 11, 12] ++
  [13, 13, 15, 15, 16, 16, 18, 18, 19, 19, 21, 21, 22, 22, 23, 24] ++
  [24, 25, 26, 26, 27, 27, 28, 29, 29, 30, 30, 30, 31, 32, 32, 33] ++
  [33, 33, 34, 34, 35, 35, 35, 36, 36, 36, 37, 37, 37, 38, 38, 63]

/-- `transIdxLPS[p]` (R102). -/
def transIdxLPS (p : BitVec 6) : BitVec 6 := BitVec.ofNat 6 (transIdxLPSList.getD p.toNat 0)

/-- `transIdxMPS[p]`: p + 1 up to 61, and 62 and 63 stay (R102). -/
def transIdxMPS (p : BitVec 6) : BitVec 6 := if p.toNat ≤ 61 then p + 1 else p

/-! ### Dequantisation -/

/-- The rows `v4[m][0..2]` (R125). -/
def v4Rows : List (List Nat) :=
  [[10, 16, 13], [11, 18, 14], [13, 20, 16], [14, 23, 18], [16, 25, 20], [18, 29, 23]]

/-- The rows `v8[m][0..5]` (R125). -/
def v8Rows : List (List Nat) :=
  [[20, 18, 32, 19, 25, 24], [22, 19, 35, 21, 28, 26], [26, 23, 42, 24, 33, 31],
   [28, 25, 45, 26, 35, 33], [32, 28, 51, 30, 40, 38], [36, 32, 58, 34, 46, 43]]

/-- `normAdjust4x4(m, i, j)` (R125). -/
def normAdjust4x4 (m i j : Nat) : Nat :=
  let v := v4Rows.getD m []
  if i % 2 = 0 ∧ j % 2 = 0 then v.getD 0 0
  else if i % 2 = 1 ∧ j % 2 = 1 then v.getD 1 0
  else v.getD 2 0

/-- `normAdjust8x8(m, i, j)` (R125). -/
def normAdjust8x8 (m i j : Nat) : Nat :=
  let v := v8Rows.getD m []
  if i % 4 = 0 ∧ j % 4 = 0 then v.getD 0 0
  else if i % 2 = 1 ∧ j % 2 = 1 then v.getD 1 0
  else if i % 4 = 2 ∧ j % 4 = 2 then v.getD 2 0
  else if (i % 4 = 0 ∧ j % 2 = 1) ∨ (i % 2 = 1 ∧ j % 4 = 0) then v.getD 3 0
  else if (i % 4 = 0 ∧ j % 4 = 2) ∨ (i % 4 = 2 ∧ j % 4 = 0) then v.getD 4 0
  else v.getD 5 0

/-! ### Deblocking -/

/-- `alphaTab[0..51]` (R161). -/
def alphaList : List Int :=
  [0, 0, 0, 0, 0, 0, 0, 0, 0, 0, 0, 0, 0, 0, 0, 0, 4, 4] ++
  [5, 6, 7, 8, 9, 10, 12, 13, 15, 17, 20, 22, 25, 28, 32, 36, 40, 45] ++
  [50, 56, 63, 71, 80, 90, 101, 113, 127, 144, 162, 182, 203, 226, 255, 255]

/-- `betaTab[0..51]` (R161). -/
def betaList : List Int :=
  [0, 0, 0, 0, 0, 0, 0, 0, 0, 0, 0, 0, 0, 0, 0, 0, 2, 2] ++
  [2, 3, 3, 3, 3, 4, 4, 4, 6, 6, 7, 7, 8, 8, 9, 9, 10, 10] ++
  [11, 11, 12, 12, 13, 13, 14, 14, 15, 15, 16, 16, 17, 17, 18, 18]

/-- The rows of `tc0Tab`, index 0 to 51, each (bS 1, bS 2, bS 3) (R161). -/
def tc0Rows : List (List Int) :=
  [[0, 0, 0], [0, 0, 0], [0, 0, 0], [0, 0, 0], [0, 0, 0], [0, 0, 0], [0, 0, 0], [0, 0, 0]] ++
  [[0, 0, 0], [0, 0, 0], [0, 0, 0], [0, 0, 0], [0, 0, 0], [0, 0, 0], [0, 0, 0], [0, 0, 0]] ++
  [[0, 0, 0], [0, 0, 1], [0, 0, 1], [0, 0, 1], [0, 0, 1], [0, 1, 1], [0, 1, 1], [1, 1, 1]] ++
  [[1, 1, 1], [1, 1, 1], [1, 1, 1], [1, 1, 2], [1, 1, 2], [1, 1, 2], [1, 1, 2], [1, 2, 3]] ++
  [[1, 2, 3], [2, 2, 3], [2, 2, 4], [2, 3, 4], [2, 3, 4], [3, 3, 5], [3, 4, 6], [3, 4, 6]] ++
  [[4, 5, 7], [4, 5, 8], [4, 6, 9], [5, 7, 10], [6, 8, 11], [6, 8, 13], [7, 10, 14], [8, 11, 16]] ++
  [[9, 12, 18], [10, 13, 20], [11, 15, 23], [13, 17, 25]]

/-- `alphaTab[i]`. -/
def alphaTab (i : Nat) : Int := alphaList.getD i 0

/-- `betaTab[i]`. -/
def betaTab (i : Nat) : Int := betaList.getD i 0

/-- `tc0Tab[i][bS]` for bS = 1, 2, 3. -/
def tc0Tab (i bS : Nat) : Int := (tc0Rows.getD i []).getD (bS - 1) 0

end Sys2Proof.Machine
end

