-- ==== Sys2Proof/Machine/Cabac.lean ====
section
/-! DEFINITION. The CABAC unit (42_cabac.md R100 to R111), for any parameters and then for this hardware's. -/

namespace Sys2Proof.Machine

/-- `pStateIdx` of a packed context, bits 6:1 (10_state.md R32). -/
def ctxP (v : BitVec 7) : BitVec 6 := v.extractLsb' 1 6

/-- `valMPS` of a packed context, bit 0 (10_state.md R32). -/
def ctxV (v : BitVec 7) : BitVec 1 := v.extractLsb' 0 1

/-- `TransTab[idx]` (R103): `idx[7]` is 1 for an MPS outcome, `idx[6:0]` the packed state before. -/
def transTab (idx : BitVec 8) : BitVec 7 :=
  let p := idx.extractLsb' 1 6
  let v := idx.extractLsb' 0 1
  if idx.msb then transIdxMPS p ++ v
  else transIdxLPS p ++ (if p = 0 then ~~~v else v)

/-- `renorm(range, offset)` with at most `k` shifts (R104); 7 are enough from range ≥ 2 (log 11). -/
def renormUpTo (P : Params) : Nat → Nat → Nat → State → Except Fault (Nat × Nat × State)
  | 0, range, offset, s => .ok (range, offset, s)
  | k + 1, range, offset, s =>
    if range < 256 then do
      let r ← readBit P s
      renormUpTo P k (2 * range) (2 * offset + r.1.toNat) r.2
    else .ok (range, offset, s)

/-- `renorm(range, offset)` (R104). -/
def renorm (P : Params) (range offset : Nat) (s : State) : Except Fault (Nat × Nat × State) :=
  renormUpTo P 7 range offset s

/-- `COD_RANGE <- range ; COD_OFFSET <- offset`. -/
def putEngine (range offset : Nat) (s : State) : State :=
  { s with codRange := BitVec.ofNat 9 range, codOffset := BitVec.ofNat 9 offset }

/-- CABSTART's last lines (R105), after the alignment bits gave `bad` and the next nine bits `offset`. -/
def startEngine (bad : Bool) (offset : Nat) (s : State) : State :=
  let badinit := decide (offset ≥ 510)
  putFlag .cabact (!badinit) (setFlagIf .badinit badinit (setFlagIf .alignerr bad (putEngine 510 offset s)))

/-- CABSTART (R105). -/
def cabstart (P : Params) (s : State) : Result :=
  finish (do
    let align ← readBits P s.bitcnt.toNat s
    let bad := decide (align.1 ≠ 2 ^ s.bitcnt.toNat - 1)
    let init ← readBits P 9 align.2
    .ok ((BitVec.ofBool (decide (init.1 ≥ 510)) ++ BitVec.ofBool bad).setWidth 32, startEngine bad init.1 init.2))

/-- `preCtxState` (R106): m and n are signed 8-bit patterns. -/
def preCtxState (mn : BitVec 8 × BitVec 8) (qp : Nat) : Int :=
  clip3 1 126 (asr (mn.1.toInt * qp) 4 + mn.2.toInt)

/-- The packed context of a `preCtxState` (R106). -/
def packPre (pre : Int) : BitVec 7 :=
  if pre ≤ 63 then BitVec.ofInt 6 (63 - pre) ++ 0#1 else BitVec.ofInt 6 (pre - 64) ++ 1#1

/-- The value CABINIT gives CTX entry `i` (R106). -/
def initialCtx (P : Params) (col : BitVec 2) (qp : BitVec 6) (i : Nat) : BitVec 7 :=
  packPre (preCtxState (P.ctxInitMN col (BitVec.ofNat 10 i)) qp.toNat)

/-- CABINIT qp, col (R106): all 1024 entries are written. -/
def cabinit (P : Params) (col : BitVec 2) (qp : BitVec 6) (s : State) : Result :=
  if qp.toNat > 51 then raiseFault .eOperand s
  else respond 0 (ctxWriteAll (initialCtx P col qp) s)

/-- `codIRangeLPS` of a context under the current range (R107): q = COD_RANGE[7:6]. -/
def lpsRange (s : State) (ctxIdx : BitVec 10) : Nat :=
  rangeTabLPS (ctxP (ctxRead s ctxIdx)) (s.codRange.extractLsb' 6 2)

/-- The bin is the least probable symbol (R107): offset ≥ range − lps. -/
def decidesLps (s : State) (ctxIdx : BitVec 10) : Bool :=
  decide (s.codOffset.toNat ≥ s.codRange.toNat - lpsRange s ctxIdx)

/-- CABDEC's symbol and context update before renormalisation (R107): (bin, range, offset, state). -/
def decideBin (s : State) (ctxIdx : BitVec 10) : BitVec 1 × Nat × Nat × State :=
  let c := ctxRead s ctxIdx
  let lps := lpsRange s ctxIdx
  let range := s.codRange.toNat - lps
  let offset := s.codOffset.toNat
  if decidesLps s ctxIdx then
    (~~~(ctxV c), lps, offset - range, ctxWrite ctxIdx (transTab (0#1 ++ c)) s)
  else
    (ctxV c, range, offset, ctxWrite ctxIdx (transTab (1#1 ++ c)) s)

/-- CABDEC ctxIdx (R107). -/
def cabdec (P : Params) (ctxIdx : BitVec 10) (s : State) : Result :=
  if flagOn .cabact s then
    let d := decideBin s ctxIdx
    finish (do
      let r ← renorm P d.2.1 d.2.2.1 d.2.2.2
      .ok (d.1.setWidth 32, putEngine r.1 r.2.1 r.2.2))
  else raiseFault .eState s

/-- CABBYP (R108): the doubled offset is a 10-bit intermediate. -/
def cabbyp (P : Params) (s : State) : Result :=
  if flagOn .cabact s then
    finish (do
      let r ← readBit P s
      let offset := 2 * s.codOffset.toNat + r.1.toNat
      let range := s.codRange.toNat
      if offset ≥ range then .ok (1, { r.2 with codOffset := BitVec.ofNat 9 (offset - range) })
      else .ok (0, { r.2 with codOffset := BitVec.ofNat 9 offset }))
  else raiseFault .eState s

/-- CABTERM (R109): on a result of 1 no bit is consumed and the engine goes idle. -/
def cabterm (P : Params) (s : State) : Result :=
  if flagOn .cabact s then
    let range := s.codRange.toNat - 2
    let offset := s.codOffset.toNat
    if offset ≥ range then
      respond 1 (clearFlag .cabact { s with codRange := BitVec.ofNat 9 range })
    else
      finish (do
        let r ← renorm P range offset s
        .ok (0, putEngine r.1 r.2.1 r.2.2))
  else raiseFault .eState s

/-- CABSTART on this hardware. -/
def execCabstart (s : State) : Result := cabstart Config.params s

/-- CABINIT on this hardware. -/
def execCabinit (col : BitVec 2) (qp : BitVec 6) (s : State) : Result := cabinit Config.params col qp s

/-- CABDEC on this hardware. -/
def execCabdec (ctxIdx : BitVec 10) (s : State) : Result := cabdec Config.params ctxIdx s

/-- CABBYP on this hardware. -/
def execCabbyp (s : State) : Result := cabbyp Config.params s

/-- CABTERM on this hardware. -/
def execCabterm (s : State) : Result := cabterm Config.params s

/-- CTXWR ctxIdx, val7 (R110). -/
def execCtxwr (ctxIdx : BitVec 10) (val : BitVec 7) (s : State) : Result := respond 0 (ctxWrite ctxIdx val s)

/-- CTXRD ctxIdx (R111). -/
def execCtxrd (ctxIdx : BitVec 10) (s : State) : Result := respond ((ctxRead s ctxIdx).setWidth 32) s

end Sys2Proof.Machine
end

