-- ==== Sys2Proof/Machine/Deblock.lean ====
section
/-! DEFINITION. The deblocking unit (45_deblock.md R160 to R168). A line's samples are given by two functions `p` and `q` of
the distance from the edge; a line filter answers the samples it changes, each at an offset from the edge:
`q_i` at offset i and `p_i` at offset −1 − i (R160). -/

namespace Sys2Proof.Machine

/-- The thresholds of one command (R162). -/
structure Thresholds where
  alpha : Int
  beta : Int
  /-- indexA, which with bS picks tc0 -/
  indexA : Nat
  deriving DecidableEq, Repr

/-- `tc0(bS)` for bS = 1, 2, 3 (R162). -/
def tc0Of (t : Thresholds) (bS : Nat) : Int := tc0Tab t.indexA bS

/-- indexA or indexB: Clip3(0, 51, QPAV + offset) (R162). -/
def thresholdIndex (qpav : BitVec 6) (offset : BitVec 8) : Nat := (clip3 0 51 (qpav.toNat + offset.toInt)).toNat

/-- The thresholds of a command (R162). -/
def thresholds (s : State) : Thresholds where
  alpha := alphaTab (thresholdIndex s.qpav s.foa)
  beta := betaTab (thresholdIndex s.qpav s.fob)
  indexA := thresholdIndex s.qpav s.foa

/-- `filterSamplesFlag` (R163). -/
def filterSamples (t : Thresholds) (bS : Nat) (p q : Nat → Int) : Bool :=
  decide (bS ≠ 0 ∧ absInt (p 0 - q 0) < t.alpha ∧ absInt (p 1 - p 0) < t.beta ∧ absInt (q 1 - q 0) < t.beta)

/-- `delta` of R164 and R166. -/
def softDelta (tc : Int) (p q : Nat → Int) : Int :=
  clip3 (-tc) tc (asr (4 * (q 0 - p 0) + (p 1 - q 1) + 4) 3)

/-- `p1'` of R164, and with the sides exchanged `q1'`. -/
def softSecond (tc0 : Int) (p q : Nat → Int) : Int :=
  p 1 + clip3 (-tc0) tc0 (asr (p 2 + asr (p 0 + q 0 + 1) 1 - 2 * p 1) 1)

/-- A luma line with bS 1, 2 or 3 (R164). -/
def lumaSoft (t : Thresholds) (bS : Nat) (p q : Nat → Int) : List (Int × Int) :=
  let nearP := decide (absInt (p 2 - p 0) < t.beta)
  let nearQ := decide (absInt (q 2 - q 0) < t.beta)
  let tc := tc0Of t bS + (if nearP then 1 else 0) + (if nearQ then 1 else 0)
  let delta := softDelta tc p q
  [(-1, clip1 (p 0 + delta)), (0, clip1 (q 0 - delta))]
    ++ (if nearP then [(-2, softSecond (tc0Of t bS) p q)] else [])
    ++ (if nearQ then [(1, softSecond (tc0Of t bS) q p)] else [])

/-- One side of a luma line with bS 4 (R165): the new values of samples 0, 1, 2 of side `a`, opposite side `b`. -/
def strongSide (t : Thresholds) (a b : Nat → Int) : List Int :=
  if absInt (a 2 - a 0) < t.beta ∧ absInt (a 0 - b 0) < asr t.alpha 2 + 2 then
    [asr (a 2 + 2 * a 1 + 2 * a 0 + 2 * b 0 + b 1 + 4) 3,
     asr (a 2 + a 1 + a 0 + b 0 + 2) 2,
     asr (2 * a 3 + 3 * a 2 + a 1 + a 0 + b 0 + 4) 3]
  else [asr (2 * a 1 + a 0 + b 1 + 2) 2]

/-- New values of side p, from sample 0 outward, at their offsets. -/
def atOffsetsP (vs : List Int) : List (Int × Int) := vs.zipIdx.map fun v => (-1 - (v.2 : Int), v.1)

/-- New values of side q, from sample 0 outward, at their offsets. -/
def atOffsetsQ (vs : List Int) : List (Int × Int) := vs.zipIdx.map fun v => ((v.2 : Int), v.1)

/-- A luma line with bS 4 (R165). -/
def lumaStrong (t : Thresholds) (p q : Nat → Int) : List (Int × Int) :=
  atOffsetsP (strongSide t p q) ++ atOffsetsQ (strongSide t q p)

/-- A luma line (R163 to R165): the samples that change. -/
def lumaLine (t : Thresholds) (bS : Nat) (p q : Nat → Int) : List (Int × Int) :=
  if filterSamples t bS p q then (if bS < 4 then lumaSoft t bS p q else lumaStrong t p q) else []

/-- A chroma line (R163, R166): only p0 and q0 change. -/
def chromaLine (t : Thresholds) (bS : Nat) (p q : Nat → Int) : List (Int × Int) :=
  if filterSamples t bS p q then
    if bS < 4 then
      let delta := softDelta (tc0Of t bS + 1) p q
      [(-1, clip1 (p 0 + delta)), (0, clip1 (q 0 - delta))]
    else
      [(-1, asr (2 * p 1 + p 0 + q 1 + 2) 2), (0, asr (2 * q 1 + q 0 + p 1 + 2) 2)]
  else []

/-- The line filter of a component. -/
def filterLine (c : Comp) (t : Thresholds) (bS : Nat) (p q : Nat → Int) : List (Int × Int) :=
  match c with
  | .y => lumaLine t bS p q
  | .cb | .cr => chromaLine t bS p q

/-- `L`: 16 lines for luma, 8 for chroma (R160). -/
def edgeLines : Comp → Nat
  | .y => 16
  | .cb | .cr => 8

/-- `M`: samples on each side, 4 for luma and 2 for chroma (R160). -/
def edgeDepth : Comp → Nat
  | .y => 4
  | .cb | .cr => 2

/-- Which BS field strengthens line `k`: k >> 2 for luma, k >> 1 for chroma (R160). -/
def strengthField (c : Comp) (k : Nat) : Nat :=
  match c with
  | .y => k / 4
  | .cb | .cr => k / 2

/-- `bS[n]` of register BS (10_state.md R22). -/
def strengthAt (s : State) (n : Nat) : Nat := (s.bs.extractLsb' (3 * n) 3).toNat

/-- The position of the sample at offset `o` from the edge on line `k` (R160). -/
def linePos (s : State) (dir : BitVec 1) (k : Nat) (o : Int) : Nat × Nat :=
  if dir = 0 then ((s.dstX.toNat + o).toNat, s.dstY.toNat + k)
  else (s.dstX.toNat + k, (s.dstY.toNat + o).toNat)

/-- The sample at offset `o` on line `k`. -/
def lineSample (s : State) (c : Comp) (dir : BitVec 1) (k : Nat) (o : Int) : Int :=
  (fbRead s s.curSlot c (linePos s dir k o).1 (linePos s dir k o).2).toNat

/-- The samples line `k` changes, with their positions (R160, R167). -/
def lineWrites (s : State) (c : Comp) (dir : BitVec 1) (k : Nat) : List (Nat × Nat × Byte) :=
  (filterLine c (thresholds s) (strengthAt s (strengthField c k))
      (fun i => lineSample s c dir k (-1 - i)) (fun i => lineSample s c dir k i)).map fun w =>
    ((linePos s dir k w.1).1, (linePos s dir k w.1).2, toByte w.2)

/-- All samples of the edge lie inside the plane (R160, R167, R168). -/
def edgeInside (s : State) (c : Comp) (dir : BitVec 1) : Bool :=
  let x := s.dstX.toNat
  let y := s.dstY.toNat
  if dir = 0 then
    decide (edgeDepth c ≤ x ∧ x + edgeDepth c ≤ planeWidth s c ∧ y + edgeLines c ≤ planeHeight s c)
  else decide (edgeDepth c ≤ y ∧ y + edgeDepth c ≤ planeHeight s c ∧ x + edgeLines c ≤ planeWidth s c)

/-- No strength above 4 and QPAV at most 51 (R167). -/
def strengthsLegal (s : State) : Bool :=
  decide (strengthAt s 0 ≤ 4 ∧ strengthAt s 1 ≤ 4 ∧ strengthAt s 2 ≤ 4 ∧ strengthAt s 3 ≤ 4 ∧ s.qpav.toNat ≤ 51)

/-- DBKLUMA and DBKCHROMA on plane `c` (R167, R168). Lines share no sample, so every line is filtered from the state
before the command (R170; log 15). -/
def deblockEdge (P : Params) (c : Comp) (dir : BitVec 1) (s : State) : Result :=
  if strengthsLegal s then
    if pictureLegal P s && edgeInside s c dir then
      respond 0 (fbWriteAll s.curSlot c ((List.range (edgeLines c)).flatMap (lineWrites s c dir)) s)
    else raiseFault .eGeometry s
  else raiseFault .eOperand s

/-- DBKLUMA dir (R167) on this hardware. -/
def execDbkluma (dir : BitVec 1) (s : State) : Result := deblockEdge Config.params .y dir s

/-- DBKCHROMA comp, dir (R168) on this hardware. -/
def execDbkchroma (cr dir : BitVec 1) (s : State) : Result := deblockEdge Config.params (compOfCr cr) dir s

end Sys2Proof.Machine
end

