-- ==== Sys2Proof/Machine/Interp.lean ====
section
/-! DEFINITION. The motion-compensation interpolation unit and the frame-store port (44_interp.md R140 to R149). The
interpolators take the clamped reference plane as a function `R` of integer coordinates (R141). -/

namespace Sys2Proof.Machine

/-! ### Luma interpolation (R142, R143) -/

/-- The six-tap sum {1, −5, 20, 20, −5, 1} of `f` at offsets −2..3 (R142). -/
def sixTap (f : Int → Int) : Int := f (-2) - 5 * f (-1) + 20 * f 0 + 20 * f 1 - 5 * f 2 + f 3

/-- `B1(x, y)`, horizontal (R142). -/
def sumB1 (R : Int → Int → Int) (x y : Int) : Int := sixTap fun d => R (x + d) y

/-- `H1(x, y)`, vertical (R142). -/
def sumH1 (R : Int → Int → Int) (x y : Int) : Int := sixTap fun d => R x (y + d)

/-- `J1(x, y)`, both (R142). -/
def sumJ1 (R : Int → Int → Int) (x y : Int) : Int := sixTap fun d => sumB1 R x (y + d)

/-- `bq(x, y)`: the half sample to the right of (x, y) (R142). -/
def halfB (R : Int → Int → Int) (x y : Int) : Int := clip1 (asr (sumB1 R x y + 16) 5)

/-- `hq(x, y)`: the half sample below (x, y) (R142). -/
def halfH (R : Int → Int → Int) (x y : Int) : Int := clip1 (asr (sumH1 R x y + 16) 5)

/-- `jq(x, y)`: the half sample right of and below (x, y) (R142). -/
def halfJ (R : Int → Int → Int) (x y : Int) : Int := clip1 (asr (sumJ1 R x y + 512) 10)

/-- `avg(u, v)` (R143). -/
def avg (u v : Int) : Int := asr (u + v + 1) 1

/-- `LumaSample` (R143): the 4 × 4 phase table, by (yF, xF). -/
def lumaSample (R : Int → Int → Int) (x y : Int) (xF yF : Nat) : Int :=
  let G := R x y
  let b := halfB R x y
  let h := halfH R x y
  let j := halfJ R x y
  let m := halfH R (x + 1) y
  let s := halfB R x (y + 1)
  match yF, xF with
  | 0, 0 => G
  | 0, 1 => avg G b
  | 0, 2 => b
  | 0, _ => avg (R (x + 1) y) b
  | 1, 0 => avg G h
  | 1, 1 => avg b h
  | 1, 2 => avg b j
  | 1, _ => avg b m
  | 2, 0 => h
  | 2, 1 => avg h j
  | 2, 2 => j
  | 2, _ => avg j m
  | _, 0 => avg (R x (y + 1)) h
  | _, 1 => avg h s
  | _, 2 => avg j s
  | _, _ => avg m s

/-! ### Chroma interpolation (R144) -/

/-- `ChromaSample` (R144). -/
def chromaSample (R : Int → Int → Int) (x y : Int) (xF yF : Nat) : Int :=
  asr ((8 - xF) * (8 - yF) * R x y + xF * (8 - yF) * R (x + 1) y
    + (8 - xF) * yF * R x (y + 1) + xF * yF * R (x + 1) (y + 1) + 32) 6

/-! ### Motion vectors (R140) -/

/-- The integer part of a motion vector component with `k` fraction bits: an arithmetic shift (R140). -/
def mvInt (k : Nat) (mv : BitVec 16) : Int := asr mv.toInt k

/-- The fraction of a motion vector component with `k` fraction bits: the low bits of the pattern (R140). -/
def mvFrac (k : Nat) (mv : BitVec 16) : Nat := mv.toNat % 2 ^ k

/-- The interpolated sample for block offset (x, y) of plane `c` from slot `ref` (R140, R146, R147). -/
def predSample (s : State) (c : Comp) (ref : BitVec 5) (x y : Nat) : Int :=
  match c with
  | .y => lumaSample (refSample s ref c) (s.dstX.toNat + x + mvInt 2 s.mvX) (s.dstY.toNat + y + mvInt 2 s.mvY)
      (mvFrac 2 s.mvX) (mvFrac 2 s.mvY)
  | .cb | .cr => chromaSample (refSample s ref c) (s.dstX.toNat + x + mvInt 3 s.mvX)
      (s.dstY.toNat + y + mvInt 3 s.mvY) (mvFrac 3 s.mvX) (mvFrac 3 s.mvY)

/-! ### Combination with the destination (R145) -/

/-- `Combine(mode, d, p)` for modes PUT 0, WUNI 1, WBI 2 (R145). -/
def combine (s : State) (mode : BitVec 2) (d p : Int) : Int :=
  if mode = 0 then p
  else if mode = 1 then
    clip1 (wrap32 (asr (wrap32 (s.w0.toInt * p + s.wround.toNat)) s.wshift.toNat + s.woff.toInt))
  else
    clip1 (wrap32 (asr (wrap32 (s.w0.toInt * d + s.w1.toInt * p + s.wround.toNat)) s.wshift.toNat + s.woff.toInt))

/-! ### Commands -/

/-- MCLUMA and MCCHROMA on plane `c` (R146, R147): reserved fields, picture size, position; then every sample is
read and combined before any is written. -/
def motionBlock (P : Params) (c : Comp) (ref : BitVec 5) (wc hc mode : BitVec 2) (s : State) : Result :=
  if codeLegal wc && codeLegal hc && codeLegal mode then
    if pictureLegal P s && blockInside s c (blockSide c wc) (blockSide c hc) then
      respond 0 (writeBlock c (blockSide c wc) (blockSide c hc) (fun x y =>
        toByte (combine s mode (fbRead s s.curSlot c (s.dstX.toNat + x) (s.dstY.toNat + y)).toNat
          (predSample s c ref x y))) s)
    else raiseFault .eGeometry s
  else raiseFault .eReserved s

/-- MCLUMA ref, w, h, mode (R146) on this hardware. -/
def execMcluma (ref : BitVec 5) (wc hc mode : BitVec 2) (s : State) : Result :=
  motionBlock Config.params .y ref wc hc mode s

/-- MCCHROMA comp, ref, w, h, mode (R147) on this hardware. -/
def execMcchroma (cr : BitVec 1) (ref : BitVec 5) (wc hc mode : BitVec 2) (s : State) : Result :=
  motionBlock Config.params (compOfCr cr) ref wc hc mode s

/-- The checks of SMPRD and SMPWR (R148): reserved field, picture size, position; then `k` on the component. -/
def withSample (P : Params) (comp : BitVec 2) (s : State) (k : Comp → Result) : Result :=
  match compOfField comp with
  | none => raiseFault .eReserved s
  | some c => if pictureLegal P s && blockInside s c 1 1 then k c else raiseFault .eGeometry s

/-- SMPRD slot, comp (R148). -/
def smprd (P : Params) (slot : BitVec 5) (comp : BitVec 2) (s : State) : Result :=
  withSample P comp s fun c => respond ((fbRead s slot c s.dstX.toNat s.dstY.toNat).setWidth 32) s

/-- SMPWR slot, comp, val8 (R149). -/
def smpwr (P : Params) (slot : BitVec 5) (comp : BitVec 2) (val : Byte) (s : State) : Result :=
  withSample P comp s fun c => respond 0 (fbWriteAll slot c [(s.dstX.toNat, s.dstY.toNat, val)] s)

/-- SMPRD on this hardware. -/
def execSmprd (slot : BitVec 5) (comp : BitVec 2) (s : State) : Result := smprd Config.params slot comp s

/-- SMPWR on this hardware. -/
def execSmpwr (slot : BitVec 5) (comp : BitVec 2) (val : BitVec 8) (s : State) : Result :=
  smpwr Config.params slot comp val s

end Sys2Proof.Machine
end

