-- ==== Sys2Proof/Machine/System.lean ====
section
/-! DEFINITION. The system commands (40_system.md R80 to R85). -/

namespace Sys2Proof.Machine

/-- NOP (R80): nothing but its response. -/
def execNop (s : State) : Result := respond 0 s

/-- WRL reg, imm16 (R81). -/
def execWrl (reg : BitVec 8) (imm : BitVec 16) (s : State) : Result :=
  match regOfNumber reg with
  | none => raiseFault .eReg s
  | some r => if regReadOnly r then raiseFault .eReg s else respond 0 (regWriteLow imm s r)

/-- WRH reg, imm16 (R82): only CPB_PTR and CPB_END are 32 bits wide. -/
def execWrh (reg : BitVec 8) (imm : BitVec 16) (s : State) : Result :=
  match regOfNumber reg with
  | some .cpbPtr => respond 0 { s with cpbPtr := imm ++ s.cpbPtr.extractLsb' 0 16 }
  | some .cpbEnd => respond 0 { s with cpbEnd := imm ++ s.cpbEnd.extractLsb' 0 16 }
  | _ => raiseFault .eReg s

/-- RDREG reg (R83). -/
def execRdreg (reg : BitVec 8) (s : State) : Result :=
  match regOfNumber reg with
  | none => raiseFault .eReg s
  | some r => respond (regRead s r) s

/-- CLRST mask (R84). -/
def execClrst (mask : BitVec 4) (s : State) : Result := respond 0 (clearSticky mask s)

/-- SRESET (R85): reset, and a response (0, 0). -/
def execSreset (s : State) : Result := respond 0 (resetBlock s)

end Sys2Proof.Machine
end

