-- ==== Sys2Proof/Machine/Transform.lean ====
section
/-! DEFINITION. The transform unit (43_transform.md R120 to R134). A coefficient is an s32 as a 32-bit pattern, so every
`+`, `−`, `·` and `<<` of BitVec is the rule's operation followed by `wrap32` (R134). -/

namespace Sys2Proof.Machine

/-- The coefficient file (10_state.md R30). -/
abbrev Coefs := Vector (BitVec 32) 64

/-- `COEF[k]`. -/
def coefAt (cs : Coefs) (k : Nat) : BitVec 32 := cs[k]?.getD 0

/-- Put the same function's values into the first `n` entries and keep the others. -/
def mapFirst (n : Nat) (cs : Coefs) (f : Nat → BitVec 32) : Coefs :=
  Vector.ofFn fun k : Fin 64 => if k.val < n then f k.val else cs[k]

/-! ### Coefficient and weight access -/

/-- COEFWR idx, value (R121). -/
def execCoefwr (idx : BitVec 6) (imm : BitVec 16) (s : State) : Result :=
  respond 0 { s with coef := s.coef.set idx.toNat (imm.signExtend 32) idx.isLt }

/-- COEFRD idx (R122). -/
def execCoefrd (idx : BitVec 6) (s : State) : Result := respond (coefAt s.coef idx.toNat) s

/-- COEFCLR (R123). -/
def execCoefclr (s : State) : Result := respond 0 { s with coef := Vector.replicate 64 0 }

/-- WSWR idx, val8 (R124). -/
def execWswr (idx : BitVec 6) (val : BitVec 8) (s : State) : Result :=
  respond 0 { s with ws := s.ws.set idx.toNat val idx.isLt }

/-! ### Dequantisation -/

/-- One coefficient's dequantisation (R126, R127): `ls` = weightScale · normAdjust, `q` = qp / 6, `rnd` the rounding
term (log 9), `shift` 4 or 6. -/
def deqCoef (ls q rnd shift : Nat) (c : BitVec 32) : BitVec 32 :=
  (((c * BitVec.ofNat 32 ls) <<< q) + BitVec.ofNat 32 rnd).sshiftRight shift

/-- DEQ4's new `COEF[k]`, k < 16 (R126). -/
def deq4Coef (rounds : Bool) (qp : Nat) (s : State) (k : Nat) : BitVec 32 :=
  deqCoef ((s.ws[k]?.getD 0).toNat * normAdjust4x4 (qp % 6) (k / 4) (k % 4)) (qp / 6)
    (if rounds then 8 else 0) 4 (coefAt s.coef k)

/-- DEQ8's new `COEF[k]` (R127). -/
def deq8Coef (rounds : Bool) (qp : Nat) (s : State) (k : Nat) : BitVec 32 :=
  deqCoef ((s.ws[k]?.getD 0).toNat * normAdjust8x8 (qp % 6) (k / 8) (k % 8)) (qp / 6)
    (if rounds then 32 else 0) 6 (coefAt s.coef k)

/-- DEQ4 qp (R126). -/
def deq4 (P : Params) (qp : BitVec 6) (s : State) : Result :=
  if qp.toNat > 51 then raiseFault .eOperand s
  else respond 0 { s with coef := mapFirst 16 s.coef (deq4Coef P.deqRound qp.toNat s) }

/-- DEQ8 qp (R127). -/
def deq8 (P : Params) (qp : BitVec 6) (s : State) : Result :=
  if qp.toNat > 51 then raiseFault .eOperand s
  else respond 0 { s with coef := mapFirst 64 s.coef (deq8Coef P.deqRound qp.toNat s) }

/-- DEQ4 on this hardware. -/
def execDeq4 (qp : BitVec 6) (s : State) : Result := deq4 Config.params qp s

/-- DEQ8 on this hardware. -/
def execDeq8 (qp : BitVec 6) (s : State) : Result := deq8 Config.params qp s

/-! ### Inverse transforms -/

/-- `Inv4(d0, d1, d2, d3)` (R128). -/
def inv4 (d0 d1 d2 d3 : BitVec 32) : List (BitVec 32) :=
  let e0 := d0 + d2
  let e1 := d0 - d2
  let e2 := d1.sshiftRight 1 - d3
  let e3 := d1 + d3.sshiftRight 1
  [e0 + e3, e1 + e2, e1 - e2, e0 - e3]

/-- `Inv8(d0, …, d7)` (R130). -/
def inv8 (d0 d1 d2 d3 d4 d5 d6 d7 : BitVec 32) : List (BitVec 32) :=
  let a0 := d0 + d4
  let a2 := d0 - d4
  let a4 := d2.sshiftRight 1 - d6
  let a6 := d2 + d6.sshiftRight 1
  let a1 := -d3 + d5 - d7 - d7.sshiftRight 1
  let a3 := d1 + d7 - d3 - d3.sshiftRight 1
  let a5 := -d1 + d7 + d5 + d5.sshiftRight 1
  let a7 := d3 + d5 + d1 + d1.sshiftRight 1
  let b0 := a0 + a6
  let b2 := a2 + a4
  let b4 := a2 - a4
  let b6 := a0 - a6
  let b1 := a1 + a7.sshiftRight 2
  let b3 := a3 + a5.sshiftRight 2
  let b5 := a3.sshiftRight 2 - a5
  let b7 := a7 - a1.sshiftRight 2
  [b0 + b7, b2 + b5, b4 + b3, b6 + b1, b6 - b1, b4 - b3, b2 - b5, b0 - b7]

/-- Row `i`, column `j` after the row pass of IDCT4 (R129). -/
def rowPass4 (c : Coefs) (i j : Nat) : BitVec 32 :=
  (inv4 (coefAt c (4 * i)) (coefAt c (4 * i + 1)) (coefAt c (4 * i + 2)) (coefAt c (4 * i + 3))).getD j 0

/-- IDCT4's new `COEF[k]`, k < 16 (R129): rows first, then columns, then (x + 32) >> 6. -/
def idct4Coef (c : Coefs) (k : Nat) : BitVec 32 :=
  let j := k % 4
  ((inv4 (rowPass4 c 0 j) (rowPass4 c 1 j) (rowPass4 c 2 j) (rowPass4 c 3 j)).getD (k / 4) 0 + 32).sshiftRight 6

/-- Row `i`, column `j` after the row pass of IDCT8 (R131). -/
def rowPass8 (c : Coefs) (i j : Nat) : BitVec 32 :=
  (inv8 (coefAt c (8 * i)) (coefAt c (8 * i + 1)) (coefAt c (8 * i + 2)) (coefAt c (8 * i + 3))
    (coefAt c (8 * i + 4)) (coefAt c (8 * i + 5)) (coefAt c (8 * i + 6)) (coefAt c (8 * i + 7))).getD j 0

/-- IDCT8's new `COEF[k]` (R131). -/
def idct8Coef (c : Coefs) (k : Nat) : BitVec 32 :=
  let j := k % 8
  ((inv8 (rowPass8 c 0 j) (rowPass8 c 1 j) (rowPass8 c 2 j) (rowPass8 c 3 j)
    (rowPass8 c 4 j) (rowPass8 c 5 j) (rowPass8 c 6 j) (rowPass8 c 7 j)).getD (k / 8) 0 + 32).sshiftRight 6

/-- IDCT4 (R129). -/
def execIdct4 (s : State) : Result := respond 0 { s with coef := mapFirst 16 s.coef (idct4Coef s.coef) }

/-- IDCT8 (R131). -/
def execIdct8 (s : State) : Result := respond 0 { s with coef := mapFirst 64 s.coef (idct8Coef s.coef) }

/-! ### Reconstruction -/

/-- `Clip1(wrap32(pred + residual))` (R132). -/
def addClip (pred : Byte) (residual : BitVec 32) : Byte := toByte (clip1 (pred.setWidth 32 + residual).toInt)

/-- ADD4 (n = 4) and ADD8 (n = 8) (R132, R133): reserved field, picture size, position, then the block. -/
def addBlock (P : Params) (n : Nat) (comp : BitVec 2) (s : State) : Result :=
  match compOfField comp with
  | none => raiseFault .eReserved s
  | some c =>
    if pictureLegal P s && blockInside s c n n then
      respond 0 (writeBlock c n n (fun j i =>
        addClip (fbRead s s.curSlot c (s.dstX.toNat + j) (s.dstY.toNat + i)) (coefAt s.coef (n * i + j))) s)
    else raiseFault .eGeometry s

/-- ADD4 comp (R132) on this hardware. -/
def execAdd4 (comp : BitVec 2) (s : State) : Result := addBlock Config.params 4 comp s

/-- ADD8 comp (R133) on this hardware. -/
def execAdd8 (comp : BitVec 2) (s : State) : Result := addBlock Config.params 8 comp s

end Sys2Proof.Machine
end

