-- ==== Sys2Proof/Syntax.lean ====
section
/-! DEFINITION. The 31 commands of E264-CORE (30_encoding.md R63), one constructor per row of the opcode table.
Operand fields have the widths of 30_encoding.md R61. -/

namespace Sys2Proof

/-- A command with its operand fields (30_encoding.md R61, R64). -/
inductive Instr where
  /-- NOP (R80) -/
  | nop
  /-- WRL reg, imm16 (R81) -/
  | wrl (reg : BitVec 8) (imm : BitVec 16)
  /-- WRH reg, imm16 (R82) -/
  | wrh (reg : BitVec 8) (imm : BitVec 16)
  /-- RDREG reg (R83) -/
  | rdreg (reg : BitVec 8)
  /-- CLRST mask (R84); bit `k` of the field is bit `k + 1` of the word -/
  | clrst (mask : BitVec 4)
  /-- SRESET (R85) -/
  | sreset
  /-- BSINIT (R90) -/
  | bsinit
  /-- RDBITS n (R91) -/
  | rdbits (n : BitVec 6)
  /-- CABSTART (R105) -/
  | cabstart
  /-- CABINIT qp, col (R106) -/
  | cabinit (col : BitVec 2) (qp : BitVec 6)
  /-- CABDEC ctxIdx (R107) -/
  | cabdec (ctxIdx : BitVec 10)
  /-- CABBYP (R108) -/
  | cabbyp
  /-- CABTERM (R109) -/
  | cabterm
  /-- CTXWR ctxIdx, val7 (R110) -/
  | ctxwr (ctxIdx : BitVec 10) (val : BitVec 7)
  /-- CTXRD ctxIdx (R111) -/
  | ctxrd (ctxIdx : BitVec 10)
  /-- COEFWR idx, value (R121) -/
  | coefwr (idx : BitVec 6) (imm : BitVec 16)
  /-- COEFRD idx (R122) -/
  | coefrd (idx : BitVec 6)
  /-- COEFCLR (R123) -/
  | coefclr
  /-- WSWR idx, val8 (R124) -/
  | wswr (idx : BitVec 6) (val : BitVec 8)
  /-- DEQ4 qp (R126) -/
  | deq4 (qp : BitVec 6)
  /-- DEQ8 qp (R127) -/
  | deq8 (qp : BitVec 6)
  /-- IDCT4 (R129) -/
  | idct4
  /-- IDCT8 (R131) -/
  | idct8
  /-- ADD4 comp (R132) -/
  | add4 (comp : BitVec 2)
  /-- ADD8 comp (R133) -/
  | add8 (comp : BitVec 2)
  /-- MCLUMA ref, w, h, mode (R146) -/
  | mcluma (ref : BitVec 5) (wc hc mode : BitVec 2)
  /-- MCCHROMA comp, ref, w, h, mode (R147); comp = 1 + cr -/
  | mcchroma (cr : BitVec 1) (ref : BitVec 5) (wc hc mode : BitVec 2)
  /-- DBKLUMA dir (R167) -/
  | dbkluma (dir : BitVec 1)
  /-- DBKCHROMA comp, dir (R168); comp = 1 + cr -/
  | dbkchroma (cr dir : BitVec 1)
  /-- SMPRD slot, comp (R148) -/
  | smprd (slot : BitVec 5) (comp : BitVec 2)
  /-- SMPWR slot, comp, val8 (R149) -/
  | smpwr (slot : BitVec 5) (comp : BitVec 2) (val : BitVec 8)
  deriving DecidableEq, Repr

end Sys2Proof
end

