-- ==== Sys2Proof/Machine/Dispatch.lean ====
section
/-! DEFINITION. The meaning of every command: one arm per constructor of Instr. -/

namespace Sys2Proof.Machine

def exec (i : Instr) (s : State) : Host.Outcome State Fault Refusal :=
  match i with
  | .nop => Sys2Proof.Machine.execNop s
  | .wrl reg imm => Sys2Proof.Machine.execWrl reg imm s
  | .wrh reg imm => Sys2Proof.Machine.execWrh reg imm s
  | .rdreg reg => Sys2Proof.Machine.execRdreg reg s
  | .clrst mask => Sys2Proof.Machine.execClrst mask s
  | .sreset => Sys2Proof.Machine.execSreset s
  | .bsinit => Sys2Proof.Machine.execBsinit s
  | .rdbits n => Sys2Proof.Machine.execRdbits n s
  | .cabstart => Sys2Proof.Machine.execCabstart s
  | .cabinit col qp => Sys2Proof.Machine.execCabinit col qp s
  | .cabdec ctxIdx => Sys2Proof.Machine.execCabdec ctxIdx s
  | .cabbyp => Sys2Proof.Machine.execCabbyp s
  | .cabterm => Sys2Proof.Machine.execCabterm s
  | .ctxwr ctxIdx val => Sys2Proof.Machine.execCtxwr ctxIdx val s
  | .ctxrd ctxIdx => Sys2Proof.Machine.execCtxrd ctxIdx s
  | .coefwr idx imm => Sys2Proof.Machine.execCoefwr idx imm s
  | .coefrd idx => Sys2Proof.Machine.execCoefrd idx s
  | .coefclr => Sys2Proof.Machine.execCoefclr s
  | .wswr idx val => Sys2Proof.Machine.execWswr idx val s
  | .deq4 qp => Sys2Proof.Machine.execDeq4 qp s
  | .deq8 qp => Sys2Proof.Machine.execDeq8 qp s
  | .idct4 => Sys2Proof.Machine.execIdct4 s
  | .idct8 => Sys2Proof.Machine.execIdct8 s
  | .add4 comp => Sys2Proof.Machine.execAdd4 comp s
  | .add8 comp => Sys2Proof.Machine.execAdd8 comp s
  | .mcluma ref wc hc mode => Sys2Proof.Machine.execMcluma ref wc hc mode s
  | .mcchroma cr ref wc hc mode => Sys2Proof.Machine.execMcchroma cr ref wc hc mode s
  | .dbkluma dir => Sys2Proof.Machine.execDbkluma dir s
  | .dbkchroma cr dir => Sys2Proof.Machine.execDbkchroma cr dir s
  | .smprd slot comp => Sys2Proof.Machine.execSmprd slot comp s
  | .smpwr slot comp val => Sys2Proof.Machine.execSmpwr slot comp val s

end Sys2Proof.Machine
end

