-- ==== Sys2Proof/WellFormed.lean ====
section
/-! DEFINITION. Which terms of `Instr` are legal commands: the field values 30_encoding.md R65 (c) and R66 reserve
are excluded. An operand value a command refuses when it runs (RDBITS 0, CABINIT 52) is a legal encoding and
is well formed. -/

namespace Sys2Proof

/-- `comp`, `wc`, `hc` and `mode` each take the values 0, 1, 2; 3 is reserved (30_encoding.md R65 (c), R66). -/
def fieldLegal (f : BitVec 2) : Bool := f != 3#2

/-- The command has no reserved field value (30_encoding.md R65 (c)). -/
def Instr.wellFormed : Instr → Bool
  | .add4 comp => fieldLegal comp
  | .add8 comp => fieldLegal comp
  | .mcluma _ wc hc mode => fieldLegal wc && fieldLegal hc && fieldLegal mode
  | .mcchroma _ _ wc hc mode => fieldLegal wc && fieldLegal hc && fieldLegal mode
  | .smprd _ comp => fieldLegal comp
  | .smpwr _ comp _ => fieldLegal comp
  | .nop | .wrl _ _ | .wrh _ _ | .rdreg _ | .clrst _ | .sreset | .bsinit | .rdbits _ | .cabstart
  | .cabinit _ _ | .cabdec _ | .cabbyp | .cabterm | .ctxwr _ _ | .ctxrd _ | .coefwr _ _ | .coefrd _
  | .coefclr | .wswr _ _ | .deq4 _ | .deq8 _ | .idct4 | .idct8 | .dbkluma _ | .dbkchroma _ _ => true

end Sys2Proof
end

