-- ==== Sys2Proof/Decode.lean ====
section
/-! DEFINITION. Decoding a command word (30_encoding.md R60 to R65), total and refusing by name, and the encoder written
from the same format tables. -/

namespace Sys2Proof

/-- Why a word is no legal command (30_encoding.md R65 (a); (b) and (c)). -/
inductive Reject where
  /-- bits 31:24 are not an assigned opcode: E_OPCODE -/
  | unassignedOpcode
  /-- a must-be-zero bit is 1, or a field holds its reserved value: E_RESERVED -/
  | reservedBits
  deriving DecidableEq, Repr

/-- `w[hi:lo]` as a field of `len = hi − lo + 1` bits (00_scope.md R8). -/
abbrev field (w : Word) (lo len : Nat) : BitVec len := w.extractLsb' lo len

/-- The `len` bits of `w` from bit `lo` up are all 0. -/
def zeroAt (w : Word) (lo len : Nat) : Bool := field w lo len == 0#len

/-- Accept `i` when the must-be-zero bits are 0 and no field holds a reserved value (30_encoding.md R65 (b), (c)). -/
def accept (mustBeZero : Bool) (i : Instr) : Except Reject Instr :=
  if mustBeZero && i.wellFormed then .ok i else .error .reservedBits

/-- Format N: no operand. -/
def decodeN (w : Word) (i : Instr) : Except Reject Instr := accept (zeroAt w 0 24) i

/-- Format Q: a six-bit value. -/
def decodeQ (w : Word) (f : BitVec 6 → Instr) : Except Reject Instr := accept (zeroAt w 6 18) (f (field w 0 6))

/-- Format CX where `val7` must be 0. -/
def decodeCX (w : Word) (f : BitVec 10 → Instr) : Except Reject Instr := accept (zeroAt w 10 14) (f (field w 0 10))

/-- Format P: a plane number. -/
def decodeP (w : Word) (f : BitVec 2 → Instr) : Except Reject Instr := accept (zeroAt w 2 22) (f (field w 0 2))

/-- The opcode map (30_encoding.md R63) and, per format, the must-be-zero bits and the fields (R61). -/
def decode (w : Word) : Except Reject Instr :=
  match (field w 24 8).toNat with
  | 0x00 => decodeN w .nop
  | 0x01 => .ok (.wrl (field w 16 8) (field w 0 16))
  | 0x02 => .ok (.wrh (field w 16 8) (field w 0 16))
  | 0x03 => accept (zeroAt w 0 16) (.rdreg (field w 16 8))
  | 0x04 => accept (zeroAt w 5 19 && zeroAt w 0 1) (.clrst (field w 1 4))
  | 0x05 => decodeN w .sreset
  | 0x10 => decodeN w .bsinit
  | 0x11 => decodeQ w .rdbits
  | 0x20 => decodeN w .cabstart
  | 0x21 => accept (zeroAt w 10 14 && zeroAt w 6 2) (.cabinit (field w 8 2) (field w 0 6))
  | 0x22 => decodeCX w .cabdec
  | 0x23 => decodeN w .cabbyp
  | 0x24 => decodeN w .cabterm
  | 0x25 => accept (zeroAt w 23 1 && zeroAt w 10 6) (.ctxwr (field w 0 10) (field w 16 7))
  | 0x26 => decodeCX w .ctxrd
  | 0x30 => accept (zeroAt w 22 2) (.coefwr (field w 16 6) (field w 0 16))
  | 0x31 => accept (zeroAt w 22 2 && zeroAt w 0 16) (.coefrd (field w 16 6))
  | 0x32 => decodeN w .coefclr
  | 0x33 => accept (zeroAt w 22 2 && zeroAt w 8 8) (.wswr (field w 16 6) (field w 0 8))
  | 0x34 => decodeQ w .deq4
  | 0x35 => decodeQ w .deq8
  | 0x36 => decodeN w .idct4
  | 0x37 => decodeN w .idct8
  | 0x38 => decodeP w .add4
  | 0x39 => decodeP w .add8
  | 0x40 => accept (zeroAt w 14 10 && zeroAt w 5 3)
      (.mcluma (field w 0 5) (field w 8 2) (field w 10 2) (field w 12 2))
  | 0x41 => accept (zeroAt w 17 7 && zeroAt w 14 2 && zeroAt w 5 3)
      (.mcchroma (field w 16 1) (field w 0 5) (field w 8 2) (field w 10 2) (field w 12 2))
  | 0x50 => accept (zeroAt w 1 23) (.dbkluma (field w 0 1))
  | 0x51 => accept (zeroAt w 9 15 && zeroAt w 1 7) (.dbkchroma (field w 8 1) (field w 0 1))
  | 0x60 => accept (zeroAt w 10 14 && zeroAt w 5 3) (.smprd (field w 0 5) (field w 8 2))
  | 0x61 => accept (zeroAt w 10 6 && zeroAt w 5 3) (.smpwr (field w 0 5) (field w 8 2) (field w 16 8))
  | _ => .error .unassignedOpcode

/-- The word of a command, written from the format tables (30_encoding.md R61, R63): fields joined from bit 31 down. -/
def encode : Instr → Word
  | .nop => 0x00#8 ++ 0#24
  | .wrl reg imm => 0x01#8 ++ reg ++ imm
  | .wrh reg imm => 0x02#8 ++ reg ++ imm
  | .rdreg reg => 0x03#8 ++ reg ++ 0#16
  | .clrst mask => 0x04#8 ++ 0#19 ++ mask ++ 0#1
  | .sreset => 0x05#8 ++ 0#24
  | .bsinit => 0x10#8 ++ 0#24
  | .rdbits n => 0x11#8 ++ 0#18 ++ n
  | .cabstart => 0x20#8 ++ 0#24
  | .cabinit col qp => 0x21#8 ++ 0#14 ++ col ++ 0#2 ++ qp
  | .cabdec ctxIdx => 0x22#8 ++ 0#14 ++ ctxIdx
  | .cabbyp => 0x23#8 ++ 0#24
  | .cabterm => 0x24#8 ++ 0#24
  | .ctxwr ctxIdx val => 0x25#8 ++ 0#1 ++ val ++ 0#6 ++ ctxIdx
  | .ctxrd ctxIdx => 0x26#8 ++ 0#14 ++ ctxIdx
  | .coefwr idx imm => 0x30#8 ++ 0#2 ++ idx ++ imm
  | .coefrd idx => 0x31#8 ++ 0#2 ++ idx ++ 0#16
  | .coefclr => 0x32#8 ++ 0#24
  | .wswr idx val => 0x33#8 ++ 0#2 ++ idx ++ 0#8 ++ val
  | .deq4 qp => 0x34#8 ++ 0#18 ++ qp
  | .deq8 qp => 0x35#8 ++ 0#18 ++ qp
  | .idct4 => 0x36#8 ++ 0#24
  | .idct8 => 0x37#8 ++ 0#24
  | .add4 comp => 0x38#8 ++ 0#22 ++ comp
  | .add8 comp => 0x39#8 ++ 0#22 ++ comp
  | .mcluma ref wc hc mode => 0x40#8 ++ 0#10 ++ mode ++ hc ++ wc ++ 0#3 ++ ref
  | .mcchroma cr ref wc hc mode => 0x41#8 ++ 0#7 ++ cr ++ 0#2 ++ mode ++ hc ++ wc ++ 0#3 ++ ref
  | .dbkluma dir => 0x50#8 ++ 0#23 ++ dir
  | .dbkchroma cr dir => 0x51#8 ++ 0#15 ++ cr ++ 0#7 ++ dir
  | .smprd slot comp => 0x60#8 ++ 0#14 ++ comp ++ 0#3 ++ slot
  | .smpwr slot comp val => 0x61#8 ++ val ++ 0#6 ++ comp ++ 0#3 ++ slot

/-- The command word the host means by `w` of `nbits` bits: every bit from `nbits` up is 0. -/
def tableWord (nbits w : Nat) : Word := BitVec.ofNat 32 (w % 2 ^ nbits)

/-- The command this decoder reads from the word `w` of an opcode-table row of `nbits` bits. A command word is
delivered as one 32-bit value (20_memory.md R45), so the table's numbering is the word's own. -/
def decodeTableWord (nbits w : Nat) : Option Instr :=
  match decode (tableWord nbits w) with
  | .ok i => some i
  | .error _ => none

end Sys2Proof
end

