-- ==== Sys2Proof/Machine/HostMoves.lean ====
section
/-! DEFINITION. What the host's moves other than commands do (20_memory.md R56, 70_reset_and_hazards.md R200), and the
fault a rejected word raises (30_encoding.md R65). -/

namespace Sys2Proof.Machine

/-- The fault code of a word the decoder refuses (30_encoding.md R65). -/
def rejectCode : Reject → FaultCode
  | .unassignedOpcode => .eOpcode
  | .reservedBits => .eReserved

/-- The host writes a CPB byte between commands (20_memory.md R56); the byte must exist (R40; log 10). -/
def hostWriteCpb (P : Params) (a : BitVec 32) (b : Byte) (s : State) : Result :=
  if a.toNat < P.cpbSize.toNat then .next { s with cpb := cellSet s.cpb a.toNat b } else .fault .hostCpbOutside

/-- The host writes an FB sample between commands (20_memory.md R56; log 10). -/
def hostWriteFb (slot : BitVec 5) (c : Comp) (x y : BitVec 16) (b : Byte) (s : State) : Result :=
  .next (fbWriteAll slot c [(x.toNat, y.toNat, b)] s)

/-- The platform applies reset (70_reset_and_hazards.md R200): as SRESET, with no response. -/
def hostReset (s : State) : Result := .next (resetBlock s)

end Sys2Proof.Machine
end

