-- ==== Sys2Proof/Machine/Step.lean ====
section
/-! DEFINITION. One step of the machine: the host's next move is taken; a command word is decoded and executed to completion
(00_scope.md R5, R12; 10_state.md R21). -/

namespace Sys2Proof.Machine

/-- A delivered word: its command's meaning, or the fault the decoder's refusal raises (30_encoding.md R65). -/
def execWord (w : Word) (s : State) : Host.Outcome State Fault Refusal :=
  match decode w with
  | .ok i => exec i s
  | .error r => raiseFault (rejectCode r) s

/-- The host's move `m` taken at state `s`. -/
def takeMove (m : HostMove) (s : State) : Host.Outcome State Fault Refusal :=
  match m with
  | .command w => execWord w s
  | .writeCpb a b => hostWriteCpb Config.params a b s
  | .writeFb slot c x y b => hostWriteFb slot c x y b s
  | .reset => hostReset s

/-- One step: take the next move; with none the block waits unchanged (20_memory.md R56; log 2). -/
def step (s : State) : Host.Outcome State Fault Refusal :=
  match s.inbox with
  | [] => .next s
  | m :: rest => takeMove m { s with inbox := rest }

/-- `s` with the command word the host means by `w` as its next move (log 1). -/
def State.withFetchWord (s : State) (nbits w : Nat) : State :=
  { s with inbox := .command (tableWord nbits w) :: s.inbox }

end Sys2Proof.Machine
end

