-- ==== Sys2Proof/Machine/Assembler.lean ====
section
/-! DEFINITION. The assembler's operand forms (30_encoding.md R68) and the pseudo-commands (R69), as data. The hardware knows
none of these: they only name command words. -/

namespace Sys2Proof.Machine

/-- The number a register name stands for (10_state.md R22, R24 to R29). -/
def regNumber : Reg → BitVec 8
  | .dstX => 0x00
  | .dstY => 0x01
  | .mvX => 0x02
  | .mvY => 0x03
  | .w0 => 0x04
  | .w1 => 0x05
  | .wround => 0x06
  | .wshift => 0x07
  | .woff => 0x08
  | .bs => 0x09
  | .qpav => 0x0A
  | .foa => 0x0B
  | .fob => 0x0C
  | .curSlot => 0x0D
  | .status => 0x10
  | .faultcode => 0x11
  | .picW => 0x12
  | .picH => 0x13
  | .cpbPtr => 0x14
  | .cpbEnd => 0x15
  | .codRange => 0x16
  | .codOffset => 0x17
  | .bitbuf => 0x18

/-- `mode` as it is written (R68). -/
inductive MotionMode where
  | put | wuni | wbi
  deriving DecidableEq, Repr

/-- `dir` as it is written: V (0) or H (1) (R68). -/
inductive EdgeDir where
  | v | h
  deriving DecidableEq, Repr

/-- A line of assembly (R68): operands in the order and spelling of the rule, numbers as written. -/
inductive Asm where
  | nop | sreset | bsinit | cabstart | cabbyp | cabterm | coefclr | idct4 | idct8
  | wrl (reg : Reg) (imm : Int)
  | wrh (reg : Reg) (imm : Int)
  | rdreg (reg : Reg)
  | clrst (flags : List Flag)
  | rdbits (n : Nat)
  | cabinit (qp col : Nat)
  | cabdec (ctxIdx : Nat)
  | ctxrd (ctxIdx : Nat)
  | ctxwr (ctxIdx val : Nat)
  | coefwr (idx : Nat) (value : Int)
  | coefrd (idx : Nat)
  | wswr (idx val : Nat)
  | deq4 (qp : Nat)
  | deq8 (qp : Nat)
  | add4 (comp : Comp)
  | add8 (comp : Comp)
  | mcluma (ref w h : Nat) (mode : MotionMode)
  | mcchroma (comp : Comp) (ref w h : Nat) (mode : MotionMode)
  | dbkluma (dir : EdgeDir)
  | dbkchroma (comp : Comp) (dir : EdgeDir)
  | smprd (slot : Nat) (comp : Comp)
  | smpwr (slot : Nat) (comp : Comp) (val : Nat)
  deriving DecidableEq, Repr

/-- A number that must fit its field of `w` bits. -/
def asmField (w n : Nat) : Option (BitVec w) := if n < 2 ^ w then some (BitVec.ofNat w n) else none

/-- imm16 as an unsigned 16-bit pattern or a signed value −32768..−1 in two's complement (R68). -/
def asmImm16 (v : Int) : Option (BitVec 16) :=
  if -32768 ≤ v ∧ v ≤ 65535 then some (BitVec.ofInt 16 v) else none

/-- The size code of a written side: `base`, 2·`base` or 4·`base` (R66, R68). -/
def asmSide (base n : Nat) : Option (BitVec 2) :=
  if n = base then some 0 else if n = 2 * base then some 1 else if n = 4 * base then some 2 else none

/-- The `mode` field (R64). -/
def asmMode : MotionMode → BitVec 2
  | .put => 0
  | .wuni => 1
  | .wbi => 2

/-- The `dir` field (R64). -/
def asmDir : EdgeDir → BitVec 1
  | .v => 0
  | .h => 1

/-- The `comp` field (R64). -/
def asmComp : Comp → BitVec 2
  | .y => 0
  | .cb => 1
  | .cr => 2

/-- The `cr` field: only CB and CR may be written (R68). -/
def asmCr : Comp → Option (BitVec 1)
  | .y => none
  | .cb => some 0
  | .cr => some 1

/-- The CLRST mask of the named flags; CABACT may not be named (R68). -/
def asmMask : List Flag → Option (BitVec 4)
  | [] => some 0
  | .cabact :: _ => none
  | .ovr :: fs => (asmMask fs).map (· ||| 0b0001#4)
  | .alignerr :: fs => (asmMask fs).map (· ||| 0b0010#4)
  | .badinit :: fs => (asmMask fs).map (· ||| 0b0100#4)
  | .fault :: fs => (asmMask fs).map (· ||| 0b1000#4)

/-- The command a line of assembly names, if its operands fit (R68; log 14). -/
def assemble : Asm → Option Instr
  | .nop => some .nop
  | .sreset => some .sreset
  | .bsinit => some .bsinit
  | .cabstart => some .cabstart
  | .cabbyp => some .cabbyp
  | .cabterm => some .cabterm
  | .coefclr => some .coefclr
  | .idct4 => some .idct4
  | .idct8 => some .idct8
  | .wrl reg imm => (asmImm16 imm).map (.wrl (regNumber reg))
  | .wrh reg imm => (asmImm16 imm).map (.wrh (regNumber reg))
  | .rdreg reg => some (.rdreg (regNumber reg))
  | .clrst flags => (asmMask flags).map .clrst
  | .rdbits n => (asmField 6 n).map .rdbits
  | .cabinit qp col => do return .cabinit (← asmField 2 col) (← asmField 6 qp)
  | .cabdec ctxIdx => (asmField 10 ctxIdx).map .cabdec
  | .ctxrd ctxIdx => (asmField 10 ctxIdx).map .ctxrd
  | .ctxwr ctxIdx val => do return .ctxwr (← asmField 10 ctxIdx) (← asmField 7 val)
  | .coefwr idx value => do return .coefwr (← asmField 6 idx) (← asmImm16 value)
  | .coefrd idx => (asmField 6 idx).map .coefrd
  | .wswr idx val => do return .wswr (← asmField 6 idx) (← asmField 8 val)
  | .deq4 qp => (asmField 6 qp).map .deq4
  | .deq8 qp => (asmField 6 qp).map .deq8
  | .add4 comp => some (.add4 (asmComp comp))
  | .add8 comp => some (.add8 (asmComp comp))
  | .mcluma ref w h mode => do
      return .mcluma (← asmField 5 ref) (← asmSide 4 w) (← asmSide 4 h) (asmMode mode)
  | .mcchroma comp ref w h mode => do
      return .mcchroma (← asmCr comp) (← asmField 5 ref) (← asmSide 2 w) (← asmSide 2 h) (asmMode mode)
  | .dbkluma dir => some (.dbkluma (asmDir dir))
  | .dbkchroma comp dir => (asmCr comp).map (.dbkchroma · (asmDir dir))
  | .smprd slot comp => (asmField 5 slot).map (.smprd · (asmComp comp))
  | .smpwr slot comp val => do return .smpwr (← asmField 5 slot) (asmComp comp) (← asmField 8 val)

/-- The pseudo-commands (R69). -/
inductive Pseudo where
  | li32 (reg : Reg) (imm : BitVec 32)
  | setpos (x y : Int)
  | setmv (x y : Int)
  | setpic (w h : Int)
  | setbs (b0 b1 b2 b3 : Nat)
  | setw (w0 w1 round shift off : Int)
  deriving DecidableEq, Repr

/-- The expansion of a pseudo-command (R69); LI32 takes CPB_PTR or CPB_END only. -/
def expand : Pseudo → Option (List Asm)
  | .li32 reg imm =>
    if reg = .cpbPtr ∨ reg = .cpbEnd then
      some [.wrl reg (imm.extractLsb' 0 16).toNat, .wrh reg (imm.extractLsb' 16 16).toNat]
    else none
  | .setpos x y => some [.wrl .dstX x, .wrl .dstY y]
  | .setmv x y => some [.wrl .mvX x, .wrl .mvY y]
  | .setpic w h => some [.wrl .picW w, .wrl .picH h]
  | .setbs b0 b1 b2 b3 => some [.wrl .bs (b0 ||| b1 <<< 3 ||| b2 <<< 6 ||| b3 <<< 9 : Nat)]
  | .setw w0 w1 round shift off =>
    some [.wrl .w0 w0, .wrl .w1 w1, .wrl .wround round, .wrl .wshift shift, .wrl .woff off]

end Sys2Proof.Machine
end

