-- ==== Sys2Proof/Safety.lean ====
section
/-! DEFINITION. The terms claims are stated in: the invariants of the machine, the host's pointer contract, what a safe
step is, and the vocabulary of frames. -/

namespace Sys2Proof.Machine

/-! ### Invariants -/

/-- The fetch buffer between commands: `bitcnt` is 0..7 and `zeros` 0..2 (10_state.md R29). -/
def FetchInv (s : State) : Prop := s.bitcnt.toNat ≤ 7 ∧ s.zeros.toNat ≤ 2

/-- The engine's registers while CABACT is 1 (42_cabac.md R112). -/
def EngineInv (s : State) : Prop :=
  flagOn .cabact s = true →
    256 ≤ s.codRange.toNat ∧ s.codRange.toNat ≤ 510 ∧ s.codOffset.toNat < s.codRange.toNat

/-- FAULTCODE is 0 while STATUS.FAULT is 0, and one of the codes 1..7 while it is 1 (10_state.md R25, 60_exceptions.md R181). -/
def FaultInv (s : State) : Prop :=
  (flagOn .fault s = false → s.faultcode = 0) ∧
  (flagOn .fault s = true → 1 ≤ s.faultcode.toNat ∧ s.faultcode.toNat ≤ 7)

/-- The memory spaces are in canonical form and list only elements that exist: CTX entries 0..1023 and CPB bytes below
`CpbSize` (20_memory.md R40). -/
def MemoryInv (P : Params) (s : State) : Prop :=
  (Cells.wf s.ctx ∧ ∀ c ∈ s.ctx, c.1 < 1024) ∧
  (Memory.wf s.cpb ∧ ∀ c ∈ s.cpb, c.1 < P.cpbSize.toNat) ∧
  Memory.wf s.fb

/-- Everything a state between commands satisfies. -/
structure Inv (P : Params) (s : State) : Prop where
  fetch : FetchInv s
  engine : EngineInv s
  record : FaultInv s
  memory : MemoryInv P s

/-! ### Safe steps -/

/-- The host's pointer contract: CPB_END is at most `CpbSize`, as BSINIT checks (20_memory.md R41, 70_reset_and_hazards.md R205). -/
def PointerContract (P : Params) (s : State) : Prop := s.cpbEnd.toNat ≤ P.cpbSize.toNat

/-- The command word is answered: a next state with a response (60_exceptions.md R185). -/
def Answered (w : Word) (s : State) : Prop := ∃ t r, execWord w s = .next t ∧ t.response = some r

/-- A step that does not get stuck. -/
def SafeStep (s : State) : Prop := ∃ t, step s = .next t

/-! ### Frames -/

/-- `t` is `s` but for FB and the response. -/
def SameButFb (s t : State) : Prop := t = { s with fb := t.fb, response := t.response }

/-- `t` is `s` but for COEF and the response. -/
def SameButCoef (s t : State) : Prop := t = { s with coef := t.coef, response := t.response }

/-- `t` is `s` but for the bit cursor: the fetch buffer, CPB_PTR, CPB_END, and OVR, which may have been set. -/
def SameButCursor (s t : State) : Prop :=
  t = { s with bitbuf := t.bitbuf, bitcnt := t.bitcnt, zeros := t.zeros, cpbPtr := t.cpbPtr, cpbEnd := t.cpbEnd,
               status := t.status } ∧
  (t.status = s.status ∨ t.status = s.status ||| 0b00010#5)

/-- Outside the `bw` × `bh` block at (x0, y0) of plane `c` of slot `slot`, every sample of every plane reads as before. -/
def FbSameOutside (slot : BitVec 5) (c : Comp) (x0 y0 bw bh : Nat) (s t : State) : Prop :=
  ∀ slot' c' x y, x < 65536 → y < 65536 →
    ¬ (slot' = slot ∧ c' = c ∧ x0 ≤ x ∧ x < x0 + bw ∧ y0 ≤ y ∧ y < y0 + bh) →
    fbRead t slot' c' x y = fbRead s slot' c' x y

/-- The width and signedness of each register a program can write with WRL (10_state.md R22, R26, R27). -/
def writableShape (n : BitVec 8) : Option (Nat × Bool) :=
  match n.toNat with
  | 0x00 | 0x01 | 0x06 | 0x12 | 0x13 => some (16, false)
  | 0x02 | 0x03 | 0x04 | 0x05 | 0x08 => some (16, true)
  | 0x07 => some (4, false)
  | 0x09 => some (12, false)
  | 0x0A => some (6, false)
  | 0x0B | 0x0C => some (8, true)
  | 0x0D => some (5, false)
  | 0x14 | 0x15 => some (32, false)
  | _ => none

/-- The operand registers 0x00 to 0x0D (10_state.md R22) hold the same in `s` and `t`. -/
def SameOperands (s t : State) : Prop :=
  t.dstX = s.dstX ∧ t.dstY = s.dstY ∧ t.mvX = s.mvX ∧ t.mvY = s.mvY ∧ t.w0 = s.w0 ∧ t.w1 = s.w1 ∧
  t.wround = s.wround ∧ t.wshift = s.wshift ∧ t.woff = s.woff ∧ t.bs = s.bs ∧ t.qpav = s.qpav ∧
  t.foa = s.foa ∧ t.fob = s.fob ∧ t.curSlot = s.curSlot

/-- The assigned opcodes (30_encoding.md R63). -/
def assignedOpcodes : List Nat :=
  [0x00, 0x01, 0x02, 0x03, 0x04, 0x05, 0x10, 0x11, 0x20, 0x21, 0x22, 0x23, 0x24, 0x25, 0x26, 0x30] ++
  [0x31, 0x32, 0x33, 0x34, 0x35, 0x36, 0x37, 0x38, 0x39, 0x40, 0x41, 0x50, 0x51, 0x60, 0x61]

end Sys2Proof.Machine
end

