-- ==== Sys2Proof/Certificates/Slice0/Obligations.lean ====
section
/-! DEFINITION. The statements for the provers: what the rules of spec/ say the commands and the machine do. -/

open Sys2Proof Sys2Proof.Machine

/-! ### Reset and system commands -/

/-- 10_state.md R33: the value of every register, flag and register file after reset. -/
def Obligations.ResetStateHoldsTheListedValues : Prop :=
  (∀ r : Reg, regRead State.reset r = 0) ∧
  (∀ k : Fin 64, State.reset.coef[k] = 0 ∧ State.reset.ws[k] = 16) ∧
  State.reset.status = 0

/-- 40_system.md R80: NOP changes no state at all and answers (0, 0). -/
def Obligations.NopOnlyAnswers : Prop :=
  ∀ s : State, exec .nop s = .next { s with response := some ⟨false, 0⟩ }

/-- 40_system.md R81, 10_state.md R23: WRL to each writable register stores the low bits of the immediate in it, a 32-bit
register's high half becoming 0, and changes nothing else; on an unassigned register (10_state.md R34) and on the read-only
STATUS, FAULTCODE, COD_RANGE, COD_OFFSET and BITBUF it faults E_REG. -/
def Obligations.WrlStoresTheLowBits : Prop :=
  ∀ (s : State) (imm : BitVec 16),
    exec (.wrl 0x00 imm) s = .next { s with dstX := imm, response := some ⟨false, 0⟩ } ∧
    exec (.wrl 0x01 imm) s = .next { s with dstY := imm, response := some ⟨false, 0⟩ } ∧
    exec (.wrl 0x02 imm) s = .next { s with mvX := imm, response := some ⟨false, 0⟩ } ∧
    exec (.wrl 0x03 imm) s = .next { s with mvY := imm, response := some ⟨false, 0⟩ } ∧
    exec (.wrl 0x04 imm) s = .next { s with w0 := imm, response := some ⟨false, 0⟩ } ∧
    exec (.wrl 0x05 imm) s = .next { s with w1 := imm, response := some ⟨false, 0⟩ } ∧
    exec (.wrl 0x06 imm) s = .next { s with wround := imm, response := some ⟨false, 0⟩ } ∧
    exec (.wrl 0x07 imm) s = .next { s with wshift := imm.extractLsb' 0 4, response := some ⟨false, 0⟩ } ∧
    exec (.wrl 0x08 imm) s = .next { s with woff := imm, response := some ⟨false, 0⟩ } ∧
    exec (.wrl 0x09 imm) s = .next { s with bs := imm.extractLsb' 0 12, response := some ⟨false, 0⟩ } ∧
    exec (.wrl 0x0A imm) s = .next { s with qpav := imm.extractLsb' 0 6, response := some ⟨false, 0⟩ } ∧
    exec (.wrl 0x0B imm) s = .next { s with foa := imm.extractLsb' 0 8, response := some ⟨false, 0⟩ } ∧
    exec (.wrl 0x0C imm) s = .next { s with fob := imm.extractLsb' 0 8, response := some ⟨false, 0⟩ } ∧
    exec (.wrl 0x0D imm) s = .next { s with curSlot := imm.extractLsb' 0 5, response := some ⟨false, 0⟩ } ∧
    exec (.wrl 0x12 imm) s = .next { s with picW := imm, response := some ⟨false, 0⟩ } ∧
    exec (.wrl 0x13 imm) s = .next { s with picH := imm, response := some ⟨false, 0⟩ } ∧
    exec (.wrl 0x14 imm) s = .next { s with cpbPtr := 0#16 ++ imm, response := some ⟨false, 0⟩ } ∧
    exec (.wrl 0x15 imm) s = .next { s with cpbEnd := 0#16 ++ imm, response := some ⟨false, 0⟩ } ∧
    ∀ reg : BitVec 8,
      reg = 0x0E ∨ reg = 0x0F ∨ reg = 0x10 ∨ reg = 0x11 ∨ 0x16 ≤ reg.toNat → exec (.wrl reg imm) s = .next (faultRecord .eReg s)

/-- 40_system.md R82: WRH writes the high half of CPB_PTR or CPB_END and keeps the low half; every other register
number faults E_REG (60_exceptions.md R181, R183). -/
def Obligations.WrhWritesTheHighHalf : Prop :=
  ∀ (s : State) (imm : BitVec 16),
    exec (.wrh 0x14 imm) s =
      .next { s with cpbPtr := BitVec.ofNat 32 (imm.toNat * 2 ^ 16 + s.cpbPtr.toNat % 2 ^ 16), response := some ⟨false, 0⟩ } ∧
    exec (.wrh 0x15 imm) s =
      .next { s with cpbEnd := BitVec.ofNat 32 (imm.toNat * 2 ^ 16 + s.cpbEnd.toNat % 2 ^ 16), response := some ⟨false, 0⟩ } ∧
    ∀ reg : BitVec 8, reg ≠ 0x14 → reg ≠ 0x15 → exec (.wrh reg imm) s = .next (faultRecord .eReg s)

/-- 40_system.md R83, 10_state.md R23: RDREG answers the register, sign-extended for an sN register and zero-extended for
a uN one, and BITBUF as zeros, bitcnt, bitbuf joined; it changes nothing else; an unassigned register faults E_REG. -/
def Obligations.RdregAnswersTheExtendedRegister : Prop :=
  ∀ s : State,
    exec (.rdreg 0x00) s = .next { s with response := some ⟨false, BitVec.ofNat 32 s.dstX.toNat⟩ } ∧
    exec (.rdreg 0x01) s = .next { s with response := some ⟨false, BitVec.ofNat 32 s.dstY.toNat⟩ } ∧
    exec (.rdreg 0x02) s = .next { s with response := some ⟨false, BitVec.ofInt 32 s.mvX.toInt⟩ } ∧
    exec (.rdreg 0x03) s = .next { s with response := some ⟨false, BitVec.ofInt 32 s.mvY.toInt⟩ } ∧
    exec (.rdreg 0x04) s = .next { s with response := some ⟨false, BitVec.ofInt 32 s.w0.toInt⟩ } ∧
    exec (.rdreg 0x05) s = .next { s with response := some ⟨false, BitVec.ofInt 32 s.w1.toInt⟩ } ∧
    exec (.rdreg 0x06) s = .next { s with response := some ⟨false, BitVec.ofNat 32 s.wround.toNat⟩ } ∧
    exec (.rdreg 0x07) s = .next { s with response := some ⟨false, BitVec.ofNat 32 s.wshift.toNat⟩ } ∧
    exec (.rdreg 0x08) s = .next { s with response := some ⟨false, BitVec.ofInt 32 s.woff.toInt⟩ } ∧
    exec (.rdreg 0x09) s = .next { s with response := some ⟨false, BitVec.ofNat 32 s.bs.toNat⟩ } ∧
    exec (.rdreg 0x0A) s = .next { s with response := some ⟨false, BitVec.ofNat 32 s.qpav.toNat⟩ } ∧
    exec (.rdreg 0x0B) s = .next { s with response := some ⟨false, BitVec.ofInt 32 s.foa.toInt⟩ } ∧
    exec (.rdreg 0x0C) s = .next { s with response := some ⟨false, BitVec.ofInt 32 s.fob.toInt⟩ } ∧
    exec (.rdreg 0x0D) s = .next { s with response := some ⟨false, BitVec.ofNat 32 s.curSlot.toNat⟩ } ∧
    exec (.rdreg 0x10) s = .next { s with response := some ⟨false, BitVec.ofNat 32 s.status.toNat⟩ } ∧
    exec (.rdreg 0x11) s = .next { s with response := some ⟨false, BitVec.ofNat 32 s.faultcode.toNat⟩ } ∧
    exec (.rdreg 0x12) s = .next { s with response := some ⟨false, BitVec.ofNat 32 s.picW.toNat⟩ } ∧
    exec (.rdreg 0x13) s = .next { s with response := some ⟨false, BitVec.ofNat 32 s.picH.toNat⟩ } ∧
    exec (.rdreg 0x14) s = .next { s with response := some ⟨false, s.cpbPtr⟩ } ∧
    exec (.rdreg 0x15) s = .next { s with response := some ⟨false, s.cpbEnd⟩ } ∧
    exec (.rdreg 0x16) s = .next { s with response := some ⟨false, BitVec.ofNat 32 s.codRange.toNat⟩ } ∧
    exec (.rdreg 0x17) s = .next { s with response := some ⟨false, BitVec.ofNat 32 s.codOffset.toNat⟩ } ∧
    exec (.rdreg 0x18) s = .next { s with response := some ⟨false,
      BitVec.ofNat 32 (s.zeros.toNat * 2 ^ 12 + s.bitcnt.toNat * 2 ^ 8 + s.bitbuf.toNat)⟩ } ∧
    ∀ reg : BitVec 8, reg = 0x0E ∨ reg = 0x0F ∨ 0x19 ≤ reg.toNat → exec (.rdreg reg) s = .next (faultRecord .eReg s)

/-- 10_state.md R23 with 40_system.md R81, R83: reading back a register just written gives the low bits of the written value,
extended by the register's type. -/
def Obligations.RdregAfterWrlReadsTheWrittenBits : Prop :=
  ∀ (s : State) (reg : BitVec 8) (imm : BitVec 16) (width : Nat) (signed : Bool),
    writableShape reg = some (width, signed) →
    ∃ t, exec (.wrl reg imm) s = .next t ∧
      exec (.rdreg reg) t = .next { t with response := some ⟨false,
        if signed then (imm.setWidth width).signExtend 32 else (imm.setWidth width).setWidth 32⟩ }

/-- 40_system.md R84: CLRST clears exactly the selected sticky flags, FAULTCODE when FAULT is selected, and nothing else. -/
def Obligations.ClrstClearsTheSelectedFlags : Prop :=
  ∀ (s : State) (mask : BitVec 4),
    ∃ t, exec (.clrst mask) s = .next t ∧
      t = { s with status := t.status, faultcode := t.faultcode, response := some ⟨false, 0⟩ } ∧
      flagOn .cabact t = flagOn .cabact s ∧
      flagOn .ovr t = (flagOn .ovr s && !mask.getLsbD 0) ∧
      flagOn .alignerr t = (flagOn .alignerr s && !mask.getLsbD 1) ∧
      flagOn .badinit t = (flagOn .badinit s && !mask.getLsbD 2) ∧
      flagOn .fault t = (flagOn .fault s && !mask.getLsbD 3) ∧
      t.faultcode = if mask.getLsbD 3 then 0 else s.faultcode

/-- 40_system.md R85, 10_state.md R33: SRESET puts every register, flag, the fetch buffer, COEF and WS at the reset value,
leaves FB and CPB alone and answers (0, 0). That every CTX entry is a fresh free draw is the model's choice (log 6). -/
def Obligations.SresetResetsAllButTheExternalMemories : Prop :=
  ∀ s : State,
    ∃ t, exec .sreset s = .next t ∧
      (∀ r : Reg, regRead t r = 0) ∧
      (∀ k : Fin 64, t.coef[k] = 0 ∧ t.ws[k] = 16) ∧
      t.cpb = s.cpb ∧ t.fb = s.fb ∧ t.inbox = s.inbox ∧ t.response = some ⟨false, 0⟩ ∧
      ∀ i : BitVec 10, ctxRead t i = Config.ctxDraw (s.ctxEpoch + 1) i.toNat

/-- 30_encoding.md R69 with 40_system.md R81, R82: the two commands LI32 expands to leave the 32-bit value in the pointer. -/
def Obligations.Li32LoadsThePointer : Prop :=
  ∀ (s : State) (imm : BitVec 32),
    ∃ a b, (expand (.li32 .cpbEnd imm)).map (·.map assemble) = some [some a, some b] ∧
      ∃ t u, exec a s = .next t ∧ exec b t = .next u ∧
        u = { s with cpbEnd := imm, response := some ⟨false, 0⟩ }

/-! ### Bitstream unit -/

/-- 41_bitstream.md R90: BSINIT empties the fetch buffer and clears CABACT when CPB_PTR ≤ CPB_END ≤ CpbSize, and faults
E_CPB otherwise; the sticky flags and the pointers stay. -/
def Obligations.BsinitAttachesOrFaults : Prop :=
  ∀ s : State,
    (s.cpbPtr.toNat ≤ s.cpbEnd.toNat ∧ s.cpbEnd.toNat ≤ Config.params.cpbSize.toNat →
      exec .bsinit s = .next { s with bitbuf := 0, bitcnt := 0, zeros := 0, status := s.status &&& 0b11110#5,
                                      response := some ⟨false, 0⟩ }) ∧
    (¬ (s.cpbPtr.toNat ≤ s.cpbEnd.toNat ∧ s.cpbEnd.toNat ≤ Config.params.cpbSize.toNat) →
      exec .bsinit s = .next (faultRecord .eCpb s))

/-- 20_memory.md R46: one turn of `fetch_byte()`, for every CpbSize and every state whose CPB_END is at most CpbSize. -/
def Obligations.FetchByteFollowsItsPseudocode : Prop :=
  ∀ (P : Params) (s : State), PointerContract P s →
    fetchByte P s =
      if s.cpbPtr.toNat + 2 < s.cpbEnd.toNat ∧ cpbByte s s.cpbPtr.toNat = 0x00 ∧
          cpbByte s (s.cpbPtr.toNat + 1) = 0x00 ∧ (cpbByte s (s.cpbPtr.toNat + 2)).toNat ≤ 0x01 then
        .ok (0x00, { s with cpbEnd := s.cpbPtr, status := s.status ||| 0b00010#5 })
      else if s.cpbPtr.toNat ≥ s.cpbEnd.toNat then
        .ok (0x00, { s with status := s.status ||| 0b00010#5 })
      else if s.zeros = 2 ∧ cpbByte s s.cpbPtr.toNat = 0x03 then
        fetchByte P { s with cpbPtr := s.cpbPtr + 1, zeros := 0 }
      else
        .ok (cpbByte s s.cpbPtr.toNat,
          { s with cpbPtr := s.cpbPtr + 1,
                   zeros := if cpbByte s s.cpbPtr.toNat = 0x00 then BitVec.ofNat 2 (min (s.zeros.toNat + 1) 2) else 0 })

/-- 20_memory.md R41, 93_implementation_defined.md U2: a byte below CPB_END but at or past CpbSize cannot be fetched, whether it is the
byte to deliver, one the look-ahead of R46 needs, or the one after a deleted 03; and every bit-consuming command is stuck when the
bit it needs after some `k` bits needs such a byte. The named stop is the model's form of the spec's 'stuck', and which look-ahead
bytes are needed its reading of R46 (log 4). On this hardware `P` is `Config.params`. -/
def Obligations.FetchPastCpbSizeIsStuck : Prop :=
  ∀ (P : Params) (s : State),
    (s.cpbPtr.toNat < s.cpbEnd.toNat → P.cpbSize.toNat ≤ s.cpbPtr.toNat → fetchByte P s = .error .cpbFetchOutside) ∧
    (s.cpbPtr.toNat + 2 < s.cpbEnd.toNat → cpbByte s s.cpbPtr.toNat = 0x00 →
      (P.cpbSize.toNat = s.cpbPtr.toNat + 1 ∨
        cpbByte s (s.cpbPtr.toNat + 1) = 0x00 ∧ P.cpbSize.toNat = s.cpbPtr.toNat + 2) →
      fetchByte P s = .error .cpbFetchOutside) ∧
    (s.cpbPtr.toNat < s.cpbEnd.toNat → s.cpbPtr.toNat < P.cpbSize.toNat → s.zeros = 2 → cpbByte s s.cpbPtr.toNat = 0x03 →
      fetchByte P s = fetchByte P { s with cpbPtr := s.cpbPtr + 1, zeros := 0 }) ∧
    ∀ (k v : Nat) (t : State), readBits P k s = .ok (v, t) → t.bitcnt = 0 → fetchByte P t = .error .cpbFetchOutside →
      readBit P t = .error .cpbFetchOutside ∧
      (∀ n : BitVec 6, k < n.toNat → n.toNat ≤ 32 → flagOn .cabact s = false → rdbits P n s = .fault .cpbFetchOutside) ∧
      (k < s.bitcnt.toNat + 9 → cabstart P s = .fault .cpbFetchOutside) ∧
      (flagOn .cabact s = true →
        (∀ i : BitVec 10,
          let lps := rangeTabLPS ((ctxRead s i).extractLsb' 1 6) (s.codRange.extractLsb' 6 2)
          let range := if s.codOffset.toNat < s.codRange.toNat - lps then s.codRange.toNat - lps else lps
          k < 7 → range * 2 ^ k < 256 → cabdec P i s = .fault .cpbFetchOutside) ∧
        (k = 0 → cabbyp P s = .fault .cpbFetchOutside) ∧
        (k < 7 → s.codOffset.toNat < s.codRange.toNat - 2 → (s.codRange.toNat - 2) * 2 ^ k < 256 →
          cabterm P s = .fault .cpbFetchOutside))

/-- 41_bitstream.md R91 with 20_memory.md R47: RDBITS n, n = 1..32, on an idle engine answers the next n bits; only the bit
cursor and OVR may change. Outside 1..32 it faults E_OPERAND, and else E_STATE while the engine is active. -/
def Obligations.RdbitsAnswersTheNextBits : Prop :=
  ∀ (s : State) (n : BitVec 6),
    (1 ≤ n.toNat → n.toNat ≤ 32 → flagOn .cabact s = false → PointerContract Config.params s →
      ∃ v t, readBits Config.params n.toNat s = .ok (v, t) ∧ v < 2 ^ n.toNat ∧ SameButCursor s t ∧
        exec (.rdbits n) s = .next { t with response := some ⟨false, BitVec.ofNat 32 v⟩ }) ∧
    (n.toNat = 0 ∨ 32 < n.toNat → exec (.rdbits n) s = .next (faultRecord .eOperand s)) ∧
    (1 ≤ n.toNat → n.toNat ≤ 32 → flagOn .cabact s = true → exec (.rdbits n) s = .next (faultRecord .eState s))

/-- 20_memory.md R45, R47: `read_bit()` takes bit 7 of the buffered byte, of a freshly fetched one when the buffer is empty (and is stuck
when that fetch is); `read_bits(0)` is 0 and changes nothing, `read_bits(1)` is one bit, and `read_bits(m + n)` is `read_bits(m)` then
`read_bits(n)`, the first bits the most significant: so a read may cross any number of bytes. Inside the buffered byte
`read_bits(n)` is its highest n bits. -/
def Obligations.ReadBitsTakesTheHighBitsOfTheBuffer : Prop :=
  ∀ (P : Params) (s : State),
    (s.bitcnt ≠ 0 → readBit P s = .ok (s.bitbuf.getLsbD 7, { s with bitbuf := s.bitbuf <<< 1, bitcnt := s.bitcnt - 1 })) ∧
    (∀ b t, s.bitcnt = 0 → fetchByte P s = .ok (b, t) →
      readBit P s = .ok (b.getLsbD 7, { t with bitbuf := b <<< 1, bitcnt := 7 })) ∧
    (∀ f, s.bitcnt = 0 → fetchByte P s = .error f → readBit P s = .error f) ∧
    readBits P 0 s = .ok (0, s) ∧
    readBits P 1 s = (readBit P s).map (fun r => (r.1.toNat, r.2)) ∧
    (∀ m n v t, readBits P m s = .ok (v, t) →
      readBits P (m + n) s = (readBits P n t).map (fun r => (v * 2 ^ n + r.1, r.2))) ∧
    (∀ m n f, readBits P m s = .error f → readBits P (m + n) s = .error f) ∧
    ∀ n : Nat, n ≤ s.bitcnt.toNat → s.bitcnt.toNat ≤ 8 →
      readBits P n s = .ok (s.bitbuf.toNat / 2 ^ (8 - n),
        { s with bitbuf := s.bitbuf <<< n, bitcnt := BitVec.ofNat 4 (s.bitcnt.toNat - n) })

/-- 20_memory.md R46, R47, 41_bitstream.md R91: with the cursor on a byte boundary and the engine idle, RDBITS of 1 to 8 bits answers the
highest bits of the byte `fetch_byte()` delivers and leaves the rest in the buffer; eight bits are exactly that byte. -/
def Obligations.RdbitsEightAnswersTheFetchedByte : Prop :=
  ∀ (P : Params) (s t : State) (b : Byte) (n : BitVec 6),
    s.bitcnt = 0 → flagOn .cabact s = false → fetchByte P s = .ok (b, t) →
    (1 ≤ n.toNat → n.toNat ≤ 8 →
      rdbits P n s = .next { t with bitbuf := b <<< n.toNat, bitcnt := BitVec.ofNat 4 (8 - n.toNat),
                                    response := some ⟨false, BitVec.ofNat 32 (b.toNat / 2 ^ (8 - n.toNat))⟩ }) ∧
    rdbits P 8 s = .next { t with bitbuf := 0, bitcnt := 0, response := some ⟨false, b.setWidth 32⟩ }

/-! ### CABAC unit -/

/-- 42_cabac.md R103 with R102: the 256-entry transition table, as its pseudocode gives it. -/
def Obligations.TransTabFollowsTheStateTables : Prop :=
  ∀ (p : BitVec 6) (v : BitVec 1),
    transTab (1#1 ++ (p ++ v)) = (if p.toNat ≤ 61 then BitVec.ofNat 6 (p.toNat + 1) else p) ++ v ∧
    transTab (0#1 ++ (p ++ v)) = transIdxLPS p ++ (if p = 0 then v ^^^ 1#1 else v)

/-- 42_cabac.md R104: from 2 ≤ range < 512, `renorm` shifts at most 7 times and just enough, reading one bit per shift. -/
def Obligations.RenormShiftsJustEnough : Prop :=
  ∀ (P : Params) (s : State) (range offset : Nat),
    2 ≤ range → range < 512 → PointerContract P s →
    ∃ k v t, k ≤ 7 ∧ readBits P k s = .ok (v, t) ∧ v < 2 ^ k ∧
      renorm P range offset s = .ok (range * 2 ^ k, offset * 2 ^ k + v, t) ∧
      256 ≤ range * 2 ^ k ∧ range * 2 ^ k < 512 ∧ (k ≠ 0 → range * 2 ^ (k - 1) < 256)

/-- 42_cabac.md R105: CABSTART consumes the rest of the byte, sets range 510 and offset the next nine bits, activates the engine
unless the offset is 510 or 511, and answers bit 0 = alignment error, bit 1 = illegal offset. -/
def Obligations.CabstartInitialisesTheEngine : Prop :=
  ∀ s : State, PointerContract Config.params s →
    ∃ a s1 off s2 t, readBits Config.params s.bitcnt.toNat s = .ok (a, s1) ∧
      readBits Config.params 9 s1 = .ok (off, s2) ∧ SameButCursor s s2 ∧
      exec .cabstart s = .next t ∧
      t = { s2 with codRange := 510, codOffset := BitVec.ofNat 9 off, status := t.status, response := t.response } ∧
      flagOn .cabact t = decide (off < 510) ∧
      flagOn .badinit t = (flagOn .badinit s || decide (510 ≤ off)) ∧
      flagOn .alignerr t = (flagOn .alignerr s || decide (a ≠ 2 ^ s.bitcnt.toNat - 1)) ∧
      flagOn .ovr t = flagOn .ovr s2 ∧ flagOn .fault t = flagOn .fault s ∧
      t.response = some ⟨false, BitVec.ofNat 32
        ((if 510 ≤ off then 2 else 0) + (if a ≠ 2 ^ s.bitcnt.toNat - 1 then 1 else 0))⟩

/-- 42_cabac.md R106: CABINIT with qp ≤ 51 writes all 1024 contexts by the source's formula (floor division by 16, clip to
1..126, packing) and nothing else; qp 52..63 faults E_OPERAND. -/
def Obligations.CabinitWritesEveryContext : Prop :=
  ∀ (s : State) (col : BitVec 2) (qp : BitVec 6),
    (qp.toNat ≤ 51 →
      ∃ t, exec (.cabinit col qp) s = .next t ∧
        t = { s with ctx := t.ctx, response := some ⟨false, 0⟩ } ∧
        ∀ i : BitVec 10,
          let mn := Config.params.ctxInitMN col i
          let pre := max 1 (min 126 (mn.1.toInt * qp.toNat / 16 + mn.2.toInt))
          ((ctxRead t i).toNat : Int) = if pre ≤ 63 then 2 * (63 - pre) else 2 * (pre - 64) + 1) ∧
    (51 < qp.toNat → exec (.cabinit col qp) s = .next (faultRecord .eOperand s))

/-- 42_cabac.md R107: CABDEC of an active engine decides the bin by comparing the offset with range − lps, moves the context
by the transition table, renormalises, and changes nothing but that context, the engine registers and the bit cursor. -/
def Obligations.CabdecDecodesOneBin : Prop :=
  ∀ (s : State) (i : BitVec 10),
    flagOn .cabact s = true → EngineInv s → PointerContract Config.params s →
    ∃ range offset u t,
      let c := ctxRead s i
      let lps := rangeTabLPS (c.extractLsb' 1 6) (s.codRange.extractLsb' 6 2)
      let mps := decide (s.codOffset.toNat < s.codRange.toNat - lps)
      renorm Config.params (if mps then s.codRange.toNat - lps else lps)
        (if mps then s.codOffset.toNat else s.codOffset.toNat - (s.codRange.toNat - lps)) s = .ok (range, offset, u) ∧
      SameButCursor s u ∧
      exec (.cabdec i) s = .next t ∧
      t = { u with codRange := BitVec.ofNat 9 range, codOffset := BitVec.ofNat 9 offset, ctx := t.ctx,
                   response := some ⟨false, BitVec.ofNat 32
                     (if mps then (c.extractLsb' 0 1).toNat else 1 - (c.extractLsb' 0 1).toNat)⟩ } ∧
      ctxRead t i = transTab (BitVec.ofBool mps ++ c) ∧
      ∀ j : BitVec 10, j ≠ i → ctxRead t j = ctxRead s j

/-- 42_cabac.md R108: CABBYP of an active engine doubles the offset, adds one bit and subtracts the range if it can; COD_RANGE
and CTX stay. -/
def Obligations.CabbypDecodesOneBypassBin : Prop :=
  ∀ s : State, flagOn .cabact s = true → EngineInv s → PointerContract Config.params s →
    ∃ b u, readBit Config.params s = .ok (b, u) ∧ SameButCursor s u ∧
      let offset := 2 * s.codOffset.toNat + (if b then 1 else 0)
      let bin := decide (s.codRange.toNat ≤ offset)
      exec .cabbyp s = .next { u with
        codOffset := BitVec.ofNat 9 (if bin then offset - s.codRange.toNat else offset)
        response := some ⟨false, if bin then 1 else 0⟩ }

/-- 42_cabac.md R109: CABTERM of an active engine: at the end it answers 1, stops the engine and consumes no bit; otherwise
it renormalises range − 2 and answers 0. -/
def Obligations.CabtermTestsForTheEnd : Prop :=
  ∀ s : State, flagOn .cabact s = true → EngineInv s → PointerContract Config.params s →
    (s.codRange.toNat - 2 ≤ s.codOffset.toNat →
      exec .cabterm s = .next { s with codRange := BitVec.ofNat 9 (s.codRange.toNat - 2),
                                       status := s.status &&& 0b11110#5, response := some ⟨false, 1⟩ }) ∧
    (s.codOffset.toNat < s.codRange.toNat - 2 →
      ∃ range offset u, renorm Config.params (s.codRange.toNat - 2) s.codOffset.toNat s = .ok (range, offset, u) ∧
        SameButCursor s u ∧
        exec .cabterm s = .next { u with codRange := BitVec.ofNat 9 range, codOffset := BitVec.ofNat 9 offset,
                                         response := some ⟨false, 0⟩ })

/-- 10_state.md R35, 60_exceptions.md R181: CABDEC, CABBYP and CABTERM fault E_STATE while the engine is idle. -/
def Obligations.IdleEngineRefusesBins : Prop :=
  ∀ (s : State) (i : BitVec 10), flagOn .cabact s = false →
    exec (.cabdec i) s = .next (faultRecord .eState s) ∧
    exec .cabbyp s = .next (faultRecord .eState s) ∧
    exec .cabterm s = .next (faultRecord .eState s)

/-- 42_cabac.md R110, R111: CTXWR writes exactly one context and CTXRD answers one, in any engine state. -/
def Obligations.CtxwrAndCtxrdReachOneContext : Prop :=
  ∀ (s : State) (i : BitVec 10) (val : BitVec 7),
    (∃ t, exec (.ctxwr i val) s = .next t ∧ t = { s with ctx := t.ctx, response := some ⟨false, 0⟩ } ∧
      ctxRead t i = val ∧ ∀ j : BitVec 10, j ≠ i → ctxRead t j = ctxRead s j) ∧
    exec (.ctxrd i) s = .next { s with response := some ⟨false, BitVec.ofNat 32 (ctxRead s i).toNat⟩ }

/-! ### Transform unit -/

/-- 43_transform.md R121, R122, R123, R124: COEFWR stores the sign-extended value in one entry, COEFRD answers one entry, COEFCLR
zeroes all, WSWR stores one weight; nothing else changes. -/
def Obligations.CoefficientAndWeightAccess : Prop :=
  ∀ (s : State) (idx : BitVec 6) (imm : BitVec 16) (val : BitVec 8),
    (∃ t, exec (.coefwr idx imm) s = .next t ∧ SameButCoef s t ∧ t.response = some ⟨false, 0⟩ ∧
      ∀ k : Fin 64, t.coef[k].toInt = if k.val = idx.toNat then imm.toInt else s.coef[k].toInt) ∧
    exec (.coefrd idx) s = .next { s with response := some ⟨false, s.coef[idx.toNat]'idx.isLt⟩ } ∧
    (∃ t, exec .coefclr s = .next t ∧ SameButCoef s t ∧ t.response = some ⟨false, 0⟩ ∧ ∀ k : Fin 64, t.coef[k] = 0) ∧
    (∃ t, exec (.wswr idx val) s = .next t ∧ t = { s with ws := t.ws, response := some ⟨false, 0⟩ } ∧
      ∀ k : Fin 64, t.ws[k] = if k.val = idx.toNat then val else s.ws[k])

/-- 43_transform.md R126, R127: the dequantised coefficients as the rules' integer formulas with `wrap32` at every step; DEQ4
changes entries 0..15 only; qp 52..63 faults E_OPERAND. -/
def Obligations.DequantisationFollowsTheFormula : Prop :=
  ∀ (s : State) (qp : BitVec 6),
    (qp.toNat ≤ 51 →
      (∃ t, exec (.deq4 qp) s = .next t ∧ SameButCoef s t ∧ t.response = some ⟨false, 0⟩ ∧
        ∀ k : Fin 64, t.coef[k].toInt =
          if k.val < 16 then
            wrap32 (wrap32 (wrap32 (s.coef[k].toInt * (s.ws[k].toNat * normAdjust4x4 (qp.toNat % 6) (k.val / 4) (k.val % 4)))
              * 2 ^ (qp.toNat / 6)) + (if Config.params.deqRound then 8 else 0)) / 2 ^ 4
          else s.coef[k].toInt) ∧
      (∃ t, exec (.deq8 qp) s = .next t ∧ SameButCoef s t ∧ t.response = some ⟨false, 0⟩ ∧
        ∀ k : Fin 64, t.coef[k].toInt =
          wrap32 (wrap32 (wrap32 (s.coef[k].toInt * (s.ws[k].toNat * normAdjust8x8 (qp.toNat % 6) (k.val / 8) (k.val % 8)))
            * 2 ^ (qp.toNat / 6)) + (if Config.params.deqRound then 32 else 0)) / 2 ^ 6)) ∧
    (51 < qp.toNat →
      exec (.deq4 qp) s = .next (faultRecord .eOperand s) ∧ exec (.deq8 qp) s = .next (faultRecord .eOperand s))

/-- 43_transform.md R126: with qp ≥ 24 the two settings of DeqRound give the same DEQ4 result, for any weights and coefficients. -/
def Obligations.DeqRoundIsInvisibleFromQp24 : Prop :=
  ∀ (s : State) (qp k : Nat), 24 ≤ qp → qp ≤ 51 → k < 16 → deq4Coef true qp s k = deq4Coef false qp s k

/-- 43_transform.md R128, R129: IDCT4 applies the 4-point butterfly to each row and then to each column of entries 0..15, rounds
by (x + 32) >> 6 in 32-bit wrapping arithmetic, and changes nothing else. -/
def Obligations.Idct4TransformsRowsThenColumns : Prop :=
  ∀ s : State, ∃ t, exec .idct4 s = .next t ∧ SameButCoef s t ∧ t.response = some ⟨false, 0⟩ ∧
    ∃ f h : Nat → Nat → BitVec 32,
      (∀ i < 4,
        let d := fun j => coefAt s.coef (4 * i + j)
        f i 0 = (d 0 + d 2) + (d 1 + (d 3).sshiftRight 1) ∧
        f i 1 = (d 0 - d 2) + ((d 1).sshiftRight 1 - d 3) ∧
        f i 2 = (d 0 - d 2) - ((d 1).sshiftRight 1 - d 3) ∧
        f i 3 = (d 0 + d 2) - (d 1 + (d 3).sshiftRight 1)) ∧
      (∀ j < 4,
        h 0 j = (f 0 j + f 2 j) + (f 1 j + (f 3 j).sshiftRight 1) ∧
        h 1 j = (f 0 j - f 2 j) + ((f 1 j).sshiftRight 1 - f 3 j) ∧
        h 2 j = (f 0 j - f 2 j) - ((f 1 j).sshiftRight 1 - f 3 j) ∧
        h 3 j = (f 0 j + f 2 j) - (f 1 j + (f 3 j).sshiftRight 1)) ∧
      (∀ i < 4, ∀ j < 4, coefAt t.coef (4 * i + j) = (h i j + 32).sshiftRight 6) ∧
      ∀ k, 16 ≤ k → coefAt t.coef k = coefAt s.coef k

/-- 43_transform.md R131 with R130: IDCT8 applies the 8-point butterfly, written out here as R130 has it, to each row and then to each
column, rounds by (x + 32) >> 6 in 32-bit wrapping arithmetic, and changes nothing but COEF. -/
def Obligations.Idct8TransformsRowsThenColumns : Prop :=
  ∀ s : State, ∃ t, exec .idct8 s = .next t ∧ SameButCoef s t ∧ t.response = some ⟨false, 0⟩ ∧
    let butterfly := fun d r : Nat → BitVec 32 =>
      let a0 := d 0 + d 4
      let a2 := d 0 - d 4
      let a4 := (d 2).sshiftRight 1 - d 6
      let a6 := d 2 + (d 6).sshiftRight 1
      let a1 := -(d 3) + d 5 - d 7 - (d 7).sshiftRight 1
      let a3 := d 1 + d 7 - d 3 - (d 3).sshiftRight 1
      let a5 := -(d 1) + d 7 + d 5 + (d 5).sshiftRight 1
      let a7 := d 3 + d 5 + d 1 + (d 1).sshiftRight 1
      let b0 := a0 + a6
      let b2 := a2 + a4
      let b4 := a2 - a4
      let b6 := a0 - a6
      let b1 := a1 + a7.sshiftRight 2
      let b3 := a3 + a5.sshiftRight 2
      let b5 := a3.sshiftRight 2 - a5
      let b7 := a7 - a1.sshiftRight 2
      r 0 = b0 + b7 ∧ r 1 = b2 + b5 ∧ r 2 = b4 + b3 ∧ r 3 = b6 + b1 ∧
      r 4 = b6 - b1 ∧ r 5 = b4 - b3 ∧ r 6 = b2 - b5 ∧ r 7 = b0 - b7
    ∃ g m : Nat → Nat → BitVec 32,
      (∀ i < 8, butterfly (fun k => coefAt s.coef (8 * i + k)) (g i)) ∧
      (∀ j < 8, butterfly (fun k => g k j) (fun i => m i j)) ∧
      ∀ i < 8, ∀ j < 8, coefAt t.coef (8 * i + j) = (m i j + 32).sshiftRight 6

/-- 43_transform.md R129, R131: a block with only COEF[0] = c transforms to (c + 32) >> 6 everywhere, for every s32 value c. -/
def Obligations.DcOnlyBlockBecomesFlat : Prop :=
  ∀ (s : State) (c : BitVec 32),
    ((∀ k, 1 ≤ k → k < 16 → coefAt s.coef k = 0) → coefAt s.coef 0 = c →
      ∃ t, exec .idct4 s = .next t ∧ ∀ k < 16, coefAt t.coef k = (c + 32).sshiftRight 6) ∧
    ((∀ k, 1 ≤ k → k < 64 → coefAt s.coef k = 0) → coefAt s.coef 0 = c →
      ∃ t, exec .idct8 s = .next t ∧ ∀ k < 64, coefAt t.coef k = (c + 32).sshiftRight 6)

/-- 43_transform.md R132, R133: on a legal picture with the block inside plane `c`, ADD4 (n = 4) and ADD8 (n = 8) add the
residual to each sample of the block with wrap32 and Clip1, and change no other sample and nothing else. -/
def Obligations.AddReconstructsTheBlock : Prop :=
  ∀ (s : State) (comp : BitVec 2) (c : Comp), compOfField comp = some c → pictureLegal Config.params s = true →
    ∀ n i, (n = 4 ∧ i = Instr.add4 comp ∨ n = 8 ∧ i = Instr.add8 comp) →
      s.dstX.toNat + n ≤ planeWidth s c → s.dstY.toNat + n ≤ planeHeight s c →
      ∃ t, exec i s = .next t ∧ SameButFb s t ∧ t.response = some ⟨false, 0⟩ ∧
        (∀ x < n, ∀ y < n,
          ((fbRead t s.curSlot c (s.dstX.toNat + x) (s.dstY.toNat + y)).toNat : Int) =
            clip1 (wrap32 ((fbRead s s.curSlot c (s.dstX.toNat + x) (s.dstY.toNat + y)).toNat
              + (coefAt s.coef (n * y + x)).toInt))) ∧
        FbSameOutside s.curSlot c s.dstX.toNat s.dstY.toNat n n s t

/-! ### Interpolation unit and frame-store port -/

/-- 44_interp.md R142: the six-tap sums, their half samples, the bounds of the sums on 8-bit samples, and that J1 may
equally be formed from H1 horizontally. -/
def Obligations.SixTapSumsAreBounded : Prop :=
  ∀ R : Int → Int → Int, (∀ x y, 0 ≤ R x y ∧ R x y ≤ 255) → ∀ x y,
    sumB1 R x y = R (x - 2) y - 5 * R (x - 1) y + 20 * R x y + 20 * R (x + 1) y - 5 * R (x + 2) y + R (x + 3) y ∧
    sumH1 R x y = R x (y - 2) - 5 * R x (y - 1) + 20 * R x y + 20 * R x (y + 1) - 5 * R x (y + 2) + R x (y + 3) ∧
    sumJ1 R x y = sumB1 R x (y - 2) - 5 * sumB1 R x (y - 1) + 20 * sumB1 R x y + 20 * sumB1 R x (y + 1)
      - 5 * sumB1 R x (y + 2) + sumB1 R x (y + 3) ∧
    sumJ1 R x y = sumH1 R (x - 2) y - 5 * sumH1 R (x - 1) y + 20 * sumH1 R x y + 20 * sumH1 R (x + 1) y
      - 5 * sumH1 R (x + 2) y + sumH1 R (x + 3) y ∧
    halfB R x y = clip1 ((sumB1 R x y + 16) / 32) ∧ halfH R x y = clip1 ((sumH1 R x y + 16) / 32) ∧
    halfJ R x y = clip1 ((sumJ1 R x y + 512) / 1024) ∧
    -2550 ≤ sumB1 R x y ∧ sumB1 R x y ≤ 10710 ∧ -2550 ≤ sumH1 R x y ∧ sumH1 R x y ≤ 10710 ∧
    -214200 ≤ sumJ1 R x y ∧ sumJ1 R x y ≤ 475320

/-- 44_interp.md R143: the 4 × 4 phase table, entry by entry, each in 0..255 on 8-bit samples. -/
def Obligations.LumaSampleFollowsThePhaseTable : Prop :=
  ∀ R : Int → Int → Int, (∀ x y, 0 ≤ R x y ∧ R x y ≤ 255) → ∀ x y,
    let L := lumaSample R x y
    let b := halfB R x y
    let h := halfH R x y
    let j := halfJ R x y
    let m := halfH R (x + 1) y
    let s := halfB R x (y + 1)
    let av := fun u v : Int => (u + v + 1) / 2
    (L 0 0 = R x y ∧ L 1 0 = av (R x y) b ∧ L 2 0 = b ∧ L 3 0 = av (R (x + 1) y) b) ∧
    (L 0 1 = av (R x y) h ∧ L 1 1 = av b h ∧ L 2 1 = av b j ∧ L 3 1 = av b m) ∧
    (L 0 2 = h ∧ L 1 2 = av h j ∧ L 2 2 = j ∧ L 3 2 = av j m) ∧
    (L 0 3 = av (R x (y + 1)) h ∧ L 1 3 = av h s ∧ L 2 3 = av j s ∧ L 3 3 = av m s) ∧
    ∀ xF yF, xF < 4 → yF < 4 → 0 ≤ L xF yF ∧ L xF yF ≤ 255

/-- 44_interp.md R144: bilinear chroma interpolation, in 0..255 without clipping, and the sample itself at fraction (0, 0). -/
def Obligations.ChromaSampleIsTheBilinearMean : Prop :=
  ∀ R : Int → Int → Int, (∀ x y, 0 ≤ R x y ∧ R x y ≤ 255) → ∀ (x y : Int) (xF yF : Nat), xF < 8 → yF < 8 →
    chromaSample R x y xF yF = ((8 - xF) * (8 - yF) * R x y + xF * (8 - yF) * R (x + 1) y
      + (8 - xF) * yF * R x (y + 1) + xF * yF * R (x + 1) (y + 1) + 32) / 64 ∧
    0 ≤ chromaSample R x y xF yF ∧ chromaSample R x y xF yF ≤ 255 ∧ chromaSample R x y 0 0 = R x y

/-- 44_interp.md R145: the weighted combinations on 8-bit samples; nothing wraps; W0 = W1 = WROUND = WSHIFT = 1, WOFF = 0 gives
the default average (d + p + 1) >> 1. -/
def Obligations.CombineNeverWraps : Prop :=
  ∀ (s : State) (d p : Int), 0 ≤ d → d ≤ 255 → 0 ≤ p → p ≤ 255 →
    combine s 0 d p = p ∧
    combine s 1 d p =
      clip1 ((s.w0.toInt * p + s.wround.toNat) / 2 ^ s.wshift.toNat + s.woff.toInt) ∧
    combine s 2 d p =
      clip1 ((s.w0.toInt * d + s.w1.toInt * p + s.wround.toNat) / 2 ^ s.wshift.toNat + s.woff.toInt) ∧
    (s.w0 = 1 → s.w1 = 1 → s.wround = 1 → s.wshift = 1 → s.woff = 0 → combine s 2 d p = (d + p + 1) / 2)

/-- 20_memory.md R44: reference reads are clamped to the plane, whatever the coordinates. -/
def Obligations.ReferenceReadsAreClamped : Prop :=
  ∀ (s : State) (slot : BitVec 5) (c : Comp) (x y : Int), 1 ≤ planeWidth s c → 1 ≤ planeHeight s c →
    ∃ x' y', x' < planeWidth s c ∧ y' < planeHeight s c ∧
      refSample s slot c x y = (fbRead s slot c x' y').toNat ∧
      (x < 0 → x' = 0) ∧ (0 ≤ x → x < planeWidth s c → (x' : Int) = x) ∧ (planeWidth s c ≤ x → x' + 1 = planeWidth s c) ∧
      (y < 0 → y' = 0) ∧ (0 ≤ y → y < planeHeight s c → (y' : Int) = y) ∧ (planeHeight s c ≤ y → y' + 1 = planeHeight s c)

/-- 44_interp.md R146, R147 with R140, R141, R145: on a legal picture with the block inside the plane, MCLUMA and MCCHROMA write to
each sample of the block of slot CUR_SLOT the combination of its old value with the interpolated reference sample, all
taken of the state before the command, and change no other sample and nothing else. -/
def Obligations.MotionCompensationPredictsTheBlock : Prop :=
  ∀ (s : State) (ref : BitVec 5) (wc hc mode : BitVec 2) (cr : BitVec 1), wc ≠ 3 → hc ≠ 3 → mode ≠ 3 →
    pictureLegal Config.params s = true →
    ∀ (c : Comp) (unit : Nat) (i : Instr),
      (c = .y ∧ unit = 4 ∧ i = .mcluma ref wc hc mode ∨
        c = (if cr = 0 then .cb else .cr) ∧ unit = 2 ∧ i = .mcchroma cr ref wc hc mode) →
      let bw := unit * 2 ^ wc.toNat
      let bh := unit * 2 ^ hc.toNat
      s.dstX.toNat + bw ≤ planeWidth s c → s.dstY.toNat + bh ≤ planeHeight s c →
      ∃ t, exec i s = .next t ∧ SameButFb s t ∧ t.response = some ⟨false, 0⟩ ∧
        (∀ x < bw, ∀ y < bh,
          let px : Int := s.dstX.toNat + x
          let py : Int := s.dstY.toNat + y
          let p := if c = .y then
              lumaSample (refSample s ref c) (px + s.mvX.toInt / 4) (py + s.mvY.toInt / 4)
                (s.mvX.toInt % 4).toNat (s.mvY.toInt % 4).toNat
            else
              chromaSample (refSample s ref c) (px + s.mvX.toInt / 8) (py + s.mvY.toInt / 8)
                (s.mvX.toInt % 8).toNat (s.mvY.toInt % 8).toNat
          ((fbRead t s.curSlot c (s.dstX.toNat + x) (s.dstY.toNat + y)).toNat : Int) =
            combine s mode (fbRead s s.curSlot c (s.dstX.toNat + x) (s.dstY.toNat + y)).toNat p) ∧
        FbSameOutside s.curSlot c s.dstX.toNat s.dstY.toNat bw bh s t

/-- 44_interp.md R150: with MV_X = MV_Y = 0 and mode PUT, MCLUMA and MCCHROMA copy the collocated block. -/
def Obligations.ZeroVectorCopiesTheBlock : Prop :=
  ∀ (s : State) (ref : BitVec 5) (wc hc : BitVec 2) (cr : BitVec 1), wc ≠ 3 → hc ≠ 3 → s.mvX = 0 → s.mvY = 0 →
    pictureLegal Config.params s = true →
    ∀ (c : Comp) (unit : Nat) (i : Instr),
      (c = .y ∧ unit = 4 ∧ i = .mcluma ref wc hc 0 ∨
        c = (if cr = 0 then .cb else .cr) ∧ unit = 2 ∧ i = .mcchroma cr ref wc hc 0) →
      s.dstX.toNat + unit * 2 ^ wc.toNat ≤ planeWidth s c → s.dstY.toNat + unit * 2 ^ hc.toNat ≤ planeHeight s c →
      ∃ t, exec i s = .next t ∧
        ∀ x < unit * 2 ^ wc.toNat, ∀ y < unit * 2 ^ hc.toNat,
          fbRead t s.curSlot c (s.dstX.toNat + x) (s.dstY.toNat + y) =
            fbRead s ref c (s.dstX.toNat + x) (s.dstY.toNat + y)

/-- 44_interp.md R148, R149: SMPRD answers and SMPWR writes the one sample at (DST_X, DST_Y) of the named slot and component. -/
def Obligations.SmprdAndSmpwrReachOneSample : Prop :=
  ∀ (s : State) (slot : BitVec 5) (comp : BitVec 2) (c : Comp) (val : BitVec 8),
    compOfField comp = some c → pictureLegal Config.params s = true →
    s.dstX.toNat < planeWidth s c → s.dstY.toNat < planeHeight s c →
    exec (.smprd slot comp) s =
      .next { s with response := some ⟨false, BitVec.ofNat 32 (fbRead s slot c s.dstX.toNat s.dstY.toNat).toNat⟩ } ∧
    ∃ t, exec (.smpwr slot comp val) s = .next t ∧ SameButFb s t ∧ t.response = some ⟨false, 0⟩ ∧
      fbRead t slot c s.dstX.toNat s.dstY.toNat = val ∧ FbSameOutside slot c s.dstX.toNat s.dstY.toNat 1 1 s t

/-- 60_exceptions.md R181, R182, 10_state.md R26: a reserved field faults E_RESERVED before an illegal picture size or a position
outside the plane faults E_GEOMETRY, for every command that addresses FB. -/
def Obligations.FrameStoreCommandsFaultInOrder : Prop :=
  ∀ (s : State) (comp wc hc mode : BitVec 2) (ref : BitVec 5) (cr : BitVec 1) (val : BitVec 8),
    (comp = 3 → ∀ i ∈ [Instr.add4 comp, .add8 comp, .smprd ref comp, .smpwr ref comp val],
      exec i s = .next (faultRecord .eReserved s)) ∧
    (wc = 3 ∨ hc = 3 ∨ mode = 3 → ∀ i ∈ [Instr.mcluma ref wc hc mode, .mcchroma cr ref wc hc mode],
      exec i s = .next (faultRecord .eReserved s)) ∧
    (wc ≠ 3 → hc ≠ 3 → mode ≠ 3 →
      (pictureLegal Config.params s = false ∨ planeWidth s .y < s.dstX.toNat + 4 * 2 ^ wc.toNat ∨
        planeHeight s .y < s.dstY.toNat + 4 * 2 ^ hc.toNat → exec (.mcluma ref wc hc mode) s = .next (faultRecord .eGeometry s)) ∧
      (pictureLegal Config.params s = false ∨ planeWidth s .cb < s.dstX.toNat + 2 * 2 ^ wc.toNat ∨
        planeHeight s .cb < s.dstY.toNat + 2 * 2 ^ hc.toNat → exec (.mcchroma cr ref wc hc mode) s = .next (faultRecord .eGeometry s))) ∧
    ∀ c, compOfField comp = some c →
      (pictureLegal Config.params s = false ∨ planeWidth s c < s.dstX.toNat + 4 ∨ planeHeight s c < s.dstY.toNat + 4 →
        exec (.add4 comp) s = .next (faultRecord .eGeometry s)) ∧
      (pictureLegal Config.params s = false ∨ planeWidth s c < s.dstX.toNat + 8 ∨ planeHeight s c < s.dstY.toNat + 8 →
        exec (.add8 comp) s = .next (faultRecord .eGeometry s)) ∧
      (pictureLegal Config.params s = false ∨ planeWidth s c ≤ s.dstX.toNat ∨ planeHeight s c ≤ s.dstY.toNat →
        exec (.smprd ref comp) s = .next (faultRecord .eGeometry s) ∧
        exec (.smpwr ref comp val) s = .next (faultRecord .eGeometry s))

/-! ### Deblocking unit -/

/-- 45_deblock.md R162 and R161: the table index is QPAV plus the offset clamped to 0..51; and of the tables of R161, that they are 0 up
to index 15, non-decreasing (read off its values, as 93_implementation_defined.md part 2 checked), and their last entries. -/
def Obligations.ThresholdsComeFromTheClampedIndex : Prop :=
  (∀ s : State,
    (thresholds s).alpha = alphaTab (max 0 (min 51 (s.qpav.toNat + s.foa.toInt))).toNat ∧
    (thresholds s).beta = betaTab (max 0 (min 51 (s.qpav.toNat + s.fob.toInt))).toNat ∧
    ∀ bS, tc0Of (thresholds s) bS = tc0Tab (max 0 (min 51 (s.qpav.toNat + s.foa.toInt))).toNat bS) ∧
  (∀ i < 16, alphaTab i = 0 ∧ betaTab i = 0 ∧ ∀ b < 4, tc0Tab i b = 0) ∧
  (∀ i < 51, alphaTab i ≤ alphaTab (i + 1) ∧ betaTab i ≤ betaTab (i + 1) ∧ ∀ b < 4, tc0Tab i b ≤ tc0Tab (i + 1) b) ∧
  alphaTab 51 = 255 ∧ betaTab 51 = 18 ∧ tc0Tab 51 1 = 13 ∧ tc0Tab 51 2 = 17 ∧ tc0Tab 51 3 = 25

/-- 45_deblock.md R163 to R166: the samples of a line after the filter, by strength: unchanged unless filterSamplesFlag; the soft and
the strong formula of a luma line, and the chroma formulas, every right-hand side from the values before. A sample the filter
does not list keeps its value. -/
def Obligations.LineFiltersFollowTheirFormulas : Prop :=
  ∀ (T : Thresholds) (bS : Nat) (p q : Nat → Int), bS ≤ 4 →
    let now := fun (c : Comp) (o before : Int) => ((filterLine c T bS p q).lookup o).getD before
    let clip := fun lo hi v : Int => max lo (min hi v)
    let on := bS ≠ 0 ∧ absInt (p 0 - q 0) < T.alpha ∧ absInt (p 1 - p 0) < T.beta ∧ absInt (q 1 - q 0) < T.beta
    let nearP := absInt (p 2 - p 0) < T.beta
    let nearQ := absInt (q 2 - q 0) < T.beta
    let small := absInt (p 0 - q 0) < T.alpha / 4 + 2
    let tc0 := tc0Of T bS
    let tc := tc0 + (if nearP then 1 else 0) + (if nearQ then 1 else 0)
    let delta := fun bound => clip (-bound) bound ((4 * (q 0 - p 0) + (p 1 - q 1) + 4) / 8)
    (¬ on → ∀ c, filterLine c T bS p q = []) ∧
    (on → bS < 4 →
      now .y (-1) (p 0) = clip 0 255 (p 0 + delta tc) ∧ now .y 0 (q 0) = clip 0 255 (q 0 - delta tc) ∧
      now .y (-2) (p 1) = (if nearP then p 1 + clip (-tc0) tc0 ((p 2 + (p 0 + q 0 + 1) / 2 - 2 * p 1) / 2) else p 1) ∧
      now .y 1 (q 1) = (if nearQ then q 1 + clip (-tc0) tc0 ((q 2 + (p 0 + q 0 + 1) / 2 - 2 * q 1) / 2) else q 1) ∧
      now .y (-3) (p 2) = p 2 ∧ now .y 2 (q 2) = q 2 ∧
      ∀ c, c ≠ .y → now c (-1) (p 0) = clip 0 255 (p 0 + delta (tc0 + 1)) ∧ now c 0 (q 0) = clip 0 255 (q 0 - delta (tc0 + 1))) ∧
    (on → bS = 4 →
      now .y (-1) (p 0) = (if nearP ∧ small then (p 2 + 2 * p 1 + 2 * p 0 + 2 * q 0 + q 1 + 4) / 8 else (2 * p 1 + p 0 + q 1 + 2) / 4) ∧
      now .y (-2) (p 1) = (if nearP ∧ small then (p 2 + p 1 + p 0 + q 0 + 2) / 4 else p 1) ∧
      now .y (-3) (p 2) = (if nearP ∧ small then (2 * p 3 + 3 * p 2 + p 1 + p 0 + q 0 + 4) / 8 else p 2) ∧
      now .y 0 (q 0) = (if nearQ ∧ small then (p 1 + 2 * p 0 + 2 * q 0 + 2 * q 1 + q 2 + 4) / 8 else (2 * q 1 + q 0 + p 1 + 2) / 4) ∧
      now .y 1 (q 1) = (if nearQ ∧ small then (p 0 + q 0 + q 1 + q 2 + 2) / 4 else q 1) ∧
      now .y 2 (q 2) = (if nearQ ∧ small then (2 * q 3 + 3 * q 2 + q 1 + q 0 + p 0 + 4) / 8 else q 2) ∧
      ∀ c, c ≠ .y → now c (-1) (p 0) = (2 * p 1 + p 0 + q 1 + 2) / 4 ∧ now c 0 (q 0) = (2 * q 1 + q 0 + p 1 + 2) / 4) ∧
    ∀ (c : Comp) (o v : Int), o < -3 ∨ 2 < o ∨ (c ≠ .y ∧ o ≠ -1 ∧ o ≠ 0) → now c o v = v

/-- 45_deblock.md R171, and the range of the values of R164 to R166: whatever the 8-bit samples of a line, a line filter writes 8-bit
values, never p3 or q3, on a chroma line only p0 and q0; for bS < 4 it moves p0 and q0 by at most tc, at most 27, and p1, q1 by
at most tc0(bS), at most 25. -/
def Obligations.LineFiltersStayInBounds : Prop :=
  ∀ (s : State) (c : Comp) (bS : Nat) (p q : Nat → Int), bS ≤ 4 →
    (∀ i, 0 ≤ p i ∧ p i ≤ 255) → (∀ i, 0 ≤ q i ∧ q i ≤ 255) →
    let T := thresholds s
    let tc0 := tc0Of T bS
    let tc := tc0 + (if c = .y then
      (if absInt (p 2 - p 0) < T.beta then 1 else 0) + (if absInt (q 2 - q 0) < T.beta then 1 else 0) else 1)
    (bS < 4 → 0 ≤ tc0 ∧ tc0 ≤ 25 ∧ tc ≤ 27) ∧
    ∀ w ∈ filterLine c T bS p q,
      0 ≤ w.2 ∧ w.2 ≤ 255 ∧ -3 ≤ w.1 ∧ w.1 ≤ 2 ∧ (c ≠ .y → w.1 = -1 ∨ w.1 = 0) ∧
      (bS < 4 → (w.1 = -1 ∧ absInt (w.2 - p 0) ≤ tc) ∨ (w.1 = 0 ∧ absInt (w.2 - q 0) ≤ tc) ∨
        (w.1 = -2 ∧ absInt (w.2 - p 1) ≤ tc0) ∨ (w.1 = 1 ∧ absInt (w.2 - q 1) ≤ tc0))

/-- 45_deblock.md R167, R168 with R160: on legal operands with the edge inside the plane, DBKLUMA and DBKCHROMA filter each line
of the edge from the samples before the command; every other sample of every plane, and all else, is unchanged. -/
def Obligations.DeblockingFiltersTheEdge : Prop :=
  ∀ (s : State) (dir cr : BitVec 1),
    (∀ n < 4, (s.bs.toNat / 8 ^ n) % 8 ≤ 4) → s.qpav.toNat ≤ 51 → pictureLegal Config.params s = true →
    ∀ (c : Comp) (lines depth : Nat) (i : Instr),
      (c = .y ∧ lines = 16 ∧ depth = 4 ∧ i = .dbkluma dir ∨
        c = (if cr = 0 then .cb else .cr) ∧ lines = 8 ∧ depth = 2 ∧ i = .dbkchroma cr dir) →
      (dir = 0 → depth ≤ s.dstX.toNat ∧ s.dstX.toNat + depth ≤ planeWidth s c ∧ s.dstY.toNat + lines ≤ planeHeight s c) →
      (dir = 1 → depth ≤ s.dstY.toNat ∧ s.dstY.toNat + depth ≤ planeHeight s c ∧ s.dstX.toNat + lines ≤ planeWidth s c) →
      let at' := fun (u : State) (k : Nat) (o : Int) =>
        if dir = 0 then fbRead u s.curSlot c (s.dstX.toNat + o).toNat (s.dstY.toNat + k)
        else fbRead u s.curSlot c (s.dstX.toNat + k) (s.dstY.toNat + o).toNat
      let changes := fun k => filterLine c (thresholds s) ((s.bs.toNat / 8 ^ (4 * k / lines)) % 8)
        (fun d => (at' s k (-1 - d)).toNat) (fun d => (at' s k d).toNat)
      ∃ t, exec i s = .next t ∧ SameButFb s t ∧ t.response = some ⟨false, 0⟩ ∧
        (∀ k < lines, ∀ o : Int, -depth ≤ o → o < depth →
          ((at' t k o).toNat : Int) = ((changes k).lookup o).getD (at' s k o).toNat) ∧
        (dir = 0 → FbSameOutside s.curSlot c (s.dstX.toNat - depth) s.dstY.toNat (2 * depth) lines s t) ∧
        (dir = 1 → FbSameOutside s.curSlot c s.dstX.toNat (s.dstY.toNat - depth) lines (2 * depth) s t)

/-- 45_deblock.md R169: a deblocking command that does not fault and has BS = 0, or alpha = 0 or beta = 0, changes nothing. -/
def Obligations.ZeroStrengthDeblockingChangesNothing : Prop :=
  ∀ (s t : State) (dir cr : BitVec 1) (i : Instr), (i = .dbkluma dir ∨ i = .dbkchroma cr dir) →
    (s.bs = 0 ∨ s.qpav.toNat + s.foa.toInt ≤ 15 ∨ s.qpav.toNat + s.fob.toInt ≤ 15) →
    exec i s = .next t → (∀ d, t.response ≠ some ⟨true, d⟩) → t = { s with response := some ⟨false, 0⟩ }

/-- 45_deblock.md R167, R168, 60_exceptions.md R182: a strength above 4 or QPAV above 51 faults E_OPERAND, before an illegal picture
or an edge not wholly inside the plane faults E_GEOMETRY. -/
def Obligations.DeblockingFaultsInOrder : Prop :=
  ∀ (s : State) (dir cr : BitVec 1) (c : Comp) (lines depth : Nat) (i : Instr),
    (c = .y ∧ lines = 16 ∧ depth = 4 ∧ i = .dbkluma dir ∨
      c = (if cr = 0 then .cb else .cr) ∧ lines = 8 ∧ depth = 2 ∧ i = .dbkchroma cr dir) →
    ((∃ n < 4, 4 < (s.bs.toNat / 8 ^ n) % 8) ∨ 51 < s.qpav.toNat → exec i s = .next (faultRecord .eOperand s)) ∧
    ((∀ n < 4, (s.bs.toNat / 8 ^ n) % 8 ≤ 4) → s.qpav.toNat ≤ 51 →
      (pictureLegal Config.params s = false ∨
        (dir = 0 ∧ (s.dstX.toNat < depth ∨ planeWidth s c < s.dstX.toNat + depth ∨ planeHeight s c < s.dstY.toNat + lines)) ∨
        (dir = 1 ∧ (s.dstY.toNat < depth ∨ planeHeight s c < s.dstY.toNat + depth ∨ planeWidth s c < s.dstX.toNat + lines))) →
      exec i s = .next (faultRecord .eGeometry s))

/-! ### Encoding -/

/-- 30_encoding.md R61 to R64: decoding the encoding of any well-formed command gives it back, every operand at every value. -/
def Obligations.DecodeOfEncodeIsTheCommand : Prop :=
  ∀ i : Instr, i.wellFormed = true → decode (encode i) = .ok i

/-- 30_encoding.md R60, R61, R65: a word that decodes is the encoding of the command it decodes to, and that command is well formed: no
two words mean the same command and no must-be-zero bit is ignored. -/
def Obligations.DecodedWordIsTheEncoding : Prop :=
  ∀ (w : Word) (i : Instr), decode w = .ok i → encode i = w ∧ i.wellFormed = true

/-- 30_encoding.md R63, R65: decoding is total; a word is refused as unassigned exactly when bits 31:24 are no assigned opcode. -/
def Obligations.UnassignedOpcodesAreExactlyRefused : Prop :=
  ∀ w : Word, (decode w = .error .unassignedOpcode ↔ w.toNat / 2 ^ 24 ∉ assignedOpcodes)

/-- 30_encoding.md R61, R63 and the examples of the command rules: words written out from the formats decode to the commands they
stand for. -/
def Obligations.WrittenWordsDecode : Prop :=
  decode 0x00000000#32 = .ok .nop ∧
  decode 0x0102FFFC#32 = .ok (.wrl 0x02 0xFFFC) ∧
  decode 0x11000004#32 = .ok (.rdbits 4) ∧
  decode 0x25290007#32 = .ok (.ctxwr 7 41) ∧
  decode 0x33050014#32 = .ok (.wswr 5 20) ∧
  decode 0x41010501#32 = .ok (.mcchroma 1 1 1 1 0) ∧
  decode 0x51000100#32 = .ok (.dbkchroma 1 0) ∧
  decode 0x61AB0003#32 = .ok (.smpwr 3 0 0xAB) ∧
  decode 0x40003001#32 = .error .reservedBits ∧
  decode 0x99000000#32 = .error .unassignedOpcode

/-! ### The machine as a whole -/

/-- 00_scope.md R5, R12, 30_encoding.md R65: a step whose next host move is a command word runs exactly the decoded command, or
records the fault of the refusal; the move is consumed. The list of moves is the model's (log 1). -/
def Obligations.StepRunsTheDecodedCommand : Prop :=
  ∀ (s : State) (w : Word) (rest : List HostMove), s.inbox = .command w :: rest →
    (∀ i, decode w = .ok i → step s = exec i { s with inbox := rest }) ∧
    (decode w = .error .unassignedOpcode → step s = .next (faultRecord .eOpcode { s with inbox := rest })) ∧
    (decode w = .error .reservedBits → step s = .next (faultRecord .eReserved { s with inbox := rest }))

/-- The model's host interface (log 1, log 2, log 10), after 20_memory.md R56 and 70_reset_and_hazards.md R200: an idle block does not
change; a host write reaches one byte (one that exists, else the model stops) or one sample; reset resets all but CPB, FB and the pending moves. -/
def Obligations.StepTakesTheHostsMoves : Prop :=
  ∀ (s : State) (rest : List HostMove),
    (s.inbox = [] → step s = .next s) ∧
    (∀ a b, s.inbox = .writeCpb a b :: rest →
      step s = if a.toNat < Config.params.cpbSize.toNat then .next { s with inbox := rest, cpb := cellSet s.cpb a.toNat b }
        else .fault .hostCpbOutside) ∧
    (∀ a b a', cpbByte { s with cpb := cellSet s.cpb a b } a' = if a' = a then b else cpbByte s a') ∧
    (∀ slot c x y b, s.inbox = .writeFb slot c x y b :: rest →
      ∃ t, step s = .next t ∧ t = { s with inbox := rest, fb := t.fb } ∧ fbRead t slot c x.toNat y.toNat = b ∧
        FbSameOutside slot c x.toNat y.toNat 1 1 s t) ∧
    (s.inbox = .reset :: rest →
      ∃ t, step s = .next t ∧ (∀ r : Reg, regRead t r = 0) ∧ (∀ k : Fin 64, t.coef[k] = 0 ∧ t.ws[k] = 16) ∧
        t.cpb = s.cpb ∧ t.fb = s.fb ∧ t.inbox = rest)

/-- 60_exceptions.md R181, R183, 10_state.md R25: the codes are 1 to 7; a fault sets STATUS.FAULT, records its code only if FAULT
was 0, answers (1, code) and changes nothing else. -/
def Obligations.FaultRecordKeepsTheFirstCode : Prop :=
  [FaultCode.eOpcode, .eReserved, .eReg, .eOperand, .eState, .eGeometry, .eCpb].map faultNumber = [1, 2, 3, 4, 5, 6, 7] ∧
  ∀ (c : FaultCode) (s : State),
    faultRecord c s = { s with status := s.status ||| 0b10000#5
                               faultcode := if s.status.getLsbD 4 then s.faultcode else faultNumber c
                               response := some ⟨true, BitVec.ofNat 32 (faultNumber c).toNat⟩ }

/-- 60_exceptions.md R183: a command word answered with err = 1 changed nothing but the fault record: FAULT is set, FAULTCODE
took the code if FAULT was 0, and the code is one of 1..7. -/
def Obligations.FaultingWordChangesOnlyTheFaultRecord : Prop :=
  ∀ (w : Word) (s t : State) (d : Word), execWord w s = .next t → t.response = some ⟨true, d⟩ →
    1 ≤ d.toNat ∧ d.toNat ≤ 7 ∧
    t = { s with status := s.status ||| 0b10000#5
                 faultcode := if flagOn .fault s then s.faultcode else d.setWidth 8
                 response := some ⟨true, d⟩ }

/-- 60_exceptions.md R185, 70_reset_and_hazards.md R211: under the pointer contract every command word is answered, from every
state; no command is stuck and none is refused. -/
def Obligations.EveryCommandWordIsAnswered : Prop :=
  ∀ (w : Word) (s : State), PointerContract Config.params s → Answered w s

/-- 42_cabac.md R112: while the engine is active, 256 ≤ COD_RANGE ≤ 510 and COD_OFFSET < COD_RANGE; every step keeps it. -/
def Obligations.EngineInvariantIsKept : Prop :=
  ∀ s t : State, EngineInv s → step s = .next t → EngineInv t

/-- The machine's invariant (10_state.md R25, R29; 42_cabac.md R112; the canonical form of the memory spaces): every step keeps it. -/
def Obligations.InvariantIsKeptByEveryStep : Prop :=
  ∀ s t : State, Inv Config.params s → step s = .next t → Inv Config.params t

/-- The reset state satisfies the machine's invariant. -/
def Obligations.ResetStateSatisfiesTheInvariant : Prop := Inv Config.params State.reset

/-- 20_memory.md R40, 10_state.md R22: which commands write which state. CPB is written by none; FB only by the FB commands; CTX
only by CABINIT, CABDEC, CTXWR (and SRESET); COEF and WS only by the transform commands (and SRESET); the operand registers
only by WRL (and SRESET). -/
def Obligations.OnlyTheListedCommandsWriteEachSpace : Prop :=
  ∀ (i : Instr) (s t : State), exec i s = .next t →
    t.cpb = s.cpb ∧ t.inbox = s.inbox ∧
    ((match i with
      | .add4 _ | .add8 _ | .mcluma _ _ _ _ | .mcchroma _ _ _ _ _ | .dbkluma _ | .dbkchroma _ _ | .smpwr _ _ _ => False
      | _ => True) → t.fb = s.fb) ∧
    ((match i with
      | .cabinit _ _ | .cabdec _ | .ctxwr _ _ | .sreset => False
      | _ => True) → t.ctx = s.ctx ∧ t.ctxEpoch = s.ctxEpoch) ∧
    ((match i with
      | .coefwr _ _ | .coefclr | .deq4 _ | .deq8 _ | .idct4 | .idct8 | .sreset => False
      | _ => True) → t.coef = s.coef) ∧
    ((match i with
      | .wswr _ _ | .sreset => False
      | _ => True) → t.ws = s.ws) ∧
    ((match i with
      | .wrl _ _ | .sreset => False
      | _ => True) → SameOperands s t ∧ t.picW = s.picW ∧ t.picH = s.picH)

/-- 10_state.md R24, R35: the sticky flags are cleared only by CLRST and SRESET, and CABACT changes only by CABSTART, CABTERM, BSINIT
and SRESET; COD_RANGE and COD_OFFSET are written only by the CABAC commands and SRESET (R28). -/
def Obligations.StatusFlagsChangeOnlyAsListed : Prop :=
  ∀ (i : Instr) (s t : State), exec i s = .next t →
    ((match i with
      | .clrst _ | .sreset => False
      | _ => True) → ∀ f, f ≠ .cabact → flagOn f s = true → flagOn f t = true) ∧
    ((match i with
      | .cabstart | .cabterm | .bsinit | .sreset => False
      | _ => True) → flagOn .cabact t = flagOn .cabact s) ∧
    ((match i with
      | .cabstart | .cabdec _ | .cabbyp | .cabterm | .sreset => False
      | _ => True) → t.codRange = s.codRange ∧ t.codOffset = s.codOffset)
end

