-- ==== Sys2Proof/Laws/Memory.lean ====
section
/-! SUPPORT. The laws of the memory spaces: read after write, the canonical form, the sample keys, and what a block write does. -/

namespace Sys2Proof.Machine

variable {w : Nat}

/-! ### One write -/

@[simp] theorem cellGet_nil (a : Nat) : cellGet ([] : Cells w) a = none := rfl

theorem cellGet_cons (b : Nat) (u : BitVec w) (m : Cells w) (a : Nat) :
    cellGet ((b, u) :: m) a = if a = b then some u else if a < b then none else cellGet m a := rfl

theorem cellGet_cellSet (m : Cells w) (a a' : Nat) (v : BitVec w) :
    cellGet (cellSet m a v) a' = if a' = a then some v else cellGet m a' := by
  induction m with
  | nil => simp only [cellSet, cellGet_cons, cellGet_nil]; split <;> simp
  | cons c m ih =>
    obtain ⟨b, u⟩ := c
    simp only [cellSet]
    split
    · subst_vars; simp only [cellGet_cons]; split <;> simp_all
    · split
      · simp only [cellGet_cons]; split
        · rfl
        · split
          · have : ¬ a' = b := by omega
            have : a' < b := by omega
            simp_all
          · rfl
      · simp only [cellGet_cons, ih]
        split
        · have : ¬ a' = a := by omega
          simp_all
        · split
          · have : ¬ a' = a := by omega
            simp_all
          · rfl

theorem mem_cellSet {m : Cells w} {a : Nat} {v : BitVec w} {c : Nat × BitVec w} (h : c ∈ cellSet m a v) :
    c = (a, v) ∨ c ∈ m := by
  induction m with
  | nil => simpa [cellSet] using h
  | cons d m ih =>
    obtain ⟨b, u⟩ := d
    simp only [cellSet] at h
    split at h
    · simp only [List.mem_cons] at h ⊢; tauto
    · split at h
      · simp only [List.mem_cons] at h ⊢; tauto
      · simp only [List.mem_cons] at h ⊢
        rcases h with h | h
        · tauto
        · rcases ih h with h | h <;> tauto

theorem wf_cellSet {m : Cells w} (h : Cells.wf m) (a : Nat) (v : BitVec w) : Cells.wf (cellSet m a v) := by
  induction m with
  | nil => simp [cellSet, Cells.wf]
  | cons d m ih =>
    obtain ⟨b, u⟩ := d
    have hm := (List.pairwise_cons.1 h)
    simp only [cellSet]
    split
    · subst_vars; exact List.pairwise_cons.2 hm
    · split
      · refine List.pairwise_cons.2 ⟨fun c hc => ?_, h⟩
        rcases List.mem_cons.1 hc with rfl | hc
        · assumption
        · exact lt_trans ‹a < b› (hm.1 c hc)
      · refine List.pairwise_cons.2 ⟨fun c hc => ?_, ih hm.2⟩
        rcases mem_cellSet hc with rfl | hc
        · show b < a; omega
        · exact hm.1 c hc

/-! ### Many writes -/

@[simp] theorem cellSetAll_nil (m : Cells w) : cellSetAll m [] = m := rfl

@[simp] theorem cellSetAll_cons (m : Cells w) (c : Nat × BitVec w) (l : List (Nat × BitVec w)) :
    cellSetAll m (c :: l) = cellSetAll (cellSet m c.1 c.2) l := rfl

theorem wf_cellSetAll {m : Cells w} (h : Cells.wf m) (l : List (Nat × BitVec w)) : Cells.wf (cellSetAll m l) := by
  induction l generalizing m with
  | nil => exact h
  | cons c l ih => exact ih (wf_cellSet h c.1 c.2)

/-- An address that is not written reads as before. -/
theorem cellGet_cellSetAll_of_not_mem (m : Cells w) (l : List (Nat × BitVec w)) (a : Nat)
    (h : ∀ c ∈ l, c.1 ≠ a) : cellGet (cellSetAll m l) a = cellGet m a := by
  induction l generalizing m with
  | nil => rfl
  | cons c l ih =>
    rw [cellSetAll_cons, ih _ (fun d hd => h d (List.mem_cons_of_mem _ hd)), cellGet_cellSet,
      if_neg (Ne.symm (h c List.mem_cons_self))]

/-- An address written exactly once reads the written value. -/
theorem cellGet_cellSetAll_of_mem (m : Cells w) (l : List (Nat × BitVec w)) (a : Nat) (v : BitVec w)
    (hmem : (a, v) ∈ l) (honce : ∀ c ∈ l, c.1 = a → c.2 = v) : cellGet (cellSetAll m l) a = some v := by
  induction l generalizing m with
  | nil => simp at hmem
  | cons c l ih =>
    rw [cellSetAll_cons]
    by_cases hl : (a, v) ∈ l
    · exact ih _ hl fun d hd => honce d (List.mem_cons_of_mem _ hd)
    · have hc : c = (a, v) := by
        rcases List.mem_cons.1 hmem with h | h
        · exact h.symm
        · exact absurd h hl
      subst hc
      rw [cellGet_cellSetAll_of_not_mem, cellGet_cellSet, if_pos rfl]
      intro d hd hda
      have hd2 := honce d (List.mem_cons_of_mem _ hd) hda
      apply hl
      have : d = (a, v) := Prod.ext hda hd2
      exact this ▸ hd

/-! ### A full listing in order -/

theorem cellGet_cellListing (f : Nat → BitVec w) (n a : Nat) (h : a < n) : cellGet (cellListing n f) a = some (f a) := by
  have key : ∀ k b, b ≤ a → a < b + k → cellGet ((List.range' b k).map fun i => (i, f i)) a = some (f a) := by
    intro k
    induction k with
    | zero => intro b _ _; omega
    | succ k ih =>
      intro b hb hk
      rw [List.range'_succ, List.map_cons, cellGet_cons]
      split
      · subst_vars; rfl
      · rw [if_neg (by omega), ih (b + 1) (by omega) (by omega)]
  exact key n 0 (by omega) (by omega)

theorem wf_cellListing (n : Nat) (f : Nat → BitVec w) : Cells.wf (cellListing n f) := by
  rw [Cells.wf, cellListing, List.pairwise_map]
  exact List.pairwise_lt_range'

theorem mem_cellListing {n : Nat} {f : Nat → BitVec w} {c : Nat × BitVec w} (h : c ∈ cellListing n f) : c.1 < n := by
  obtain ⟨k, hk, rfl⟩ := List.mem_map.1 h
  have := List.mem_range'_1.1 hk
  omega

/-- Reset memory is canonical: nothing is listed. -/
theorem wf_nil : Cells.wf ([] : Cells w) := List.Pairwise.nil

theorem mem_cellSetAll {m : Cells w} {l : List (Nat × BitVec w)} {c : Nat × BitVec w} (h : c ∈ cellSetAll m l) :
    c ∈ l ∨ c ∈ m := by
  induction l generalizing m with
  | nil => exact .inr h
  | cons d l ih =>
    rcases ih h with h | h
    · exact .inl (List.mem_cons_of_mem _ h)
    · rcases mem_cellSet h with rfl | h
      · exact .inl List.mem_cons_self
      · exact .inr h

/-! ### CTX -/

theorem ctxRead_ctxWrite (s : State) (i j : BitVec 10) (v : BitVec 7) :
    ctxRead (ctxWrite i v s) j = if j = i then v else ctxRead s j := by
  simp only [ctxRead, ctxWrite, cellGet_cellSet]
  by_cases h : j = i
  · simp [h]
  · rw [if_neg (fun h' => h (BitVec.eq_of_toNat_eq h')), if_neg h]

/-! ### FB -/

theorem compNumber_lt (c : Comp) : compNumber c < 3 := by cases c <;> decide

theorem compNumber_inj {c d : Comp} (h : compNumber c = compNumber d) : c = d := by
  cases c <;> cases d <;> first | rfl | exact absurd h (by decide)

/-- The sample keys are one to one (log 13). -/
theorem sampleKey_inj {sl sl' : BitVec 5} {c c' : Comp} {x y x' y' : Nat}
    (hx : x < 65536) (hy : y < 65536) (hx' : x' < 65536) (hy' : y' < 65536)
    (h : sampleKey sl c x y = sampleKey sl' c' x' y') : sl = sl' ∧ c = c' ∧ x = x' ∧ y = y' := by
  unfold sampleKey at h
  have h1 := compNumber_lt c
  have h2 := compNumber_lt c'
  have hc : compNumber c = compNumber c' := by omega
  exact ⟨BitVec.eq_of_toNat_eq (by omega), compNumber_inj hc, by omega, by omega⟩

theorem fbRead_fbWriteAll_of_not_mem (s : State) (slot slot' : BitVec 5) (c c' : Comp) (l : List (Nat × Nat × Byte))
    (x y : Nat) (hx : x < 65536) (hy : y < 65536) (hl : ∀ t ∈ l, t.1 < 65536 ∧ t.2.1 < 65536)
    (h : ∀ t ∈ l, ¬ (slot' = slot ∧ c' = c ∧ t.1 = x ∧ t.2.1 = y)) :
    fbRead (fbWriteAll slot c l s) slot' c' x y = fbRead s slot' c' x y := by
  simp only [fbRead, fbWriteAll]
  rw [cellGet_cellSetAll_of_not_mem]
  intro d hd hk
  obtain ⟨t, ht, rfl⟩ := List.mem_map.1 hd
  obtain ⟨h1, h2, h3, h4⟩ := sampleKey_inj (hl t ht).1 (hl t ht).2 hx hy hk
  exact h t ht ⟨h1.symm, h2.symm, h3, h4⟩

theorem fbRead_fbWriteAll_of_mem (s : State) (slot : BitVec 5) (c : Comp) (l : List (Nat × Nat × Byte))
    (x y : Nat) (b : Byte) (hx : x < 65536) (hy : y < 65536) (hl : ∀ t ∈ l, t.1 < 65536 ∧ t.2.1 < 65536)
    (hmem : (x, y, b) ∈ l) (honce : ∀ t ∈ l, t.1 = x → t.2.1 = y → t.2.2 = b) :
    fbRead (fbWriteAll slot c l s) slot c x y = b := by
  simp only [fbRead, fbWriteAll]
  rw [cellGet_cellSetAll_of_mem _ _ _ b]
  · rfl
  · exact List.mem_map.2 ⟨(x, y, b), hmem, rfl⟩
  · intro d hd hk
    obtain ⟨t, ht, rfl⟩ := List.mem_map.1 hd
    obtain ⟨-, -, h3, h4⟩ := sampleKey_inj (hl t ht).1 (hl t ht).2 hx hy hk
    exact honce t ht h3 h4

/-! ### Block writes -/

theorem mem_blockOffsets {bw bh : Nat} {o : Nat × Nat} : o ∈ blockOffsets bw bh ↔ o.1 < bw ∧ o.2 < bh := by
  obtain ⟨x, y⟩ := o
  simp [blockOffsets, and_comm]

/-- A plane of a legal picture is less than 65536 samples wide and high (20_memory.md R43). -/
theorem planeWidth_lt {P : Params} {s : State} (h : pictureLegal P s = true) (c : Comp) :
    planeWidth s c < 65536 ∧ planeHeight s c < 65536 := by
  have hw := P.maxMbsWLessOne.isLt
  have hh := P.maxMbsHLessOne.isLt
  simp only [pictureLegal, Params.maxMbsW, Params.maxMbsH] at h
  have h := of_decide_eq_true h
  cases c <;> simp only [planeWidth, planeHeight] <;> omega

/-- Everything a block write does: the samples of the block, and nothing else. -/
theorem writeBlock_spec (s : State) (c : Comp) (bw bh : Nat) (f : Nat → Nat → Byte)
    (hx : s.dstX.toNat + bw ≤ 65536) (hy : s.dstY.toNat + bh ≤ 65536) :
    writeBlock c bw bh f s = { s with fb := (writeBlock c bw bh f s).fb } ∧
    (∀ x < bw, ∀ y < bh,
      fbRead (writeBlock c bw bh f s) s.curSlot c (s.dstX.toNat + x) (s.dstY.toNat + y) = f x y) ∧
    ∀ slot' c' x y, x < 65536 → y < 65536 →
      ¬ (slot' = s.curSlot ∧ c' = c ∧ s.dstX.toNat ≤ x ∧ x < s.dstX.toNat + bw ∧
          s.dstY.toNat ≤ y ∧ y < s.dstY.toNat + bh) →
      fbRead (writeBlock c bw bh f s) slot' c' x y = fbRead s slot' c' x y := by
  have hl : ∀ t ∈ (blockOffsets bw bh).map fun o => (s.dstX.toNat + o.1, s.dstY.toNat + o.2, f o.1 o.2),
      t.1 < 65536 ∧ t.2.1 < 65536 := by
    intro t ht
    obtain ⟨o, ho, rfl⟩ := List.mem_map.1 ht
    have := mem_blockOffsets.1 ho
    constructor <;> simp only <;> omega
  refine ⟨rfl, fun x hxb y hyb => ?_, fun slot' c' x y hx' hy' hout => ?_⟩
  · refine fbRead_fbWriteAll_of_mem _ _ _ _ _ _ _ (by omega) (by omega) hl ?_ ?_
    · exact List.mem_map.2 ⟨(x, y), mem_blockOffsets.2 ⟨hxb, hyb⟩, rfl⟩
    · intro t ht h1 h2
      obtain ⟨o, ho, rfl⟩ := List.mem_map.1 ht
      simp only at h1 h2 ⊢
      rw [show o.1 = x by omega, show o.2 = y by omega]
  · refine fbRead_fbWriteAll_of_not_mem _ _ _ _ _ _ _ _ hx' hy' hl ?_
    rintro t ht ⟨h1, h2, h3, h4⟩
    obtain ⟨o, ho, rfl⟩ := List.mem_map.1 ht
    have := mem_blockOffsets.1 ho
    simp only at h3 h4
    exact hout ⟨h1, h2, by omega, by omega, by omega, by omega⟩

/-- The checks of a block command put the block inside the sample space. -/
theorem blockInside_bounds {P : Params} {s : State} {c : Comp} {bw bh : Nat} (hP : pictureLegal P s = true)
    (hb : blockInside s c bw bh = true) : s.dstX.toNat + bw ≤ 65536 ∧ s.dstY.toNat + bh ≤ 65536 := by
  have h := planeWidth_lt hP c
  have h' := of_decide_eq_true hb
  omega

/-- A sample of a legal block after the block is written. -/
theorem fbRead_writeBlock_inside {P : Params} {s : State} {c : Comp} {bw bh : Nat} {f : Nat → Nat → Byte}
    (hP : pictureLegal P s = true) (hb : blockInside s c bw bh = true) {x y : Nat} (hx : x < bw) (hy : y < bh) :
    fbRead (writeBlock c bw bh f s) s.curSlot c (s.dstX.toNat + x) (s.dstY.toNat + y) = f x y :=
  have h := blockInside_bounds hP hb
  (writeBlock_spec s c bw bh f h.1 h.2).2.1 x hx y hy

/-! ### Reads do not see the response -/

@[simp] theorem fbRead_response (s : State) (r : Option Response) (slot : BitVec 5) (c : Comp) (x y : Nat) :
    fbRead { s with response := r } slot c x y = fbRead s slot c x y := rfl

@[simp] theorem ctxRead_response (s : State) (r : Option Response) (i : BitVec 10) :
    ctxRead { s with response := r } i = ctxRead s i := rfl

@[simp] theorem cpbByte_response (s : State) (r : Option Response) (a : Nat) :
    cpbByte { s with response := r } a = cpbByte s a := rfl

end Sys2Proof.Machine
end

