-- ==== Sys2Proof/Laws/Arith.lean ====
section
/-! SUPPORT. Bounds of the arithmetic primitives, samples as bytes, and reads of the coefficient file and the reference plane. -/

namespace Sys2Proof.Machine

/-- Clipping is a maximum of a minimum when the bounds are in order. -/
theorem clip3_eq_max_min {lo hi : Int} (h : lo ≤ hi) (v : Int) : clip3 lo hi v = max lo (min hi v) := by
  unfold clip3
  split <;> [skip; split] <;> omega

theorem clip3_bounds {lo hi : Int} (h : lo ≤ hi) (v : Int) : lo ≤ clip3 lo hi v ∧ clip3 lo hi v ≤ hi := by
  unfold clip3
  split <;> [skip; split] <;> omega

theorem clip3_of_mem {lo hi v : Int} (h0 : lo ≤ v) (h1 : v ≤ hi) : clip3 lo hi v = v := by
  unfold clip3
  rw [if_neg (by omega), if_neg (by omega)]

theorem clip1_bounds (v : Int) : 0 ≤ clip1 v ∧ clip1 v ≤ 255 := clip3_bounds (by decide) v

/-- A sample value of 0..255 is stored as it is. -/
theorem toByte_toNat {v : Int} (h0 : 0 ≤ v) (h1 : v ≤ 255) : ((toByte v).toNat : Int) = v := by
  unfold toByte
  rw [BitVec.toNat_ofInt]
  omega

theorem wrap32_of_mem {v : Int} (h0 : -2147483648 ≤ v) (h1 : v < 2147483648) : wrap32 v = v := by
  unfold wrap32
  rw [Int.bmod_eq_of_le] <;> omega

theorem toInt_eq_wrap32 (v : BitVec 32) : wrap32 v.toInt = v.toInt := by
  have h0 := BitVec.le_toInt v
  have h1 := BitVec.toInt_lt (x := v)
  exact wrap32_of_mem (by simpa using h0) (by simpa using h1)

theorem avg_bounds {u v : Int} (hu : 0 ≤ u ∧ u ≤ 255) (hv : 0 ≤ v ∧ v ≤ 255) : 0 ≤ avg u v ∧ avg u v ≤ 255 := by
  unfold avg asr
  omega

/-- Reading a coefficient after a pass over the first `n`. -/
theorem coefAt_mapFirst (n : Nat) (cs : Coefs) (f : Nat → BitVec 32) {k : Nat} (hk : k < 64) :
    coefAt (mapFirst n cs f) k = if k < n then f k else coefAt cs k := by
  unfold coefAt mapFirst
  rw [Vector.getElem?_eq_getElem hk, Vector.getElem?_eq_getElem hk, Vector.getElem_ofFn]
  split <;> rfl

theorem coefAt_eq_getElem (cs : Coefs) {k : Nat} (hk : k < 64) : coefAt cs k = cs[k] := by
  unfold coefAt
  rw [Vector.getElem?_eq_getElem hk]
  rfl

theorem byte_toNat_bounds (b : Byte) : (0 : Int) ≤ b.toNat ∧ (b.toNat : Int) ≤ 255 := by
  have := b.isLt
  omega

theorem refSample_bounds (s : State) (slot : BitVec 5) (c : Comp) (x y : Int) :
    0 ≤ refSample s slot c x y ∧ refSample s slot c x y ≤ 255 := byte_toNat_bounds _

/-- A reference read inside the plane is not clamped (20_memory.md R44). -/
theorem refSample_inside {s : State} {slot : BitVec 5} {c : Comp} {x y : Nat} (hx : x < planeWidth s c)
    (hy : y < planeHeight s c) : refSample s slot c x y = (fbRead s slot c x y).toNat := by
  unfold refSample
  rw [clip3_of_mem (by omega) (by omega), clip3_of_mem (by omega) (by omega)]
  rfl

end Sys2Proof.Machine
end

