-- ==== Sys2Proof/Laws/State.lean ====
section
/-! SUPPORT. One lemma per field per named update of State, true by rfl. -/

namespace Sys2Proof.Machine

/-! ### setFlag -/

@[simp] theorem setFlag_dstX (f : Flag) (s : State) : (setFlag f s).dstX = s.dstX := rfl
@[simp] theorem setFlag_dstY (f : Flag) (s : State) : (setFlag f s).dstY = s.dstY := rfl
@[simp] theorem setFlag_mvX (f : Flag) (s : State) : (setFlag f s).mvX = s.mvX := rfl
@[simp] theorem setFlag_mvY (f : Flag) (s : State) : (setFlag f s).mvY = s.mvY := rfl
@[simp] theorem setFlag_w0 (f : Flag) (s : State) : (setFlag f s).w0 = s.w0 := rfl
@[simp] theorem setFlag_w1 (f : Flag) (s : State) : (setFlag f s).w1 = s.w1 := rfl
@[simp] theorem setFlag_wround (f : Flag) (s : State) : (setFlag f s).wround = s.wround := rfl
@[simp] theorem setFlag_wshift (f : Flag) (s : State) : (setFlag f s).wshift = s.wshift := rfl
@[simp] theorem setFlag_woff (f : Flag) (s : State) : (setFlag f s).woff = s.woff := rfl
@[simp] theorem setFlag_bs (f : Flag) (s : State) : (setFlag f s).bs = s.bs := rfl
@[simp] theorem setFlag_qpav (f : Flag) (s : State) : (setFlag f s).qpav = s.qpav := rfl
@[simp] theorem setFlag_foa (f : Flag) (s : State) : (setFlag f s).foa = s.foa := rfl
@[simp] theorem setFlag_fob (f : Flag) (s : State) : (setFlag f s).fob = s.fob := rfl
@[simp] theorem setFlag_curSlot (f : Flag) (s : State) : (setFlag f s).curSlot = s.curSlot := rfl
@[simp] theorem setFlag_status (f : Flag) (s : State) :
    (setFlag f s).status = s.status ||| flagMask f := rfl
@[simp] theorem setFlag_faultcode (f : Flag) (s : State) : (setFlag f s).faultcode = s.faultcode := rfl
@[simp] theorem setFlag_picW (f : Flag) (s : State) : (setFlag f s).picW = s.picW := rfl
@[simp] theorem setFlag_picH (f : Flag) (s : State) : (setFlag f s).picH = s.picH := rfl
@[simp] theorem setFlag_cpbPtr (f : Flag) (s : State) : (setFlag f s).cpbPtr = s.cpbPtr := rfl
@[simp] theorem setFlag_cpbEnd (f : Flag) (s : State) : (setFlag f s).cpbEnd = s.cpbEnd := rfl
@[simp] theorem setFlag_codRange (f : Flag) (s : State) : (setFlag f s).codRange = s.codRange := rfl
@[simp] theorem setFlag_codOffset (f : Flag) (s : State) : (setFlag f s).codOffset = s.codOffset := rfl
@[simp] theorem setFlag_bitbuf (f : Flag) (s : State) : (setFlag f s).bitbuf = s.bitbuf := rfl
@[simp] theorem setFlag_bitcnt (f : Flag) (s : State) : (setFlag f s).bitcnt = s.bitcnt := rfl
@[simp] theorem setFlag_zeros (f : Flag) (s : State) : (setFlag f s).zeros = s.zeros := rfl
@[simp] theorem setFlag_coef (f : Flag) (s : State) : (setFlag f s).coef = s.coef := rfl
@[simp] theorem setFlag_ws (f : Flag) (s : State) : (setFlag f s).ws = s.ws := rfl
@[simp] theorem setFlag_ctx (f : Flag) (s : State) : (setFlag f s).ctx = s.ctx := rfl
@[simp] theorem setFlag_cpb (f : Flag) (s : State) : (setFlag f s).cpb = s.cpb := rfl
@[simp] theorem setFlag_fb (f : Flag) (s : State) : (setFlag f s).fb = s.fb := rfl
@[simp] theorem setFlag_ctxEpoch (f : Flag) (s : State) : (setFlag f s).ctxEpoch = s.ctxEpoch := rfl
@[simp] theorem setFlag_response (f : Flag) (s : State) : (setFlag f s).response = s.response := rfl
@[simp] theorem setFlag_inbox (f : Flag) (s : State) : (setFlag f s).inbox = s.inbox := rfl

/-! ### clearFlag -/

@[simp] theorem clearFlag_dstX (f : Flag) (s : State) : (clearFlag f s).dstX = s.dstX := rfl
@[simp] theorem clearFlag_dstY (f : Flag) (s : State) : (clearFlag f s).dstY = s.dstY := rfl
@[simp] theorem clearFlag_mvX (f : Flag) (s : State) : (clearFlag f s).mvX = s.mvX := rfl
@[simp] theorem clearFlag_mvY (f : Flag) (s : State) : (clearFlag f s).mvY = s.mvY := rfl
@[simp] theorem clearFlag_w0 (f : Flag) (s : State) : (clearFlag f s).w0 = s.w0 := rfl
@[simp] theorem clearFlag_w1 (f : Flag) (s : State) : (clearFlag f s).w1 = s.w1 := rfl
@[simp] theorem clearFlag_wround (f : Flag) (s : State) : (clearFlag f s).wround = s.wround := rfl
@[simp] theorem clearFlag_wshift (f : Flag) (s : State) : (clearFlag f s).wshift = s.wshift := rfl
@[simp] theorem clearFlag_woff (f : Flag) (s : State) : (clearFlag f s).woff = s.woff := rfl
@[simp] theorem clearFlag_bs (f : Flag) (s : State) : (clearFlag f s).bs = s.bs := rfl
@[simp] theorem clearFlag_qpav (f : Flag) (s : State) : (clearFlag f s).qpav = s.qpav := rfl
@[simp] theorem clearFlag_foa (f : Flag) (s : State) : (clearFlag f s).foa = s.foa := rfl
@[simp] theorem clearFlag_fob (f : Flag) (s : State) : (clearFlag f s).fob = s.fob := rfl
@[simp] theorem clearFlag_curSlot (f : Flag) (s : State) : (clearFlag f s).curSlot = s.curSlot := rfl
@[simp] theorem clearFlag_status (f : Flag) (s : State) :
    (clearFlag f s).status = s.status &&& ~~~(flagMask f) := rfl
@[simp] theorem clearFlag_faultcode (f : Flag) (s : State) : (clearFlag f s).faultcode = s.faultcode := rfl
@[simp] theorem clearFlag_picW (f : Flag) (s : State) : (clearFlag f s).picW = s.picW := rfl
@[simp] theorem clearFlag_picH (f : Flag) (s : State) : (clearFlag f s).picH = s.picH := rfl
@[simp] theorem clearFlag_cpbPtr (f : Flag) (s : State) : (clearFlag f s).cpbPtr = s.cpbPtr := rfl
@[simp] theorem clearFlag_cpbEnd (f : Flag) (s : State) : (clearFlag f s).cpbEnd = s.cpbEnd := rfl
@[simp] theorem clearFlag_codRange (f : Flag) (s : State) : (clearFlag f s).codRange = s.codRange := rfl
@[simp] theorem clearFlag_codOffset (f : Flag) (s : State) : (clearFlag f s).codOffset = s.codOffset := rfl
@[simp] theorem clearFlag_bitbuf (f : Flag) (s : State) : (clearFlag f s).bitbuf = s.bitbuf := rfl
@[simp] theorem clearFlag_bitcnt (f : Flag) (s : State) : (clearFlag f s).bitcnt = s.bitcnt := rfl
@[simp] theorem clearFlag_zeros (f : Flag) (s : State) : (clearFlag f s).zeros = s.zeros := rfl
@[simp] theorem clearFlag_coef (f : Flag) (s : State) : (clearFlag f s).coef = s.coef := rfl
@[simp] theorem clearFlag_ws (f : Flag) (s : State) : (clearFlag f s).ws = s.ws := rfl
@[simp] theorem clearFlag_ctx (f : Flag) (s : State) : (clearFlag f s).ctx = s.ctx := rfl
@[simp] theorem clearFlag_cpb (f : Flag) (s : State) : (clearFlag f s).cpb = s.cpb := rfl
@[simp] theorem clearFlag_fb (f : Flag) (s : State) : (clearFlag f s).fb = s.fb := rfl
@[simp] theorem clearFlag_ctxEpoch (f : Flag) (s : State) : (clearFlag f s).ctxEpoch = s.ctxEpoch := rfl
@[simp] theorem clearFlag_response (f : Flag) (s : State) : (clearFlag f s).response = s.response := rfl
@[simp] theorem clearFlag_inbox (f : Flag) (s : State) : (clearFlag f s).inbox = s.inbox := rfl

/-! ### clearSticky -/

@[simp] theorem clearSticky_dstX (m : BitVec 4) (s : State) : (clearSticky m s).dstX = s.dstX := rfl
@[simp] theorem clearSticky_dstY (m : BitVec 4) (s : State) : (clearSticky m s).dstY = s.dstY := rfl
@[simp] theorem clearSticky_mvX (m : BitVec 4) (s : State) : (clearSticky m s).mvX = s.mvX := rfl
@[simp] theorem clearSticky_mvY (m : BitVec 4) (s : State) : (clearSticky m s).mvY = s.mvY := rfl
@[simp] theorem clearSticky_w0 (m : BitVec 4) (s : State) : (clearSticky m s).w0 = s.w0 := rfl
@[simp] theorem clearSticky_w1 (m : BitVec 4) (s : State) : (clearSticky m s).w1 = s.w1 := rfl
@[simp] theorem clearSticky_wround (m : BitVec 4) (s : State) : (clearSticky m s).wround = s.wround := rfl
@[simp] theorem clearSticky_wshift (m : BitVec 4) (s : State) : (clearSticky m s).wshift = s.wshift := rfl
@[simp] theorem clearSticky_woff (m : BitVec 4) (s : State) : (clearSticky m s).woff = s.woff := rfl
@[simp] theorem clearSticky_bs (m : BitVec 4) (s : State) : (clearSticky m s).bs = s.bs := rfl
@[simp] theorem clearSticky_qpav (m : BitVec 4) (s : State) : (clearSticky m s).qpav = s.qpav := rfl
@[simp] theorem clearSticky_foa (m : BitVec 4) (s : State) : (clearSticky m s).foa = s.foa := rfl
@[simp] theorem clearSticky_fob (m : BitVec 4) (s : State) : (clearSticky m s).fob = s.fob := rfl
@[simp] theorem clearSticky_curSlot (m : BitVec 4) (s : State) : (clearSticky m s).curSlot = s.curSlot := rfl
@[simp] theorem clearSticky_status (m : BitVec 4) (s : State) :
    (clearSticky m s).status = s.status &&& ~~~(m ++ 0#1) := rfl
@[simp] theorem clearSticky_faultcode (m : BitVec 4) (s : State) :
    (clearSticky m s).faultcode = if m.getLsbD 3 then 0 else s.faultcode := rfl
@[simp] theorem clearSticky_picW (m : BitVec 4) (s : State) : (clearSticky m s).picW = s.picW := rfl
@[simp] theorem clearSticky_picH (m : BitVec 4) (s : State) : (clearSticky m s).picH = s.picH := rfl
@[simp] theorem clearSticky_cpbPtr (m : BitVec 4) (s : State) : (clearSticky m s).cpbPtr = s.cpbPtr := rfl
@[simp] theorem clearSticky_cpbEnd (m : BitVec 4) (s : State) : (clearSticky m s).cpbEnd = s.cpbEnd := rfl
@[simp] theorem clearSticky_codRange (m : BitVec 4) (s : State) : (clearSticky m s).codRange = s.codRange := rfl
@[simp] theorem clearSticky_codOffset (m : BitVec 4) (s : State) : (clearSticky m s).codOffset = s.codOffset := rfl
@[simp] theorem clearSticky_bitbuf (m : BitVec 4) (s : State) : (clearSticky m s).bitbuf = s.bitbuf := rfl
@[simp] theorem clearSticky_bitcnt (m : BitVec 4) (s : State) : (clearSticky m s).bitcnt = s.bitcnt := rfl
@[simp] theorem clearSticky_zeros (m : BitVec 4) (s : State) : (clearSticky m s).zeros = s.zeros := rfl
@[simp] theorem clearSticky_coef (m : BitVec 4) (s : State) : (clearSticky m s).coef = s.coef := rfl
@[simp] theorem clearSticky_ws (m : BitVec 4) (s : State) : (clearSticky m s).ws = s.ws := rfl
@[simp] theorem clearSticky_ctx (m : BitVec 4) (s : State) : (clearSticky m s).ctx = s.ctx := rfl
@[simp] theorem clearSticky_cpb (m : BitVec 4) (s : State) : (clearSticky m s).cpb = s.cpb := rfl
@[simp] theorem clearSticky_fb (m : BitVec 4) (s : State) : (clearSticky m s).fb = s.fb := rfl
@[simp] theorem clearSticky_ctxEpoch (m : BitVec 4) (s : State) : (clearSticky m s).ctxEpoch = s.ctxEpoch := rfl
@[simp] theorem clearSticky_response (m : BitVec 4) (s : State) : (clearSticky m s).response = s.response := rfl
@[simp] theorem clearSticky_inbox (m : BitVec 4) (s : State) : (clearSticky m s).inbox = s.inbox := rfl

/-! ### faultRecord -/

@[simp] theorem faultRecord_dstX (c : FaultCode) (s : State) : (faultRecord c s).dstX = s.dstX := rfl
@[simp] theorem faultRecord_dstY (c : FaultCode) (s : State) : (faultRecord c s).dstY = s.dstY := rfl
@[simp] theorem faultRecord_mvX (c : FaultCode) (s : State) : (faultRecord c s).mvX = s.mvX := rfl
@[simp] theorem faultRecord_mvY (c : FaultCode) (s : State) : (faultRecord c s).mvY = s.mvY := rfl
@[simp] theorem faultRecord_w0 (c : FaultCode) (s : State) : (faultRecord c s).w0 = s.w0 := rfl
@[simp] theorem faultRecord_w1 (c : FaultCode) (s : State) : (faultRecord c s).w1 = s.w1 := rfl
@[simp] theorem faultRecord_wround (c : FaultCode) (s : State) : (faultRecord c s).wround = s.wround := rfl
@[simp] theorem faultRecord_wshift (c : FaultCode) (s : State) : (faultRecord c s).wshift = s.wshift := rfl
@[simp] theorem faultRecord_woff (c : FaultCode) (s : State) : (faultRecord c s).woff = s.woff := rfl
@[simp] theorem faultRecord_bs (c : FaultCode) (s : State) : (faultRecord c s).bs = s.bs := rfl
@[simp] theorem faultRecord_qpav (c : FaultCode) (s : State) : (faultRecord c s).qpav = s.qpav := rfl
@[simp] theorem faultRecord_foa (c : FaultCode) (s : State) : (faultRecord c s).foa = s.foa := rfl
@[simp] theorem faultRecord_fob (c : FaultCode) (s : State) : (faultRecord c s).fob = s.fob := rfl
@[simp] theorem faultRecord_curSlot (c : FaultCode) (s : State) : (faultRecord c s).curSlot = s.curSlot := rfl
@[simp] theorem faultRecord_status (c : FaultCode) (s : State) :
    (faultRecord c s).status = s.status ||| flagMask .fault := rfl
@[simp] theorem faultRecord_faultcode (c : FaultCode) (s : State) :
    (faultRecord c s).faultcode = if flagOn .fault s then s.faultcode else faultNumber c := rfl
@[simp] theorem faultRecord_picW (c : FaultCode) (s : State) : (faultRecord c s).picW = s.picW := rfl
@[simp] theorem faultRecord_picH (c : FaultCode) (s : State) : (faultRecord c s).picH = s.picH := rfl
@[simp] theorem faultRecord_cpbPtr (c : FaultCode) (s : State) : (faultRecord c s).cpbPtr = s.cpbPtr := rfl
@[simp] theorem faultRecord_cpbEnd (c : FaultCode) (s : State) : (faultRecord c s).cpbEnd = s.cpbEnd := rfl
@[simp] theorem faultRecord_codRange (c : FaultCode) (s : State) : (faultRecord c s).codRange = s.codRange := rfl
@[simp] theorem faultRecord_codOffset (c : FaultCode) (s : State) : (faultRecord c s).codOffset = s.codOffset := rfl
@[simp] theorem faultRecord_bitbuf (c : FaultCode) (s : State) : (faultRecord c s).bitbuf = s.bitbuf := rfl
@[simp] theorem faultRecord_bitcnt (c : FaultCode) (s : State) : (faultRecord c s).bitcnt = s.bitcnt := rfl
@[simp] theorem faultRecord_zeros (c : FaultCode) (s : State) : (faultRecord c s).zeros = s.zeros := rfl
@[simp] theorem faultRecord_coef (c : FaultCode) (s : State) : (faultRecord c s).coef = s.coef := rfl
@[simp] theorem faultRecord_ws (c : FaultCode) (s : State) : (faultRecord c s).ws = s.ws := rfl
@[simp] theorem faultRecord_ctx (c : FaultCode) (s : State) : (faultRecord c s).ctx = s.ctx := rfl
@[simp] theorem faultRecord_cpb (c : FaultCode) (s : State) : (faultRecord c s).cpb = s.cpb := rfl
@[simp] theorem faultRecord_fb (c : FaultCode) (s : State) : (faultRecord c s).fb = s.fb := rfl
@[simp] theorem faultRecord_ctxEpoch (c : FaultCode) (s : State) : (faultRecord c s).ctxEpoch = s.ctxEpoch := rfl
@[simp] theorem faultRecord_response (c : FaultCode) (s : State) :
    (faultRecord c s).response = some ⟨true, (faultNumber c).setWidth 32⟩ := rfl
@[simp] theorem faultRecord_inbox (c : FaultCode) (s : State) : (faultRecord c s).inbox = s.inbox := rfl

/-! ### ctxWrite -/

@[simp] theorem ctxWrite_dstX (i : BitVec 10) (v : BitVec 7) (s : State) : (ctxWrite i v s).dstX = s.dstX := rfl
@[simp] theorem ctxWrite_dstY (i : BitVec 10) (v : BitVec 7) (s : State) : (ctxWrite i v s).dstY = s.dstY := rfl
@[simp] theorem ctxWrite_mvX (i : BitVec 10) (v : BitVec 7) (s : State) : (ctxWrite i v s).mvX = s.mvX := rfl
@[simp] theorem ctxWrite_mvY (i : BitVec 10) (v : BitVec 7) (s : State) : (ctxWrite i v s).mvY = s.mvY := rfl
@[simp] theorem ctxWrite_w0 (i : BitVec 10) (v : BitVec 7) (s : State) : (ctxWrite i v s).w0 = s.w0 := rfl
@[simp] theorem ctxWrite_w1 (i : BitVec 10) (v : BitVec 7) (s : State) : (ctxWrite i v s).w1 = s.w1 := rfl
@[simp] theorem ctxWrite_wround (i : BitVec 10) (v : BitVec 7) (s : State) : (ctxWrite i v s).wround = s.wround := rfl
@[simp] theorem ctxWrite_wshift (i : BitVec 10) (v : BitVec 7) (s : State) : (ctxWrite i v s).wshift = s.wshift := rfl
@[simp] theorem ctxWrite_woff (i : BitVec 10) (v : BitVec 7) (s : State) : (ctxWrite i v s).woff = s.woff := rfl
@[simp] theorem ctxWrite_bs (i : BitVec 10) (v : BitVec 7) (s : State) : (ctxWrite i v s).bs = s.bs := rfl
@[simp] theorem ctxWrite_qpav (i : BitVec 10) (v : BitVec 7) (s : State) : (ctxWrite i v s).qpav = s.qpav := rfl
@[simp] theorem ctxWrite_foa (i : BitVec 10) (v : BitVec 7) (s : State) : (ctxWrite i v s).foa = s.foa := rfl
@[simp] theorem ctxWrite_fob (i : BitVec 10) (v : BitVec 7) (s : State) : (ctxWrite i v s).fob = s.fob := rfl
@[simp] theorem ctxWrite_curSlot (i : BitVec 10) (v : BitVec 7) (s : State) : (ctxWrite i v s).curSlot = s.curSlot := rfl
@[simp] theorem ctxWrite_status (i : BitVec 10) (v : BitVec 7) (s : State) : (ctxWrite i v s).status = s.status := rfl
@[simp] theorem ctxWrite_faultcode (i : BitVec 10) (v : BitVec 7) (s : State) : (ctxWrite i v s).faultcode = s.faultcode := rfl
@[simp] theorem ctxWrite_picW (i : BitVec 10) (v : BitVec 7) (s : State) : (ctxWrite i v s).picW = s.picW := rfl
@[simp] theorem ctxWrite_picH (i : BitVec 10) (v : BitVec 7) (s : State) : (ctxWrite i v s).picH = s.picH := rfl
@[simp] theorem ctxWrite_cpbPtr (i : BitVec 10) (v : BitVec 7) (s : State) : (ctxWrite i v s).cpbPtr = s.cpbPtr := rfl
@[simp] theorem ctxWrite_cpbEnd (i : BitVec 10) (v : BitVec 7) (s : State) : (ctxWrite i v s).cpbEnd = s.cpbEnd := rfl
@[simp] theorem ctxWrite_codRange (i : BitVec 10) (v : BitVec 7) (s : State) : (ctxWrite i v s).codRange = s.codRange := rfl
@[simp] theorem ctxWrite_codOffset (i : BitVec 10) (v : BitVec 7) (s : State) : (ctxWrite i v s).codOffset = s.codOffset := rfl
@[simp] theorem ctxWrite_bitbuf (i : BitVec 10) (v : BitVec 7) (s : State) : (ctxWrite i v s).bitbuf = s.bitbuf := rfl
@[simp] theorem ctxWrite_bitcnt (i : BitVec 10) (v : BitVec 7) (s : State) : (ctxWrite i v s).bitcnt = s.bitcnt := rfl
@[simp] theorem ctxWrite_zeros (i : BitVec 10) (v : BitVec 7) (s : State) : (ctxWrite i v s).zeros = s.zeros := rfl
@[simp] theorem ctxWrite_coef (i : BitVec 10) (v : BitVec 7) (s : State) : (ctxWrite i v s).coef = s.coef := rfl
@[simp] theorem ctxWrite_ws (i : BitVec 10) (v : BitVec 7) (s : State) : (ctxWrite i v s).ws = s.ws := rfl
@[simp] theorem ctxWrite_ctx (i : BitVec 10) (v : BitVec 7) (s : State) :
    (ctxWrite i v s).ctx = cellSet s.ctx i.toNat v := rfl
@[simp] theorem ctxWrite_cpb (i : BitVec 10) (v : BitVec 7) (s : State) : (ctxWrite i v s).cpb = s.cpb := rfl
@[simp] theorem ctxWrite_fb (i : BitVec 10) (v : BitVec 7) (s : State) : (ctxWrite i v s).fb = s.fb := rfl
@[simp] theorem ctxWrite_ctxEpoch (i : BitVec 10) (v : BitVec 7) (s : State) : (ctxWrite i v s).ctxEpoch = s.ctxEpoch := rfl
@[simp] theorem ctxWrite_response (i : BitVec 10) (v : BitVec 7) (s : State) : (ctxWrite i v s).response = s.response := rfl
@[simp] theorem ctxWrite_inbox (i : BitVec 10) (v : BitVec 7) (s : State) : (ctxWrite i v s).inbox = s.inbox := rfl

/-! ### ctxWriteAll -/

@[simp] theorem ctxWriteAll_dstX (f : Nat → BitVec 7) (s : State) : (ctxWriteAll f s).dstX = s.dstX := rfl
@[simp] theorem ctxWriteAll_dstY (f : Nat → BitVec 7) (s : State) : (ctxWriteAll f s).dstY = s.dstY := rfl
@[simp] theorem ctxWriteAll_mvX (f : Nat → BitVec 7) (s : State) : (ctxWriteAll f s).mvX = s.mvX := rfl
@[simp] theorem ctxWriteAll_mvY (f : Nat → BitVec 7) (s : State) : (ctxWriteAll f s).mvY = s.mvY := rfl
@[simp] theorem ctxWriteAll_w0 (f : Nat → BitVec 7) (s : State) : (ctxWriteAll f s).w0 = s.w0 := rfl
@[simp] theorem ctxWriteAll_w1 (f : Nat → BitVec 7) (s : State) : (ctxWriteAll f s).w1 = s.w1 := rfl
@[simp] theorem ctxWriteAll_wround (f : Nat → BitVec 7) (s : State) : (ctxWriteAll f s).wround = s.wround := rfl
@[simp] theorem ctxWriteAll_wshift (f : Nat → BitVec 7) (s : State) : (ctxWriteAll f s).wshift = s.wshift := rfl
@[simp] theorem ctxWriteAll_woff (f : Nat → BitVec 7) (s : State) : (ctxWriteAll f s).woff = s.woff := rfl
@[simp] theorem ctxWriteAll_bs (f : Nat → BitVec 7) (s : State) : (ctxWriteAll f s).bs = s.bs := rfl
@[simp] theorem ctxWriteAll_qpav (f : Nat → BitVec 7) (s : State) : (ctxWriteAll f s).qpav = s.qpav := rfl
@[simp] theorem ctxWriteAll_foa (f : Nat → BitVec 7) (s : State) : (ctxWriteAll f s).foa = s.foa := rfl
@[simp] theorem ctxWriteAll_fob (f : Nat → BitVec 7) (s : State) : (ctxWriteAll f s).fob = s.fob := rfl
@[simp] theorem ctxWriteAll_curSlot (f : Nat → BitVec 7) (s : State) : (ctxWriteAll f s).curSlot = s.curSlot := rfl
@[simp] theorem ctxWriteAll_status (f : Nat → BitVec 7) (s : State) : (ctxWriteAll f s).status = s.status := rfl
@[simp] theorem ctxWriteAll_faultcode (f : Nat → BitVec 7) (s : State) : (ctxWriteAll f s).faultcode = s.faultcode := rfl
@[simp] theorem ctxWriteAll_picW (f : Nat → BitVec 7) (s : State) : (ctxWriteAll f s).picW = s.picW := rfl
@[simp] theorem ctxWriteAll_picH (f : Nat → BitVec 7) (s : State) : (ctxWriteAll f s).picH = s.picH := rfl
@[simp] theorem ctxWriteAll_cpbPtr (f : Nat → BitVec 7) (s : State) : (ctxWriteAll f s).cpbPtr = s.cpbPtr := rfl
@[simp] theorem ctxWriteAll_cpbEnd (f : Nat → BitVec 7) (s : State) : (ctxWriteAll f s).cpbEnd = s.cpbEnd := rfl
@[simp] theorem ctxWriteAll_codRange (f : Nat → BitVec 7) (s : State) : (ctxWriteAll f s).codRange = s.codRange := rfl
@[simp] theorem ctxWriteAll_codOffset (f : Nat → BitVec 7) (s : State) : (ctxWriteAll f s).codOffset = s.codOffset := rfl
@[simp] theorem ctxWriteAll_bitbuf (f : Nat → BitVec 7) (s : State) : (ctxWriteAll f s).bitbuf = s.bitbuf := rfl
@[simp] theorem ctxWriteAll_bitcnt (f : Nat → BitVec 7) (s : State) : (ctxWriteAll f s).bitcnt = s.bitcnt := rfl
@[simp] theorem ctxWriteAll_zeros (f : Nat → BitVec 7) (s : State) : (ctxWriteAll f s).zeros = s.zeros := rfl
@[simp] theorem ctxWriteAll_coef (f : Nat → BitVec 7) (s : State) : (ctxWriteAll f s).coef = s.coef := rfl
@[simp] theorem ctxWriteAll_ws (f : Nat → BitVec 7) (s : State) : (ctxWriteAll f s).ws = s.ws := rfl
@[simp] theorem ctxWriteAll_ctx (f : Nat → BitVec 7) (s : State) :
    (ctxWriteAll f s).ctx = cellListing 1024 f := rfl
@[simp] theorem ctxWriteAll_cpb (f : Nat → BitVec 7) (s : State) : (ctxWriteAll f s).cpb = s.cpb := rfl
@[simp] theorem ctxWriteAll_fb (f : Nat → BitVec 7) (s : State) : (ctxWriteAll f s).fb = s.fb := rfl
@[simp] theorem ctxWriteAll_ctxEpoch (f : Nat → BitVec 7) (s : State) : (ctxWriteAll f s).ctxEpoch = s.ctxEpoch := rfl
@[simp] theorem ctxWriteAll_response (f : Nat → BitVec 7) (s : State) : (ctxWriteAll f s).response = s.response := rfl
@[simp] theorem ctxWriteAll_inbox (f : Nat → BitVec 7) (s : State) : (ctxWriteAll f s).inbox = s.inbox := rfl

/-! ### putEngine -/

@[simp] theorem putEngine_dstX (r o : Nat) (s : State) : (putEngine r o s).dstX = s.dstX := rfl
@[simp] theorem putEngine_dstY (r o : Nat) (s : State) : (putEngine r o s).dstY = s.dstY := rfl
@[simp] theorem putEngine_mvX (r o : Nat) (s : State) : (putEngine r o s).mvX = s.mvX := rfl
@[simp] theorem putEngine_mvY (r o : Nat) (s : State) : (putEngine r o s).mvY = s.mvY := rfl
@[simp] theorem putEngine_w0 (r o : Nat) (s : State) : (putEngine r o s).w0 = s.w0 := rfl
@[simp] theorem putEngine_w1 (r o : Nat) (s : State) : (putEngine r o s).w1 = s.w1 := rfl
@[simp] theorem putEngine_wround (r o : Nat) (s : State) : (putEngine r o s).wround = s.wround := rfl
@[simp] theorem putEngine_wshift (r o : Nat) (s : State) : (putEngine r o s).wshift = s.wshift := rfl
@[simp] theorem putEngine_woff (r o : Nat) (s : State) : (putEngine r o s).woff = s.woff := rfl
@[simp] theorem putEngine_bs (r o : Nat) (s : State) : (putEngine r o s).bs = s.bs := rfl
@[simp] theorem putEngine_qpav (r o : Nat) (s : State) : (putEngine r o s).qpav = s.qpav := rfl
@[simp] theorem putEngine_foa (r o : Nat) (s : State) : (putEngine r o s).foa = s.foa := rfl
@[simp] theorem putEngine_fob (r o : Nat) (s : State) : (putEngine r o s).fob = s.fob := rfl
@[simp] theorem putEngine_curSlot (r o : Nat) (s : State) : (putEngine r o s).curSlot = s.curSlot := rfl
@[simp] theorem putEngine_status (r o : Nat) (s : State) : (putEngine r o s).status = s.status := rfl
@[simp] theorem putEngine_faultcode (r o : Nat) (s : State) : (putEngine r o s).faultcode = s.faultcode := rfl
@[simp] theorem putEngine_picW (r o : Nat) (s : State) : (putEngine r o s).picW = s.picW := rfl
@[simp] theorem putEngine_picH (r o : Nat) (s : State) : (putEngine r o s).picH = s.picH := rfl
@[simp] theorem putEngine_cpbPtr (r o : Nat) (s : State) : (putEngine r o s).cpbPtr = s.cpbPtr := rfl
@[simp] theorem putEngine_cpbEnd (r o : Nat) (s : State) : (putEngine r o s).cpbEnd = s.cpbEnd := rfl
@[simp] theorem putEngine_codRange (r o : Nat) (s : State) :
    (putEngine r o s).codRange = BitVec.ofNat 9 r := rfl
@[simp] theorem putEngine_codOffset (r o : Nat) (s : State) :
    (putEngine r o s).codOffset = BitVec.ofNat 9 o := rfl
@[simp] theorem putEngine_bitbuf (r o : Nat) (s : State) : (putEngine r o s).bitbuf = s.bitbuf := rfl
@[simp] theorem putEngine_bitcnt (r o : Nat) (s : State) : (putEngine r o s).bitcnt = s.bitcnt := rfl
@[simp] theorem putEngine_zeros (r o : Nat) (s : State) : (putEngine r o s).zeros = s.zeros := rfl
@[simp] theorem putEngine_coef (r o : Nat) (s : State) : (putEngine r o s).coef = s.coef := rfl
@[simp] theorem putEngine_ws (r o : Nat) (s : State) : (putEngine r o s).ws = s.ws := rfl
@[simp] theorem putEngine_ctx (r o : Nat) (s : State) : (putEngine r o s).ctx = s.ctx := rfl
@[simp] theorem putEngine_cpb (r o : Nat) (s : State) : (putEngine r o s).cpb = s.cpb := rfl
@[simp] theorem putEngine_fb (r o : Nat) (s : State) : (putEngine r o s).fb = s.fb := rfl
@[simp] theorem putEngine_ctxEpoch (r o : Nat) (s : State) : (putEngine r o s).ctxEpoch = s.ctxEpoch := rfl
@[simp] theorem putEngine_response (r o : Nat) (s : State) : (putEngine r o s).response = s.response := rfl
@[simp] theorem putEngine_inbox (r o : Nat) (s : State) : (putEngine r o s).inbox = s.inbox := rfl

/-! ### fbWriteAll -/

@[simp] theorem fbWriteAll_dstX (sl : BitVec 5) (c : Comp) (l : List (Nat × Nat × Byte)) (s : State) : (fbWriteAll sl c l s).dstX = s.dstX := rfl
@[simp] theorem fbWriteAll_dstY (sl : BitVec 5) (c : Comp) (l : List (Nat × Nat × Byte)) (s : State) : (fbWriteAll sl c l s).dstY = s.dstY := rfl
@[simp] theorem fbWriteAll_mvX (sl : BitVec 5) (c : Comp) (l : List (Nat × Nat × Byte)) (s : State) : (fbWriteAll sl c l s).mvX = s.mvX := rfl
@[simp] theorem fbWriteAll_mvY (sl : BitVec 5) (c : Comp) (l : List (Nat × Nat × Byte)) (s : State) : (fbWriteAll sl c l s).mvY = s.mvY := rfl
@[simp] theorem fbWriteAll_w0 (sl : BitVec 5) (c : Comp) (l : List (Nat × Nat × Byte)) (s : State) : (fbWriteAll sl c l s).w0 = s.w0 := rfl
@[simp] theorem fbWriteAll_w1 (sl : BitVec 5) (c : Comp) (l : List (Nat × Nat × Byte)) (s : State) : (fbWriteAll sl c l s).w1 = s.w1 := rfl
@[simp] theorem fbWriteAll_wround (sl : BitVec 5) (c : Comp) (l : List (Nat × Nat × Byte)) (s : State) : (fbWriteAll sl c l s).wround = s.wround := rfl
@[simp] theorem fbWriteAll_wshift (sl : BitVec 5) (c : Comp) (l : List (Nat × Nat × Byte)) (s : State) : (fbWriteAll sl c l s).wshift = s.wshift := rfl
@[simp] theorem fbWriteAll_woff (sl : BitVec 5) (c : Comp) (l : List (Nat × Nat × Byte)) (s : State) : (fbWriteAll sl c l s).woff = s.woff := rfl
@[simp] theorem fbWriteAll_bs (sl : BitVec 5) (c : Comp) (l : List (Nat × Nat × Byte)) (s : State) : (fbWriteAll sl c l s).bs = s.bs := rfl
@[simp] theorem fbWriteAll_qpav (sl : BitVec 5) (c : Comp) (l : List (Nat × Nat × Byte)) (s : State) : (fbWriteAll sl c l s).qpav = s.qpav := rfl
@[simp] theorem fbWriteAll_foa (sl : BitVec 5) (c : Comp) (l : List (Nat × Nat × Byte)) (s : State) : (fbWriteAll sl c l s).foa = s.foa := rfl
@[simp] theorem fbWriteAll_fob (sl : BitVec 5) (c : Comp) (l : List (Nat × Nat × Byte)) (s : State) : (fbWriteAll sl c l s).fob = s.fob := rfl
@[simp] theorem fbWriteAll_curSlot (sl : BitVec 5) (c : Comp) (l : List (Nat × Nat × Byte)) (s : State) : (fbWriteAll sl c l s).curSlot = s.curSlot := rfl
@[simp] theorem fbWriteAll_status (sl : BitVec 5) (c : Comp) (l : List (Nat × Nat × Byte)) (s : State) : (fbWriteAll sl c l s).status = s.status := rfl
@[simp] theorem fbWriteAll_faultcode (sl : BitVec 5) (c : Comp) (l : List (Nat × Nat × Byte)) (s : State) : (fbWriteAll sl c l s).faultcode = s.faultcode := rfl
@[simp] theorem fbWriteAll_picW (sl : BitVec 5) (c : Comp) (l : List (Nat × Nat × Byte)) (s : State) : (fbWriteAll sl c l s).picW = s.picW := rfl
@[simp] theorem fbWriteAll_picH (sl : BitVec 5) (c : Comp) (l : List (Nat × Nat × Byte)) (s : State) : (fbWriteAll sl c l s).picH = s.picH := rfl
@[simp] theorem fbWriteAll_cpbPtr (sl : BitVec 5) (c : Comp) (l : List (Nat × Nat × Byte)) (s : State) : (fbWriteAll sl c l s).cpbPtr = s.cpbPtr := rfl
@[simp] theorem fbWriteAll_cpbEnd (sl : BitVec 5) (c : Comp) (l : List (Nat × Nat × Byte)) (s : State) : (fbWriteAll sl c l s).cpbEnd = s.cpbEnd := rfl
@[simp] theorem fbWriteAll_codRange (sl : BitVec 5) (c : Comp) (l : List (Nat × Nat × Byte)) (s : State) : (fbWriteAll sl c l s).codRange = s.codRange := rfl
@[simp] theorem fbWriteAll_codOffset (sl : BitVec 5) (c : Comp) (l : List (Nat × Nat × Byte)) (s : State) : (fbWriteAll sl c l s).codOffset = s.codOffset := rfl
@[simp] theorem fbWriteAll_bitbuf (sl : BitVec 5) (c : Comp) (l : List (Nat × Nat × Byte)) (s : State) : (fbWriteAll sl c l s).bitbuf = s.bitbuf := rfl
@[simp] theorem fbWriteAll_bitcnt (sl : BitVec 5) (c : Comp) (l : List (Nat × Nat × Byte)) (s : State) : (fbWriteAll sl c l s).bitcnt = s.bitcnt := rfl
@[simp] theorem fbWriteAll_zeros (sl : BitVec 5) (c : Comp) (l : List (Nat × Nat × Byte)) (s : State) : (fbWriteAll sl c l s).zeros = s.zeros := rfl
@[simp] theorem fbWriteAll_coef (sl : BitVec 5) (c : Comp) (l : List (Nat × Nat × Byte)) (s : State) : (fbWriteAll sl c l s).coef = s.coef := rfl
@[simp] theorem fbWriteAll_ws (sl : BitVec 5) (c : Comp) (l : List (Nat × Nat × Byte)) (s : State) : (fbWriteAll sl c l s).ws = s.ws := rfl
@[simp] theorem fbWriteAll_ctx (sl : BitVec 5) (c : Comp) (l : List (Nat × Nat × Byte)) (s : State) : (fbWriteAll sl c l s).ctx = s.ctx := rfl
@[simp] theorem fbWriteAll_cpb (sl : BitVec 5) (c : Comp) (l : List (Nat × Nat × Byte)) (s : State) : (fbWriteAll sl c l s).cpb = s.cpb := rfl
@[simp] theorem fbWriteAll_fb (sl : BitVec 5) (c : Comp) (l : List (Nat × Nat × Byte)) (s : State) :
    (fbWriteAll sl c l s).fb = cellSetAll s.fb (l.map fun t => (sampleKey sl c t.1 t.2.1, t.2.2)) := rfl
@[simp] theorem fbWriteAll_ctxEpoch (sl : BitVec 5) (c : Comp) (l : List (Nat × Nat × Byte)) (s : State) : (fbWriteAll sl c l s).ctxEpoch = s.ctxEpoch := rfl
@[simp] theorem fbWriteAll_response (sl : BitVec 5) (c : Comp) (l : List (Nat × Nat × Byte)) (s : State) : (fbWriteAll sl c l s).response = s.response := rfl
@[simp] theorem fbWriteAll_inbox (sl : BitVec 5) (c : Comp) (l : List (Nat × Nat × Byte)) (s : State) : (fbWriteAll sl c l s).inbox = s.inbox := rfl

/-! ### resetBlock -/

@[simp] theorem resetBlock_dstX (s : State) : (resetBlock s).dstX = 0 := rfl
@[simp] theorem resetBlock_dstY (s : State) : (resetBlock s).dstY = 0 := rfl
@[simp] theorem resetBlock_mvX (s : State) : (resetBlock s).mvX = 0 := rfl
@[simp] theorem resetBlock_mvY (s : State) : (resetBlock s).mvY = 0 := rfl
@[simp] theorem resetBlock_w0 (s : State) : (resetBlock s).w0 = 0 := rfl
@[simp] theorem resetBlock_w1 (s : State) : (resetBlock s).w1 = 0 := rfl
@[simp] theorem resetBlock_wround (s : State) : (resetBlock s).wround = 0 := rfl
@[simp] theorem resetBlock_wshift (s : State) : (resetBlock s).wshift = 0 := rfl
@[simp] theorem resetBlock_woff (s : State) : (resetBlock s).woff = 0 := rfl
@[simp] theorem resetBlock_bs (s : State) : (resetBlock s).bs = 0 := rfl
@[simp] theorem resetBlock_qpav (s : State) : (resetBlock s).qpav = 0 := rfl
@[simp] theorem resetBlock_foa (s : State) : (resetBlock s).foa = 0 := rfl
@[simp] theorem resetBlock_fob (s : State) : (resetBlock s).fob = 0 := rfl
@[simp] theorem resetBlock_curSlot (s : State) : (resetBlock s).curSlot = 0 := rfl
@[simp] theorem resetBlock_status (s : State) : (resetBlock s).status = 0 := rfl
@[simp] theorem resetBlock_faultcode (s : State) : (resetBlock s).faultcode = 0 := rfl
@[simp] theorem resetBlock_picW (s : State) : (resetBlock s).picW = 0 := rfl
@[simp] theorem resetBlock_picH (s : State) : (resetBlock s).picH = 0 := rfl
@[simp] theorem resetBlock_cpbPtr (s : State) : (resetBlock s).cpbPtr = 0 := rfl
@[simp] theorem resetBlock_cpbEnd (s : State) : (resetBlock s).cpbEnd = 0 := rfl
@[simp] theorem resetBlock_codRange (s : State) : (resetBlock s).codRange = 0 := rfl
@[simp] theorem resetBlock_codOffset (s : State) : (resetBlock s).codOffset = 0 := rfl
@[simp] theorem resetBlock_bitbuf (s : State) : (resetBlock s).bitbuf = 0 := rfl
@[simp] theorem resetBlock_bitcnt (s : State) : (resetBlock s).bitcnt = 0 := rfl
@[simp] theorem resetBlock_zeros (s : State) : (resetBlock s).zeros = 0 := rfl
@[simp] theorem resetBlock_coef (s : State) : (resetBlock s).coef = Vector.replicate 64 0 := rfl
@[simp] theorem resetBlock_ws (s : State) : (resetBlock s).ws = Vector.replicate 64 16 := rfl
@[simp] theorem resetBlock_ctx (s : State) : (resetBlock s).ctx = [] := rfl
@[simp] theorem resetBlock_cpb (s : State) : (resetBlock s).cpb = s.cpb := rfl
@[simp] theorem resetBlock_fb (s : State) : (resetBlock s).fb = s.fb := rfl
@[simp] theorem resetBlock_ctxEpoch (s : State) : (resetBlock s).ctxEpoch = s.ctxEpoch + 1 := rfl
@[simp] theorem resetBlock_response (s : State) : (resetBlock s).response = none := rfl
@[simp] theorem resetBlock_inbox (s : State) : (resetBlock s).inbox = s.inbox := rfl

end Sys2Proof.Machine
end

