-- ==== Sys2Proof/Laws/Flags.lean ====
section
/-! SUPPORT. What setting and clearing one flag does to every flag. -/

namespace Sys2Proof.Machine

theorem flagBit_lt (f : Flag) : flagBit f < 5 := by cases f <;> decide

theorem flagBit_inj {f g : Flag} (h : flagBit f = flagBit g) : f = g := by
  cases f <;> cases g <;> first | rfl | exact absurd h (by decide)

theorem flagMask_getLsbD (f g : Flag) : (flagMask f).getLsbD (flagBit g) = decide (g = f) := by
  cases f <;> cases g <;> decide

@[simp] theorem flagOn_setFlag (f g : Flag) (s : State) :
    flagOn g (setFlag f s) = (flagOn g s || decide (g = f)) := by
  simp [flagOn, flagMask_getLsbD]

@[simp] theorem flagOn_clearFlag (f g : Flag) (s : State) :
    flagOn g (clearFlag f s) = (flagOn g s && !decide (g = f)) := by
  have := flagBit_lt g
  rw [flagOn, clearFlag, BitVec.getLsbD_and, BitVec.getLsbD_not, flagMask_getLsbD]
  simp [flagOn, this]

@[simp] theorem flagOn_setFlagIf (f g : Flag) (b : Bool) (s : State) :
    flagOn g (setFlagIf f b s) = (flagOn g s || (b && decide (g = f))) := by
  cases b <;> simp [setFlagIf]

@[simp] theorem flagOn_putFlag (f g : Flag) (b : Bool) (s : State) :
    flagOn g (putFlag f b s) = if g = f then b else flagOn g s := by
  cases b <;> by_cases h : g = f <;> simp [putFlag, h]

/-- A sticky flag after CLRST: bit k of the mask clears STATUS bit k + 1 (40_system.md R84). -/
theorem flagOn_clearSticky (mask : BitVec 4) (g : Flag) (s : State) :
    flagOn g (clearSticky mask s) =
      (flagOn g s && !(decide (flagBit g ≠ 0) && mask.getLsbD (flagBit g - 1))) := by
  simp only [flagOn, clearSticky]
  generalize s.status = st
  cases g <;> revert st mask <;> decide

theorem flagOn_congr {s t : State} (h : t.status = s.status) (f : Flag) : flagOn f t = flagOn f s := by
  simp only [flagOn, h]

@[simp] theorem flagOn_resetBlock (f : Flag) (s : State) : flagOn f (resetBlock s) = false := by
  simp [flagOn, resetBlock, State.reset]

/-- A fault sets FAULT and no other flag (60_exceptions.md R183). -/
@[simp] theorem flagOn_faultRecord (c : FaultCode) (f : Flag) (s : State) :
    flagOn f (faultRecord c s) = (flagOn f s || decide (f = .fault)) := flagOn_setFlag .fault f s

@[simp] theorem setFlagIf_false (f : Flag) (s : State) : setFlagIf f false s = s := rfl
@[simp] theorem setFlagIf_true (f : Flag) (s : State) : setFlagIf f true s = setFlag f s := rfl

/-- Setting or clearing flags changes STATUS only. -/
theorem putFlag_eq (f : Flag) (b : Bool) (s : State) : putFlag f b s = { s with status := (putFlag f b s).status } := by
  cases b <;> rfl

theorem setFlagIf_eq (f : Flag) (b : Bool) (s : State) :
    setFlagIf f b s = { s with status := (setFlagIf f b s).status } := by
  cases b <;> rfl

end Sys2Proof.Machine
end

