-- ==== Sys2Proof/Laws/Fetch.lean ====
section
/-! SUPPORT. Everything the bitstream fetch unit can do: when it answers, what it leaves unchanged, and the bounds of what
it answers. -/

namespace Sys2Proof.Machine

/-- A sequenced computation answers exactly when both parts do. -/
theorem bind_eq_ok {ε α β : Type} {x : Except ε α} {f : α → Except ε β} {r : β} :
    (x >>= f) = .ok r ↔ ∃ a, x = .ok a ∧ f a = .ok r := by
  cases x with
  | error e => exact ⟨fun h => (nomatch h), fun ⟨_, h, _⟩ => (nomatch h)⟩
  | ok a => exact ⟨fun h => ⟨a, rfl, h⟩, fun ⟨_, h, h'⟩ => Except.ok.inj h ▸ h'⟩

@[simp] theorem ok_bind {ε α β : Type} (a : α) (f : α → Except ε β) : (Except.ok a >>= f) = f a := rfl

@[simp] theorem error_bind {ε α β : Type} (e : ε) (f : α → Except ε β) : (Except.error e >>= f) = .error e := rfl

/-! ### The cursor's frame -/

theorem SameButCursor.rfl' (s : State) : SameButCursor s s := ⟨rfl, .inl rfl⟩

theorem SameButCursor.trans {s t u : State} (h : SameButCursor s t) (h' : SameButCursor t u) : SameButCursor s u := by
  obtain ⟨h1, h2⟩ := h
  obtain ⟨h3, h4⟩ := h'
  refine ⟨by rw [h3, h1], ?_⟩
  rcases h2 with h2 | h2 <;> rcases h4 with h4 | h4 <;> rw [h4, h2]
  · exact .inl rfl
  · exact .inr rfl
  · exact .inr rfl
  · exact .inr (by generalize s.status = x; revert x; decide)

/-- Only OVR can change among the flags. -/
theorem SameButCursor.flagOn {s t : State} (h : SameButCursor s t) {f : Flag} (hf : f ≠ .ovr) :
    flagOn f t = flagOn f s := by
  rcases h.2 with h | h <;> simp only [Machine.flagOn, h]
  generalize s.status = x
  cases f <;> first | exact absurd rfl hf | (revert x; decide)

/-- OVR is never cleared. -/
theorem SameButCursor.flagOn_mono {s t : State} (h : SameButCursor s t) {f : Flag} (hf : Machine.flagOn f s = true) :
    Machine.flagOn f t = true := by
  by_cases ho : f = .ovr
  · subst ho
    rcases h.2 with h | h
    · simpa only [Machine.flagOn, h] using hf
    · simp only [Machine.flagOn, h]; generalize s.status = x; revert x; decide
  · rw [h.flagOn ho, hf]

/-- What every fetch operation keeps: all but the cursor, the pointer contract (the end pointer never grows), and the range
of `zeros`. -/
structure CursorMove (s t : State) : Prop where
  same : SameButCursor s t
  endLe : t.cpbEnd.toNat ≤ s.cpbEnd.toNat
  zerosLe : s.zeros.toNat ≤ 2 → t.zeros.toNat ≤ 2

theorem CursorMove.rfl' (s : State) : CursorMove s s := ⟨.rfl' s, le_refl _, id⟩

theorem CursorMove.trans {s t u : State} (h : CursorMove s t) (h' : CursorMove t u) : CursorMove s u :=
  ⟨h.same.trans h'.same, le_trans h'.endLe h.endLe, h'.zerosLe ∘ h.zerosLe⟩

theorem CursorMove.contract {P : Params} {s t : State} (h : CursorMove s t) (hp : PointerContract P s) :
    PointerContract P t := le_trans h.endLe hp

/-! ### `fetch_byte()` -/

theorem cpbRead_of_lt {P : Params} {s : State} {a : Nat} (h : a < P.cpbSize.toNat) : cpbRead P s a = .ok (cpbByte s a) :=
  if_pos h

theorem cpbRead_of_le {P : Params} {s : State} {a : Nat} (h : P.cpbSize.toNat ≤ a) :
    cpbRead P s a = .error .cpbFetchOutside :=
  if_neg (by omega)

/-- Under the pointer contract the look-ahead answers (20_memory.md R46). -/
theorem startCodeAhead_answers {P : Params} {s : State} (h : PointerContract P s) :
    startCodeAhead P s = .ok (decide (s.cpbPtr.toNat + 2 < s.cpbEnd.toNat ∧ cpbByte s s.cpbPtr.toNat = 0 ∧
      cpbByte s (s.cpbPtr.toNat + 1) = 0 ∧ (cpbByte s (s.cpbPtr.toNat + 2)).toNat ≤ 1)) := by
  unfold PointerContract at h
  unfold startCodeAhead
  split
  · rw [cpbRead_of_lt (by omega), cpbRead_of_lt (by omega), cpbRead_of_lt (by omega)]
    simp only [ok_bind]
    split
    · simp_all
    · split <;> simp_all
  · simp_all

/-- The look-ahead hits only with three bytes left. -/
theorem startCodeAhead_true {P : Params} {s : State} (h : startCodeAhead P s = .ok true) :
    s.cpbPtr.toNat + 2 < s.cpbEnd.toNat := by
  unfold startCodeAhead at h
  split at h
  · assumption
  · cases h

theorem setFlag_ovr_sameButCursor (s : State) : SameButCursor s (setFlag .ovr s) := ⟨rfl, .inr rfl⟩

theorem zerosAfter_le (z : BitVec 2) (b : Byte) : (zerosAfter z b).toNat ≤ 2 := by
  unfold zerosAfter
  split
  · revert z; decide
  · decide

/-- Everything `fetch_byte()` can do when it answers. -/
theorem fetchLoop_move {P : Params} {n : Nat} {s t : State} {b : Byte} (h : fetchLoop P n s = .ok (b, t)) :
    CursorMove s t ∧ t.bitbuf = s.bitbuf ∧ t.bitcnt = s.bitcnt := by
  induction n generalizing s with
  | zero =>
    simp only [fetchLoop] at h
    cases h
    exact ⟨⟨setFlag_ovr_sameButCursor s, le_refl _, id⟩, rfl, rfl⟩
  | succ n ih =>
    simp only [fetchLoop, bind_eq_ok] at h
    obtain ⟨hit, hhit, h⟩ := h
    split at h
    · cases h
      subst_vars
      have := startCodeAhead_true hhit
      exact ⟨⟨⟨rfl, .inr rfl⟩, by simp only [setFlag_cpbEnd]; omega, id⟩, rfl, rfl⟩
    · obtain ⟨b', -, h⟩ := bind_eq_ok.1 h
      split at h
      · obtain ⟨h1, h2, h3⟩ := ih h
        have h0 : CursorMove s { s with cpbPtr := s.cpbPtr + 1, zeros := 0 } :=
          ⟨⟨rfl, .inl rfl⟩, le_refl _, fun _ => Nat.zero_le _⟩
        exact ⟨h0.trans h1, h2, h3⟩
      · cases h
        exact ⟨⟨⟨rfl, .inl rfl⟩, le_refl _, fun _ => zerosAfter_le _ _⟩, rfl, rfl⟩

/-- Under the pointer contract `fetch_byte()` answers. -/
theorem fetchLoop_answers {P : Params} {n : Nat} {s : State} (hp : PointerContract P s)
    (hn : n ≤ s.cpbEnd.toNat - s.cpbPtr.toNat) : ∃ r, fetchLoop P n s = .ok r := by
  induction n generalizing s with
  | zero => exact ⟨_, rfl⟩
  | succ n ih =>
    unfold fetchLoop
    rw [startCodeAhead_answers hp, ok_bind]
    split
    · exact ⟨_, rfl⟩
    · rw [cpbRead_of_lt (by unfold PointerContract at hp; omega), ok_bind]
      split
      · refine ih hp ?_
        have h1 : (1 : BitVec 32).toNat = 1 := rfl
        show n ≤ s.cpbEnd.toNat - (s.cpbPtr + 1).toNat
        rw [BitVec.toNat_add]
        omega
      · exact ⟨_, rfl⟩

theorem fetchByte_move {P : Params} {s t : State} {b : Byte} (h : fetchByte P s = .ok (b, t)) :
    CursorMove s t ∧ t.bitbuf = s.bitbuf ∧ t.bitcnt = s.bitcnt := fetchLoop_move h

theorem fetchByte_answers {P : Params} {s : State} (hp : PointerContract P s) : ∃ r, fetchByte P s = .ok r :=
  fetchLoop_answers hp (le_refl _)

/-! ### `read_bit()` and `read_bits(n)` -/

theorem refill_of_ne {P : Params} {s : State} (h : s.bitcnt ≠ 0) : refill P s = .ok s := if_neg h

theorem refill_move {P : Params} {s t : State} (h : refill P s = .ok t) :
    CursorMove s t ∧ (s.bitcnt = 0 ∧ t.bitcnt = 8 ∨ s.bitcnt ≠ 0 ∧ t.bitcnt = s.bitcnt) := by
  unfold refill at h
  split at h
  · obtain ⟨⟨b, u⟩, hu, h⟩ := bind_eq_ok.1 h
    cases h
    obtain ⟨⟨⟨h1, h2⟩, h3, h4⟩, -, -⟩ := fetchByte_move hu
    exact ⟨⟨⟨by rw [h1], h2⟩, h3, h4⟩, .inl ⟨by assumption, rfl⟩⟩
  · cases h
    exact ⟨.rfl' s, .inr ⟨by assumption, rfl⟩⟩

theorem refill_answers {P : Params} {s : State} (hp : PointerContract P s) : ∃ t, refill P s = .ok t := by
  unfold refill
  split
  · obtain ⟨r, hr⟩ := fetchByte_answers hp
    rw [hr]
    exact ⟨_, rfl⟩
  · exact ⟨_, rfl⟩

theorem takeBit_move (s : State) : CursorMove s (takeBit s).2 := ⟨⟨rfl, .inl rfl⟩, le_refl _, id⟩

/-- Everything `read_bit()` can do when it answers. -/
theorem readBit_move {P : Params} {s t : State} {b : Bool} (h : readBit P s = .ok (b, t)) :
    CursorMove s t ∧ t.bitcnt = (if s.bitcnt = 0 then 7 else s.bitcnt - 1) := by
  obtain ⟨u, hu, h⟩ := bind_eq_ok.1 h
  cases h
  obtain ⟨hm, hb⟩ := refill_move hu
  refine ⟨hm.trans (takeBit_move u), ?_⟩
  show u.bitcnt - 1 = _
  rcases hb with ⟨h0, hb⟩ | ⟨h0, hb⟩ <;> rw [hb]
  · rw [if_pos h0]; rfl
  · rw [if_neg h0]

theorem readBit_answers {P : Params} {s : State} (hp : PointerContract P s) : ∃ b t, readBit P s = .ok (b, t) := by
  obtain ⟨u, hu⟩ := refill_answers hp
  exact ⟨_, _, bind_eq_ok.2 ⟨u, hu, rfl⟩⟩

/-- After a bit is read from a legal buffer at most 7 bits are left. -/
theorem readBit_bitcnt_le {P : Params} {s t : State} {b : Bool} (h : readBit P s = .ok (b, t)) (hs : s.bitcnt.toNat ≤ 8) :
    t.bitcnt.toNat ≤ 7 := by
  rw [(readBit_move h).2]
  generalize s.bitcnt = c at hs
  revert c; decide

theorem readBitsFrom_succ (P : Params) (n v : Nat) (s : State) :
    readBitsFrom P (n + 1) v s = (readBit P s >>= fun r => readBitsFrom P n (2 * v + r.1.toNat) r.2) := rfl

/-- Everything `read_bits(n)` can do when it answers. -/
theorem readBitsFrom_move {P : Params} {n v v' : Nat} {s t : State} (h : readBitsFrom P n v s = .ok (v', t)) :
    CursorMove s t ∧ v * 2 ^ n ≤ v' ∧ v' < (v + 1) * 2 ^ n ∧
      (s.bitcnt.toNat ≤ 7 → t.bitcnt.toNat ≤ 7) ∧ (n ≠ 0 → s.bitcnt.toNat ≤ 8 → t.bitcnt.toNat ≤ 7) := by
  induction n generalizing v s with
  | zero =>
    simp only [readBitsFrom] at h
    cases h
    exact ⟨.rfl' _, by omega, by omega, id, fun h => absurd rfl h⟩
  | succ n ih =>
    rw [readBitsFrom_succ, bind_eq_ok] at h
    obtain ⟨⟨b, u⟩, hu, h⟩ := h
    obtain ⟨h1, h2, h3, h4, -⟩ := ih h
    have hb : b.toNat ≤ 1 := by cases b <;> decide
    refine ⟨(readBit_move hu).1.trans h1, ?_, ?_, fun hs => ?_, fun _ hs => ?_⟩
    · rw [Nat.pow_succ]; nlinarith [Nat.two_pow_pos n]
    · have : (2 * v + b.toNat + 1) * 2 ^ n ≤ (2 * v + 2) * 2 ^ n := Nat.mul_le_mul_right _ (by omega)
      rw [Nat.pow_succ]; nlinarith [Nat.two_pow_pos n]
    · exact h4 (readBit_bitcnt_le hu (by omega))
    · exact h4 (readBit_bitcnt_le hu hs)

theorem readBitsFrom_answers {P : Params} {n : Nat} (v : Nat) {s : State} (hp : PointerContract P s) :
    ∃ v' t, readBitsFrom P n v s = .ok (v', t) := by
  induction n generalizing v s with
  | zero => exact ⟨_, _, rfl⟩
  | succ n ih =>
    obtain ⟨b, u, hu⟩ := readBit_answers hp
    obtain ⟨v', t, h⟩ := ih (2 * v + b.toNat) ((readBit_move hu).1.contract hp)
    exact ⟨v', t, by rw [readBitsFrom_succ, hu, ok_bind]; exact h⟩

theorem readBits_move {P : Params} {n v : Nat} {s t : State} (h : readBits P n s = .ok (v, t)) :
    CursorMove s t ∧ v < 2 ^ n ∧
      (s.bitcnt.toNat ≤ 7 → t.bitcnt.toNat ≤ 7) ∧ (n ≠ 0 → s.bitcnt.toNat ≤ 8 → t.bitcnt.toNat ≤ 7) := by
  obtain ⟨h1, -, h2, h3⟩ := readBitsFrom_move h
  exact ⟨h1, by simpa using h2, h3⟩

theorem readBits_answers {P : Params} (n : Nat) {s : State} (hp : PointerContract P s) :
    ∃ v t, readBits P n s = .ok (v, t) := readBitsFrom_answers 0 hp

/-- A read of `m` bits and then `n` bits is a read of `m + n` bits. -/
theorem readBitsFrom_add (P : Params) (m n v : Nat) (s : State) :
    readBitsFrom P (m + n) v s = (readBitsFrom P m v s >>= fun r => readBitsFrom P n r.1 r.2) := by
  induction m generalizing v s with
  | zero => rw [Nat.zero_add]; rfl
  | succ m ih =>
    rw [Nat.add_right_comm, readBitsFrom_succ, readBitsFrom_succ]
    cases readBit P s with
    | error e => rfl
    | ok r => exact ih _ _

/-- The bits already read only shift the result. -/
theorem readBitsFrom_shift (P : Params) (n v : Nat) (s : State) :
    readBitsFrom P n v s = (readBits P n s).map fun r => (v * 2 ^ n + r.1, r.2) := by
  unfold readBits
  induction n generalizing v s with
  | zero => simp [readBitsFrom, Except.map]
  | succ n ih =>
    rw [readBitsFrom_succ, readBitsFrom_succ]
    cases readBit P s with
    | error e => rfl
    | ok r =>
      simp only [ok_bind]
      rw [ih, ih (2 * 0 + _)]
      cases readBitsFrom P n 0 r.2 with
      | error e => rfl
      | ok r' =>
        simp only [Except.map]
        congr 2
        rw [Nat.pow_succ]
        ring

/-- A read of `m + n` bits is a read of `m` and then of `n`, the first the most significant (20_memory.md R47). -/
theorem readBits_add (P : Params) (m n : Nat) (s : State) :
    readBits P (m + n) s =
      (readBits P m s >>= fun r => (readBits P n r.2).map fun r' => (r.1 * 2 ^ n + r'.1, r'.2)) := by
  rw [readBits, readBitsFrom_add]
  congr 1
  funext r
  exact readBitsFrom_shift P n r.1 r.2

theorem readBits_one (P : Params) (s : State) : readBits P 1 s = (readBit P s).map fun r => (r.1.toNat, r.2) := by
  rw [readBits, readBitsFrom_succ]
  cases readBit P s with
  | error e => rfl
  | ok r => simp [readBitsFrom, Except.map]

theorem readBit_of_ne {P : Params} {s : State} (h : s.bitcnt ≠ 0) : readBit P s = .ok (takeBit s) := by
  rw [readBit, refill_of_ne h, ok_bind]

/-- With an empty buffer `read_bit()` is bit 7 of the fetched byte (20_memory.md R47). -/
theorem readBit_of_fetch {P : Params} {s t : State} {b : Byte} (h : s.bitcnt = 0) (hf : fetchByte P s = .ok (b, t)) :
    readBit P s = .ok (b.msb, { t with bitbuf := b <<< 1, bitcnt := 7 }) := by
  have h7 : (8 : BitVec 4) - 1 = 7 := by decide
  rw [readBit, refill, if_pos h, hf, ← h7]
  rfl

theorem readBit_of_fetch_error {P : Params} {s : State} {f : Fault} (h : s.bitcnt = 0) (hf : fetchByte P s = .error f) :
    readBit P s = .error f := by
  rw [readBit, refill, if_pos h, hf]
  rfl

/-- A read that needs a bit past one that is stuck is stuck. -/
theorem readBits_stuck {P : Params} {k n v : Nat} {s t : State} {f : Fault} (h : readBits P k s = .ok (v, t))
    (hf : readBit P t = .error f) (hk : k < n) : readBits P n s = .error f := by
  obtain ⟨m, rfl⟩ : ∃ m, n = k + (m + 1) := ⟨n - k - 1, by omega⟩
  rw [readBits_add, h, ok_bind, readBits, readBitsFrom_succ, hf]
  rfl

/-! ### The fetch unit does not see the contexts -/

theorem cpbRead_ctx (P : Params) (m : Cells 7) (s : State) (a : Nat) :
    cpbRead P { s with ctx := m } a = cpbRead P s a := rfl

theorem startCodeAhead_ctx (P : Params) (m : Cells 7) (s : State) :
    startCodeAhead P { s with ctx := m } = startCodeAhead P s := rfl

theorem fetchLoop_ctx (P : Params) (m : Cells 7) (n : Nat) (s : State) :
    fetchLoop P n { s with ctx := m } = (fetchLoop P n s).map fun r => (r.1, { r.2 with ctx := m }) := by
  induction n generalizing s with
  | zero => rfl
  | succ n ih =>
    unfold fetchLoop
    rw [startCodeAhead_ctx]
    cases startCodeAhead P s with
    | error e => rfl
    | ok hit =>
      simp only [ok_bind]
      cases hit
      · simp only [Bool.false_eq_true, if_false, cpbRead_ctx]
        cases cpbRead P s s.cpbPtr.toNat with
        | error e => rfl
        | ok b =>
          simp only [ok_bind]
          split
          · exact ih { s with cpbPtr := s.cpbPtr + 1, zeros := 0 }
          · rfl
      · rfl

theorem readBit_ctx (P : Params) (m : Cells 7) (s : State) :
    readBit P { s with ctx := m } = (readBit P s).map fun r => (r.1, { r.2 with ctx := m }) := by
  unfold readBit refill fetchByte
  split
  · simp only [fetchLoop_ctx]
    cases fetchLoop P (s.cpbEnd.toNat - s.cpbPtr.toNat) s <;> rfl
  · rfl

end Sys2Proof.Machine
end

