-- ==== Sys2Proof/Laws/Cabac.lean ====
section
/-! SUPPORT. The CABAC unit's tables and everything renormalisation can do. -/

namespace Sys2Proof.Machine

/-- Every entry of `rangeTabLPS` is from 2 to 240 (42_cabac.md R101). -/
theorem rangeTabLPS_bounds (p : BitVec 6) (q : BitVec 2) : 2 ≤ rangeTabLPS p q ∧ rangeTabLPS p q ≤ 240 := by
  revert p q; decide

theorem renormUpTo_succ (P : Params) (k range offset : Nat) (s : State) (h : range < 256) :
    renormUpTo P (k + 1) range offset s =
      (readBit P s >>= fun r => renormUpTo P k (2 * range) (2 * offset + r.1.toNat) r.2) := if_pos h

theorem renormUpTo_done (P : Params) (k range offset : Nat) (s : State) (h : 256 ≤ range) :
    renormUpTo P k range offset s = .ok (range, offset, s) := by
  cases k with
  | zero => rfl
  | succ k => exact if_neg (by omega)

/-- Renormalisation that needs a bit past one that is stuck is stuck. -/
theorem renormUpTo_stuck {P : Params} {k n v range : Nat} (offset : Nat) {s t : State} {f : Fault}
    (h : readBits P k s = .ok (v, t)) (hf : readBit P t = .error f) (hk : k < n) (hr : range * 2 ^ k < 256) :
    renormUpTo P n range offset s = .error f := by
  induction k generalizing n v range offset s with
  | zero =>
    cases h
    obtain ⟨n, rfl⟩ : ∃ m, n = m + 1 := ⟨n - 1, by omega⟩
    rw [renormUpTo_succ _ _ _ _ _ (by simpa using hr), hf]
    rfl
  | succ k ih =>
    obtain ⟨n, rfl⟩ : ∃ m, n = m + 1 := ⟨n - 1, by omega⟩
    rw [Nat.add_comm k 1, readBits_add, readBits_one] at h
    rw [Nat.pow_succ] at hr
    rw [renormUpTo_succ _ _ _ _ _ (by nlinarith [Nat.two_pow_pos k])]
    cases hb : readBit P s with
    | error e => rw [hb] at h; cases h
    | ok r =>
      rw [hb] at h
      simp only [Except.map, ok_bind] at h
      cases hu : readBits P k r.2 with
      | error e => rw [hu] at h; cases h
      | ok r' =>
        rw [hu] at h
        simp only [Except.ok.injEq, Prod.mk.injEq] at h
        have hk' : k < n := by omega
        have hr' : 2 * range * 2 ^ k < 256 := by rwa [Nat.mul_comm 2 range, Nat.mul_assoc, Nat.mul_comm 2]
        obtain ⟨v', u⟩ := r'
        obtain ⟨-, rfl⟩ := h
        exact ih (2 * offset + r.1.toNat) hu hk' hr'

/-- Everything renormalisation can do when it answers: a cursor move, and the engine's bounds (42_cabac.md R104, R112). -/
theorem renormUpTo_move {P : Params} {k range offset range' offset' : Nat} {s t : State}
    (h : renormUpTo P k range offset s = .ok (range', offset', t)) :
    CursorMove s t ∧ (s.bitcnt.toNat ≤ 7 → t.bitcnt.toNat ≤ 7) ∧ (offset < range → offset' < range') ∧
      (range ≤ 510 → range' ≤ 510) ∧ (256 ≤ range * 2 ^ k → 256 ≤ range') := by
  induction k generalizing range offset s with
  | zero =>
    simp only [renormUpTo] at h
    cases h
    exact ⟨.rfl' _, id, id, id, by omega⟩
  | succ k ih =>
    by_cases hr : range < 256
    · rw [renormUpTo_succ _ _ _ _ _ hr, bind_eq_ok] at h
      obtain ⟨⟨b, u⟩, hu, h⟩ := h
      obtain ⟨h1, h2, h3, h4, h5⟩ := ih h
      have hb : b.toNat ≤ 1 := by cases b <;> decide
      refine ⟨(readBit_move hu).1.trans h1, fun hs => h2 (readBit_bitcnt_le hu (by omega)), fun ho => h3 ?_, fun _ => h4 (by omega),
        fun h => h5 ?_⟩
      · show 2 * offset + b.toNat < 2 * range
        omega
      · rw [Nat.pow_succ] at h; nlinarith
    · rw [renormUpTo_done _ _ _ _ _ (by omega)] at h
      cases h
      exact ⟨.rfl' _, id, id, id, fun _ => by omega⟩

theorem renormUpTo_answers {P : Params} {k range offset : Nat} {s : State} (hp : PointerContract P s) :
    ∃ range' offset' t, renormUpTo P k range offset s = .ok (range', offset', t) := by
  induction k generalizing range offset s with
  | zero => exact ⟨_, _, _, rfl⟩
  | succ k ih =>
    by_cases hr : range < 256
    · obtain ⟨b, u, hu⟩ := readBit_answers hp
      rw [renormUpTo_succ _ _ _ _ _ hr, hu, ok_bind]
      exact ih ((readBit_move hu).1.contract hp)
    · exact ⟨_, _, _, renormUpTo_done _ _ _ _ _ (by omega)⟩

/-- Renormalisation does not see the contexts. -/
theorem renormUpTo_ctx (P : Params) (m : Cells 7) (k range offset : Nat) (s : State) :
    renormUpTo P k range offset { s with ctx := m } =
      (renormUpTo P k range offset s).map fun r => (r.1, r.2.1, { r.2.2 with ctx := m }) := by
  induction k generalizing range offset s with
  | zero => rfl
  | succ k ih =>
    by_cases hr : range < 256
    · rw [renormUpTo_succ _ _ _ _ _ hr, renormUpTo_succ _ _ _ _ _ hr, readBit_ctx]
      cases readBit P s with
      | error e => rfl
      | ok r => exact ih _ _ _
    · rw [renormUpTo_done _ _ _ _ _ (by omega), renormUpTo_done _ _ _ _ _ (by omega)]
      rfl

/-- Seven shifts bring any range from 2 up to 256 (log 11). -/
theorem renorm_range {P : Params} {range offset range' offset' : Nat} {s t : State}
    (h : renorm P range offset s = .ok (range', offset', t)) (hr : 2 ≤ range) : 256 ≤ range' :=
  (renormUpTo_move h).2.2.2.2 (by omega)

/-- CABDEC's least probable branch (42_cabac.md R107). -/
theorem decideBin_lps {s : State} {i : BitVec 10} (h : s.codRange.toNat - lpsRange s i ≤ s.codOffset.toNat) :
    decideBin s i = (~~~(ctxV (ctxRead s i)), lpsRange s i, s.codOffset.toNat - (s.codRange.toNat - lpsRange s i),
      ctxWrite i (transTab (0#1 ++ ctxRead s i)) s) := if_pos (decide_eq_true h)

/-- CABDEC's most probable branch (42_cabac.md R107). -/
theorem decideBin_mps {s : State} {i : BitVec 10} (h : s.codOffset.toNat < s.codRange.toNat - lpsRange s i) :
    decideBin s i = (ctxV (ctxRead s i), s.codRange.toNat - lpsRange s i, s.codOffset.toNat,
      ctxWrite i (transTab (1#1 ++ ctxRead s i)) s) :=
  if_neg (by rw [decidesLps, decide_eq_true_eq]; omega)

theorem lpsRange_bounds (s : State) (i : BitVec 10) : 2 ≤ lpsRange s i ∧ lpsRange s i ≤ 240 := rangeTabLPS_bounds _ _

/-- CABSTART's last lines change the engine registers and STATUS only (42_cabac.md R105). -/
theorem startEngine_eq (bad : Bool) (offset : Nat) (s : State) :
    startEngine bad offset s = { s with codRange := 510
                                        codOffset := BitVec.ofNat 9 offset
                                        status := (startEngine bad offset s).status } := by
  unfold startEngine
  generalize decide (offset ≥ 510) = b
  cases bad <;> cases b <;> rfl

/-- CABINIT's contexts are all written: entry `i` reads its initial value (42_cabac.md R106). -/
theorem ctxRead_ctxWriteAll (s : State) (f : Nat → BitVec 7) (i : BitVec 10) :
    ctxRead (ctxWriteAll f s) i = f i.toNat := by
  simp only [ctxRead, ctxWriteAll]
  rw [cellGet_cellListing f 1024 i.toNat i.isLt]
  rfl

end Sys2Proof.Machine
end

