-- ==== Sys2Proof/Laws/Deblock.lean ====
section
/-! SUPPORT. What a line filter can answer: which samples, each once, and the bounds of their values. -/

namespace Sys2Proof.Machine

/-- Every clipping bound `tc0` is from 0 to 25 (45_deblock.md R161). -/
theorem tc0Tab_bounds (i bS : Nat) : 0 ≤ tc0Tab i bS ∧ tc0Tab i bS ≤ 25 := by
  have rows : ∀ r ∈ tc0Rows, ∀ v ∈ r, 0 ≤ v ∧ v ≤ 25 := by decide
  unfold tc0Tab
  rw [List.getD_eq_getElem?_getD]
  cases hr : (tc0Rows.getD i [])[bS - 1]? with
  | none => decide
  | some v =>
    rw [List.getD_eq_getElem?_getD] at hr
    cases hi : tc0Rows[i]? with
    | none => rw [hi] at hr; simp at hr
    | some r =>
      rw [hi] at hr
      exact rows r (List.mem_of_getElem? hi) v (List.mem_of_getElem? hr)

/-- A line filter does nothing at strength 0 (45_deblock.md R163). -/
theorem filterLine_zero (c : Comp) (t : Thresholds) (p q : Nat → Int) : filterLine c t 0 p q = [] := by
  cases c <;> rfl

theorem filterSamples_eq_false_of_alpha {t : Thresholds} (h : t.alpha ≤ 0) (bS : Nat) (p q : Nat → Int) :
    filterSamples t bS p q = false := by
  unfold filterSamples absInt
  rw [decide_eq_false_iff_not]
  split <;> omega

theorem filterSamples_eq_false_of_beta {t : Thresholds} (h : t.beta ≤ 0) (bS : Nat) (p q : Nat → Int) :
    filterSamples t bS p q = false := by
  unfold filterSamples
  rw [decide_eq_false_iff_not]
  rintro ⟨-, -, h1, -⟩
  unfold absInt at h1
  split at h1 <;> omega

theorem filterLine_of_filterSamples_false {c : Comp} {t : Thresholds} {bS : Nat} {p q : Nat → Int}
    (h : filterSamples t bS p q = false) : filterLine c t bS p q = [] := by
  cases c <;> simp [filterLine, lumaLine, chromaLine, h]

theorem softSecond_bounds {tc0 : Int} {p q : Nat → Int} (ht : 0 ≤ tc0) (hp : ∀ i, 0 ≤ p i ∧ p i ≤ 255)
    (hq : ∀ i, 0 ≤ q i ∧ q i ≤ 255) :
    0 ≤ softSecond tc0 p q ∧ softSecond tc0 p q ≤ 255 ∧ absInt (softSecond tc0 p q - p 1) ≤ tc0 := by
  have h0 := hp 0
  have h1 := hp 1
  have h2 := hp 2
  have h3 := hq 0
  unfold softSecond clip3 asr absInt
  refine ⟨?_, ?_, ?_⟩
  · split <;> [skip; split] <;> omega
  · split <;> [skip; split] <;> omega
  · split <;> split <;> omega

theorem softDelta_bounds {tc : Int} (ht : 0 ≤ tc) (p q : Nat → Int) : -tc ≤ softDelta tc p q ∧ softDelta tc p q ≤ tc :=
  clip3_bounds (by omega) _

/-- Clipping a sum never moves a sample further than the sum does. -/
theorem absInt_clip1_sub_le {v d m : Int} (hv : 0 ≤ v ∧ v ≤ 255) (hd : -m ≤ d ∧ d ≤ m) : absInt (clip1 (v + d) - v) ≤ m := by
  unfold absInt clip1 clip3
  split <;> split <;> omega

/-- The values of the strong filter are 8-bit without clipping (45_deblock.md R165). -/
theorem strongSide_bounds (t : Thresholds) {a b : Nat → Int} (ha : ∀ i, 0 ≤ a i ∧ a i ≤ 255)
    (hb : ∀ i, 0 ≤ b i ∧ b i ≤ 255) : ∀ v ∈ strongSide t a b, 0 ≤ v ∧ v ≤ 255 := by
  have h0 := ha 0
  have h1 := ha 1
  have h2 := ha 2
  have h3 := ha 3
  have h4 := hb 0
  have h5 := hb 1
  unfold strongSide asr
  split
  · simp only [List.mem_cons, List.not_mem_nil, or_false]
    rintro v (rfl | rfl | rfl) <;> omega
  · simp only [List.mem_cons, List.not_mem_nil, or_false]
    rintro v rfl
    omega

theorem strongSide_length (t : Thresholds) (a b : Nat → Int) : (strongSide t a b).length = 3 ∨ (strongSide t a b).length = 1 := by
  unfold strongSide
  split
  · exact .inl rfl
  · exact .inr rfl

/-- The offsets a line filter answers, in order: never p3 or q3, and each at most once (45_deblock.md R164 to R166). -/
theorem filterLine_offsets (c : Comp) (t : Thresholds) (bS : Nat) (p q : Nat → Int) :
    ((filterLine c t bS p q).map Prod.fst).Nodup ∧
    (∀ w ∈ filterLine c t bS p q, -3 ≤ w.1 ∧ w.1 ≤ 2) ∧
    (c ≠ .y → ∀ w ∈ filterLine c t bS p q, w.1 = -1 ∨ w.1 = 0) := by
  by_cases hf : filterSamples t bS p q = true
  · cases c with
    | y =>
      simp only [filterLine, lumaLine, hf, if_true]
      refine ⟨?_, ?_, fun h => absurd rfl h⟩
      · split
        · unfold lumaSoft
          simp only
          generalize decide (absInt (p 2 - p 0) < t.beta) = nearP
          generalize decide (absInt (q 2 - q 0) < t.beta) = nearQ
          cases nearP <;> cases nearQ <;> simp
        · unfold lumaStrong atOffsetsP atOffsetsQ strongSide
          split <;> split <;> simp
      · split
        · unfold lumaSoft
          simp only
          generalize decide (absInt (p 2 - p 0) < t.beta) = nearP
          generalize decide (absInt (q 2 - q 0) < t.beta) = nearQ
          cases nearP <;> cases nearQ <;> simp
        · unfold lumaStrong atOffsetsP atOffsetsQ strongSide
          split <;> split <;> simp
    | cb =>
      simp only [filterLine, chromaLine, hf, if_true]
      split <;> simp
    | cr =>
      simp only [filterLine, chromaLine, hf, if_true]
      split <;> simp
  · rw [filterLine_of_filterSamples_false (by simpa using hf)]
    simp

/-- The values a line filter answers are 8-bit (45_deblock.md R171). -/
theorem filterLine_values {c : Comp} {t : Thresholds} {bS : Nat} {p q : Nat → Int} (hp : ∀ i, 0 ≤ p i ∧ p i ≤ 255)
    (hq : ∀ i, 0 ≤ q i ∧ q i ≤ 255) : ∀ w ∈ filterLine c t bS p q, 0 ≤ w.2 ∧ w.2 ≤ 255 := by
  have h0 := hp 0
  have h1 := hp 1
  have h2 := hq 0
  have h3 := hq 1
  have ht := tc0Tab_bounds t.indexA bS
  have sp := softSecond_bounds ht.1 hp hq
  have sq := softSecond_bounds ht.1 hq hp
  have chroma : ∀ w ∈ chromaLine t bS p q, 0 ≤ w.2 ∧ w.2 ≤ 255 := by
    unfold chromaLine asr
    split
    · split
      · simp only [List.mem_cons, List.not_mem_nil, or_false]
        rintro w (rfl | rfl) <;> exact clip1_bounds _
      · simp only [List.mem_cons, List.not_mem_nil, or_false]
        rintro w (rfl | rfl) <;> simp only <;> omega
    · exact fun w hw => absurd hw List.not_mem_nil
  cases c with
  | cb => exact chroma
  | cr => exact chroma
  | y =>
    show ∀ w ∈ lumaLine t bS p q, _
    unfold lumaLine
    split
    · split
      · unfold lumaSoft
        intro w hw
        simp only [List.mem_append, List.mem_cons, List.not_mem_nil, or_false] at hw
        rcases hw with ((rfl | rfl) | hw) | hw
        · exact clip1_bounds _
        · exact clip1_bounds _
        · split at hw
          · rw [List.mem_singleton.1 hw]
            exact ⟨sp.1, sp.2.1⟩
          · exact absurd hw List.not_mem_nil
        · split at hw
          · rw [List.mem_singleton.1 hw]
            exact ⟨sq.1, sq.2.1⟩
          · exact absurd hw List.not_mem_nil
      · intro w hw
        unfold lumaStrong atOffsetsP atOffsetsQ at hw
        simp only [List.mem_append, List.mem_map] at hw
        rcases hw with ⟨v, hv, rfl⟩ | ⟨v, hv, rfl⟩
        · exact strongSide_bounds t hp hq _ (List.fst_mem_of_mem_zipIdx hv)
        · exact strongSide_bounds t hq hp _ (List.fst_mem_of_mem_zipIdx hv)
    · exact fun w hw => absurd hw List.not_mem_nil

theorem lineSample_bounds (s : State) (c : Comp) (dir : BitVec 1) (k : Nat) (o : Int) :
    0 ≤ lineSample s c dir k o ∧ lineSample s c dir k o ≤ 255 := byte_toNat_bounds _

end Sys2Proof.Machine
end

