-- ==== Sys2Proof/Laws/Encoding.lean ====
section
/-! SUPPORT. Words as numbers: the value of a field and of joined fields, and when the decoder accepts. Every proof about the
encoding rests on these and `omega`. -/

namespace Sys2Proof

/-- The value of a field of a word. -/
theorem field_toNat (w : Word) (lo len : Nat) : (w.extractLsb' lo len).toNat = w.toNat / 2 ^ lo % 2 ^ len := by
  rw [BitVec.extractLsb'_toNat, Nat.shiftRight_eq_div_pow]

/-- A field is zero. -/
theorem field_eq_zero_iff (w : Word) (lo len : Nat) :
    w.extractLsb' lo len = 0#len ↔ w.toNat / 2 ^ lo % 2 ^ len = 0 := by
  rw [← field_toNat, ← BitVec.toNat_inj]
  simp

theorem zeroAt_eq_true_iff (w : Word) (lo len : Nat) : zeroAt w lo len = true ↔ w.toNat / 2 ^ lo % 2 ^ len = 0 := by
  rw [zeroAt, beq_iff_eq, field_eq_zero_iff]

/-- The value of two joined fields. -/
theorem append_toNat {m n : Nat} (x : BitVec m) (y : BitVec n) : (x ++ y).toNat = x.toNat * 2 ^ n + y.toNat := by
  rw [BitVec.toNat_append, Nat.shiftLeft_eq, Nat.mul_comm, ← Nat.two_pow_add_eq_or_of_lt y.isLt]

/-- The decoder accepts exactly a well-formed command with its must-be-zero bits 0 (30_encoding.md R65). -/
theorem accept_eq_ok_iff {b : Bool} {i j : Instr} :
    accept b i = .ok j ↔ b = true ∧ i = j ∧ j.wellFormed = true := by
  unfold accept
  constructor
  · intro hj
    split at hj
    · next h =>
      have h : b = true ∧ i.wellFormed = true := by simpa using h
      cases hj
      exact ⟨h.1, rfl, h.2⟩
    · cases hj
  · rintro ⟨rfl, rfl, hw⟩
    rw [hw]
    rfl

end Sys2Proof
end

