-- ==== Sys2Proof/Laws/Exec.lean ====
section
/-! SUPPORT. What each command can do, said once: it records a fault, or it answers with no error from a state that its
`Effect` describes, or (a bit-consuming command past CpbSize) it is stuck. Every whole-machine proof starts here. -/

namespace Sys2Proof.Machine

@[simp] theorem respond_eq_next {v : Word} {s t : State} :
    respond v s = .next t ↔ t = { s with response := some ⟨false, v⟩ } :=
  ⟨fun h => (Host.Outcome.next.inj h).symm, fun h => h ▸ rfl⟩

@[simp] theorem raiseFault_eq_next {c : FaultCode} {s t : State} : raiseFault c s = .next t ↔ t = faultRecord c s :=
  ⟨fun h => (Host.Outcome.next.inj h).symm, fun h => h ▸ rfl⟩

theorem finish_eq_next {r : Except Fault (Word × State)} {t : State} :
    finish r = .next t ↔ ∃ v u, r = .ok (v, u) ∧ t = { u with response := some ⟨false, v⟩ } := by
  cases r with
  | error f => exact ⟨fun h => (nomatch h), fun ⟨_, _, h, _⟩ => (nomatch h)⟩
  | ok p =>
    refine ⟨fun h => ⟨p.1, p.2, rfl, respond_eq_next.1 h⟩, ?_⟩
    rintro ⟨v, u, h, h'⟩
    cases h
    exact respond_eq_next.2 h'

/-- The offset after a bypass bin with the bit `b` (42_cabac.md R108). -/
def bypassOffset (s : State) (b : Bool) : Nat :=
  if s.codRange.toNat ≤ 2 * s.codOffset.toNat + b.toNat then 2 * s.codOffset.toNat + b.toNat - s.codRange.toNat
  else 2 * s.codOffset.toNat + b.toNat

/-- What a command does to the state when it does not fault, up to the response. -/
def Effect (P : Params) : Instr → State → State → Prop
  | .nop, s, u | .rdreg _, s, u | .ctxrd _, s, u | .coefrd _, s, u | .smprd _ _, s, u => u = s
  | .wrl _ imm, s, u => ∃ r, regReadOnly r = false ∧ u = regWriteLow imm s r
  | .wrh _ _, s, u => u = { s with cpbPtr := u.cpbPtr, cpbEnd := u.cpbEnd }
  | .clrst mask, s, u => u = clearSticky mask s
  | .sreset, s, u => u = resetBlock s
  | .bsinit, s, u => u = clearFlag .cabact { s with bitbuf := 0, bitcnt := 0, zeros := 0 }
  | .rdbits n, s, u => n.toNat ≠ 0 ∧ flagOn .cabact s = false ∧ ∃ v, readBits P n.toNat s = .ok (v, u)
  | .cabstart, s, u => ∃ a s1 off s2 bad, readBits P s.bitcnt.toNat s = .ok (a, s1) ∧
      readBits P 9 s1 = .ok (off, s2) ∧ u = startEngine bad off s2
  | .cabinit _ _, s, u => ∃ f, u = ctxWriteAll f s
  | .cabdec i, s, u => flagOn .cabact s = true ∧ ∃ range offset w,
      renorm P (decideBin s i).2.1 (decideBin s i).2.2.1 (decideBin s i).2.2.2 = .ok (range, offset, w) ∧
      u = putEngine range offset w
  | .cabbyp, s, u => flagOn .cabact s = true ∧ ∃ b w, readBit P s = .ok (b, w) ∧
      u = { w with codOffset := BitVec.ofNat 9 (bypassOffset s b) }
  | .cabterm, s, u => flagOn .cabact s = true ∧
      (u = clearFlag .cabact { s with codRange := BitVec.ofNat 9 (s.codRange.toNat - 2) } ∨
        s.codOffset.toNat < s.codRange.toNat - 2 ∧ ∃ range offset w,
          renorm P (s.codRange.toNat - 2) s.codOffset.toNat s = .ok (range, offset, w) ∧ u = putEngine range offset w)
  | .ctxwr i v, s, u => u = ctxWrite i v s
  | .coefwr _ _, s, u | .coefclr, s, u | .deq4 _, s, u | .deq8 _, s, u | .idct4, s, u | .idct8, s, u =>
      u = { s with coef := u.coef }
  | .wswr _ _, s, u => u = { s with ws := u.ws }
  | .add4 _, s, u | .add8 _, s, u | .mcluma _ _ _ _, s, u | .mcchroma _ _ _ _ _, s, u | .dbkluma _, s, u
  | .dbkchroma _ _, s, u | .smpwr _ _ _, s, u => ∃ slot c l, u = fbWriteAll slot c l s

/-- A command faults, or answers without error from a state its effect describes. -/
def Outcome (P : Params) (i : Instr) (s : State) (r : Result) : Prop :=
  ∀ t, r = .next t →
    (∃ c, t = faultRecord c s) ∨ ∃ v u, Effect P i s u ∧ t = { u with response := some ⟨false, v⟩ }

theorem Outcome.raise (P : Params) (i : Instr) (s : State) (c : FaultCode) : Outcome P i s (raiseFault c s) :=
  fun _ h => .inl ⟨c, raiseFault_eq_next.1 h⟩

theorem Outcome.respond {P : Params} {i : Instr} {s u : State} {v : Word} (h : Effect P i s u) :
    Outcome P i s (respond v u) := fun _ ht => .inr ⟨v, u, h, respond_eq_next.1 ht⟩

theorem Outcome.finish {P : Params} {i : Instr} {s : State} {r : Except Fault (Word × State)}
    (h : ∀ v u, r = .ok (v, u) → Effect P i s u) : Outcome P i s (finish r) := fun _ ht =>
  let ⟨v, u, hr, ht⟩ := finish_eq_next.1 ht
  .inr ⟨v, u, h v u hr, ht⟩

theorem execWrl_outcome (reg : BitVec 8) (imm : BitVec 16) (s : State) :
    Outcome Config.params (.wrl reg imm) s (execWrl reg imm s) := by
  unfold execWrl
  split
  · exact .raise _ _ _ _
  · next r _ =>
    split
    · exact .raise _ _ _ _
    · next h => exact .respond ⟨r, by simpa using h, rfl⟩

theorem execWrh_outcome (reg : BitVec 8) (imm : BitVec 16) (s : State) :
    Outcome Config.params (.wrh reg imm) s (execWrh reg imm s) := by
  unfold execWrh
  split
  · exact .respond rfl
  · exact .respond rfl
  · exact .raise _ _ _ _

theorem execRdreg_outcome (reg : BitVec 8) (s : State) : Outcome Config.params (.rdreg reg) s (execRdreg reg s) := by
  unfold execRdreg
  split
  · exact .raise _ _ _ _
  · exact .respond rfl

theorem bsinit_outcome (P : Params) (s : State) : Outcome P .bsinit s (bsinit P s) := by
  unfold bsinit
  split
  · exact .respond rfl
  · exact .raise _ _ _ _

theorem rdbits_outcome (P : Params) (n : BitVec 6) (s : State) : Outcome P (.rdbits n) s (rdbits P n s) := by
  unfold rdbits
  split
  · exact .raise _ _ _ _
  · split
    · exact .raise _ _ _ _
    · next h1 h2 =>
      refine .finish fun v u h => ?_
      obtain ⟨⟨w, t⟩, ht, h⟩ := bind_eq_ok.1 h
      cases h
      exact ⟨fun h => h1 (.inl h), by simpa using h2, w, ht⟩

theorem cabstart_outcome (P : Params) (s : State) : Outcome P .cabstart s (cabstart P s) := by
  refine .finish fun v u h => ?_
  obtain ⟨⟨a, s1⟩, h1, h⟩ := bind_eq_ok.1 h
  obtain ⟨⟨off, s2⟩, h2, h⟩ := bind_eq_ok.1 h
  cases h
  exact ⟨a, s1, off, s2, _, h1, h2, rfl⟩

theorem cabinit_outcome (P : Params) (col : BitVec 2) (qp : BitVec 6) (s : State) :
    Outcome P (.cabinit col qp) s (cabinit P col qp s) := by
  unfold cabinit
  split
  · exact .raise _ _ _ _
  · exact .respond ⟨_, rfl⟩

theorem cabdec_outcome (P : Params) (i : BitVec 10) (s : State) : Outcome P (.cabdec i) s (cabdec P i s) := by
  unfold cabdec
  split
  · next hc =>
    refine .finish fun v u h => ?_
    obtain ⟨⟨range, offset, w⟩, h1, h⟩ := bind_eq_ok.1 h
    cases h
    exact ⟨hc, range, offset, w, h1, rfl⟩
  · exact .raise _ _ _ _

theorem cabbyp_outcome (P : Params) (s : State) : Outcome P .cabbyp s (cabbyp P s) := by
  unfold cabbyp
  split
  · next hc =>
    refine .finish fun v u h => ?_
    obtain ⟨⟨b, w⟩, h1, h⟩ := bind_eq_ok.1 h
    refine ⟨hc, b, w, h1, ?_⟩
    unfold bypassOffset
    simp only [ge_iff_le] at h
    split at h
    · cases h
      rw [if_pos (by assumption)]
    · cases h
      rw [if_neg (by assumption)]
  · exact .raise _ _ _ _

theorem cabterm_outcome (P : Params) (s : State) : Outcome P .cabterm s (cabterm P s) := by
  unfold cabterm
  split
  · next hc =>
    simp only
    split
    · exact .respond ⟨hc, .inl rfl⟩
    · refine .finish fun v u h => ?_
      obtain ⟨⟨range, offset, w⟩, h1, h⟩ := bind_eq_ok.1 h
      cases h
      exact ⟨hc, .inr ⟨by omega, range, offset, w, h1, rfl⟩⟩
  · exact .raise _ _ _ _

theorem deq4_outcome (P : Params) (qp : BitVec 6) (s : State) : Outcome P (.deq4 qp) s (deq4 P qp s) := by
  unfold deq4
  split
  · exact .raise _ _ _ _
  · exact .respond rfl

theorem deq8_outcome (P : Params) (qp : BitVec 6) (s : State) : Outcome P (.deq8 qp) s (deq8 P qp s) := by
  unfold deq8
  split
  · exact .raise _ _ _ _
  · exact .respond rfl

/-- A command of the frame store faults or writes a list of samples of one plane. -/
def FbOutcome (s : State) (r : Result) : Prop :=
  (∃ c, r = raiseFault c s) ∨ ∃ v slot c l, r = respond v (fbWriteAll slot c l s)

theorem FbOutcome.outcome {P : Params} {i : Instr} {s : State} {r : Result} (h : FbOutcome s r)
    (hi : ∀ slot c l, Effect P i s (fbWriteAll slot c l s)) : Outcome P i s r := by
  rcases h with ⟨c, rfl⟩ | ⟨v, slot, c, l, rfl⟩
  · exact .raise _ _ _ _
  · exact .respond (hi _ _ _)

theorem addBlock_fbOutcome (P : Params) (n : Nat) (comp : BitVec 2) (s : State) : FbOutcome s (addBlock P n comp s) := by
  unfold addBlock
  split
  · exact .inl ⟨_, rfl⟩
  · split
    · exact .inr ⟨_, _, _, _, rfl⟩
    · exact .inl ⟨_, rfl⟩

theorem motionBlock_fbOutcome (P : Params) (c : Comp) (ref : BitVec 5) (wc hc mode : BitVec 2) (s : State) :
    FbOutcome s (motionBlock P c ref wc hc mode s) := by
  unfold motionBlock
  split
  · split
    · exact .inr ⟨_, _, _, _, rfl⟩
    · exact .inl ⟨_, rfl⟩
  · exact .inl ⟨_, rfl⟩

theorem deblockEdge_fbOutcome (P : Params) (c : Comp) (dir : BitVec 1) (s : State) : FbOutcome s (deblockEdge P c dir s) := by
  unfold deblockEdge
  split
  · split
    · exact .inr ⟨_, _, _, _, rfl⟩
    · exact .inl ⟨_, rfl⟩
  · exact .inl ⟨_, rfl⟩

theorem smpwr_fbOutcome (P : Params) (slot : BitVec 5) (comp : BitVec 2) (val : Byte) (s : State) :
    FbOutcome s (smpwr P slot comp val s) := by
  unfold smpwr withSample
  split
  · exact .inl ⟨_, rfl⟩
  · split
    · exact .inr ⟨_, _, _, _, rfl⟩
    · exact .inl ⟨_, rfl⟩

theorem smprd_outcome (P : Params) (slot : BitVec 5) (comp : BitVec 2) (s : State) :
    Outcome P (.smprd slot comp) s (smprd P slot comp s) := by
  unfold smprd withSample
  split
  · exact .raise _ _ _ _
  · split
    · exact .respond rfl
    · exact .raise _ _ _ _

/-- CABDEC writes one context before it renormalises. -/
theorem decideBin_state (s : State) (i : BitVec 10) : ∃ v, (decideBin s i).2.2.2 = ctxWrite i v s := by
  unfold decideBin
  simp only
  split <;> exact ⟨_, rfl⟩

/-- Everything a command can do when it is answered. -/
theorem exec_outcome (i : Instr) (s : State) : Outcome Config.params i s (exec i s) := by
  cases i with
  | nop => exact .respond rfl
  | wrl reg imm => exact execWrl_outcome reg imm s
  | wrh reg imm => exact execWrh_outcome reg imm s
  | rdreg reg => exact execRdreg_outcome reg s
  | clrst mask => exact .respond rfl
  | sreset => exact .respond rfl
  | bsinit => exact bsinit_outcome _ s
  | rdbits n => exact rdbits_outcome _ n s
  | cabstart => exact cabstart_outcome _ s
  | cabinit col qp => exact cabinit_outcome _ col qp s
  | cabdec ctxIdx => exact cabdec_outcome _ ctxIdx s
  | cabbyp => exact cabbyp_outcome _ s
  | cabterm => exact cabterm_outcome _ s
  | ctxwr ctxIdx val => exact .respond rfl
  | ctxrd ctxIdx => exact .respond rfl
  | coefwr idx imm => exact .respond rfl
  | coefrd idx => exact .respond rfl
  | coefclr => exact .respond rfl
  | wswr idx val => exact .respond rfl
  | deq4 qp => exact deq4_outcome _ qp s
  | deq8 qp => exact deq8_outcome _ qp s
  | idct4 => exact .respond rfl
  | idct8 => exact .respond rfl
  | add4 comp => exact (addBlock_fbOutcome _ 4 comp s).outcome fun _ _ _ => ⟨_, _, _, rfl⟩
  | add8 comp => exact (addBlock_fbOutcome _ 8 comp s).outcome fun _ _ _ => ⟨_, _, _, rfl⟩
  | mcluma ref wc hc mode => exact (motionBlock_fbOutcome _ _ ref wc hc mode s).outcome fun _ _ _ => ⟨_, _, _, rfl⟩
  | mcchroma cr ref wc hc mode => exact (motionBlock_fbOutcome _ _ ref wc hc mode s).outcome fun _ _ _ => ⟨_, _, _, rfl⟩
  | dbkluma dir => exact (deblockEdge_fbOutcome _ _ dir s).outcome fun _ _ _ => ⟨_, _, _, rfl⟩
  | dbkchroma cr dir => exact (deblockEdge_fbOutcome _ _ dir s).outcome fun _ _ _ => ⟨_, _, _, rfl⟩
  | smprd slot comp => exact smprd_outcome _ slot comp s
  | smpwr slot comp val => exact (smpwr_fbOutcome _ slot comp val s).outcome fun _ _ _ => ⟨_, _, _, rfl⟩

/-- Everything a delivered word can do when it is answered (30_encoding.md R65, 60_exceptions.md R183). -/
theorem execWord_outcome {w : Word} {s t : State} (h : execWord w s = .next t) :
    (∃ c, t = faultRecord c s) ∨
      ∃ i v u, decode w = .ok i ∧ Effect Config.params i s u ∧ t = { u with response := some ⟨false, v⟩ } := by
  unfold execWord at h
  split at h
  · next i hi =>
    rcases exec_outcome i s t h with h | ⟨v, u, h1, h2⟩
    · exact .inl h
    · exact .inr ⟨i, v, u, hi, h1, h2⟩
  · exact .inl ⟨_, raiseFault_eq_next.1 h⟩

end Sys2Proof.Machine
end

