-- ==== Sys2Proof/Laws/PerInstr.lean ====
section
/-! SUPPORT. Statements made per instruction. OpcodeOf: the encoded word of a command has the opcode the opcode map gives it
(30_encoding.md R63). -/

namespace Sys2Proof.Laws

/-- The opcode of a command (30_encoding.md R63). -/
def OpcodeOf.opcode : Instr → Nat
  | .nop => 0x00
  | .wrl _ _ => 0x01
  | .wrh _ _ => 0x02
  | .rdreg _ => 0x03
  | .clrst _ => 0x04
  | .sreset => 0x05
  | .bsinit => 0x10
  | .rdbits _ => 0x11
  | .cabstart => 0x20
  | .cabinit _ _ => 0x21
  | .cabdec _ => 0x22
  | .cabbyp => 0x23
  | .cabterm => 0x24
  | .ctxwr _ _ => 0x25
  | .ctxrd _ => 0x26
  | .coefwr _ _ => 0x30
  | .coefrd _ => 0x31
  | .coefclr => 0x32
  | .wswr _ _ => 0x33
  | .deq4 _ => 0x34
  | .deq8 _ => 0x35
  | .idct4 => 0x36
  | .idct8 => 0x37
  | .add4 _ => 0x38
  | .add8 _ => 0x39
  | .mcluma _ _ _ _ => 0x40
  | .mcchroma _ _ _ _ _ => 0x41
  | .dbkluma _ => 0x50
  | .dbkchroma _ _ => 0x51
  | .smprd _ _ => 0x60
  | .smpwr _ _ _ => 0x61

/-- Bits 31:24 of the encoded word are the command's opcode (30_encoding.md R60, R63). -/
def OpcodeOf.Statement (i : Instr) : Prop := (field (encode i) 24 8).toNat = OpcodeOf.opcode i

theorem OpcodeOf.nop : OpcodeOf.Statement .nop := by
  rfl

theorem OpcodeOf.wrl (reg : BitVec 8) (imm : BitVec 16) : OpcodeOf.Statement (.wrl reg imm) := by
  simp only [OpcodeOf.Statement, OpcodeOf.opcode, field_toNat, encode, append_toNat, BitVec.toNat_ofNat]
  omega

theorem OpcodeOf.wrh (reg : BitVec 8) (imm : BitVec 16) : OpcodeOf.Statement (.wrh reg imm) := by
  simp only [OpcodeOf.Statement, OpcodeOf.opcode, field_toNat, encode, append_toNat, BitVec.toNat_ofNat]
  omega

theorem OpcodeOf.rdreg (reg : BitVec 8) : OpcodeOf.Statement (.rdreg reg) := by
  simp only [OpcodeOf.Statement, OpcodeOf.opcode, field_toNat, encode, append_toNat, BitVec.toNat_ofNat]
  omega

theorem OpcodeOf.clrst (mask : BitVec 4) : OpcodeOf.Statement (.clrst mask) := by
  simp only [OpcodeOf.Statement, OpcodeOf.opcode, field_toNat, encode, append_toNat, BitVec.toNat_ofNat]
  omega

theorem OpcodeOf.sreset : OpcodeOf.Statement .sreset := by
  rfl

theorem OpcodeOf.bsinit : OpcodeOf.Statement .bsinit := by
  rfl

theorem OpcodeOf.rdbits (n : BitVec 6) : OpcodeOf.Statement (.rdbits n) := by
  simp only [OpcodeOf.Statement, OpcodeOf.opcode, field_toNat, encode, append_toNat, BitVec.toNat_ofNat]
  omega

theorem OpcodeOf.cabstart : OpcodeOf.Statement .cabstart := by
  rfl

theorem OpcodeOf.cabinit (col : BitVec 2) (qp : BitVec 6) : OpcodeOf.Statement (.cabinit col qp) := by
  simp only [OpcodeOf.Statement, OpcodeOf.opcode, field_toNat, encode, append_toNat, BitVec.toNat_ofNat]
  omega

theorem OpcodeOf.cabdec (ctxIdx : BitVec 10) : OpcodeOf.Statement (.cabdec ctxIdx) := by
  simp only [OpcodeOf.Statement, OpcodeOf.opcode, field_toNat, encode, append_toNat, BitVec.toNat_ofNat]
  omega

theorem OpcodeOf.cabbyp : OpcodeOf.Statement .cabbyp := by
  rfl

theorem OpcodeOf.cabterm : OpcodeOf.Statement .cabterm := by
  rfl

theorem OpcodeOf.ctxwr (ctxIdx : BitVec 10) (val : BitVec 7) : OpcodeOf.Statement (.ctxwr ctxIdx val) := by
  simp only [OpcodeOf.Statement, OpcodeOf.opcode, field_toNat, encode, append_toNat, BitVec.toNat_ofNat]
  omega

theorem OpcodeOf.ctxrd (ctxIdx : BitVec 10) : OpcodeOf.Statement (.ctxrd ctxIdx) := by
  simp only [OpcodeOf.Statement, OpcodeOf.opcode, field_toNat, encode, append_toNat, BitVec.toNat_ofNat]
  omega

theorem OpcodeOf.coefwr (idx : BitVec 6) (imm : BitVec 16) : OpcodeOf.Statement (.coefwr idx imm) := by
  simp only [OpcodeOf.Statement, OpcodeOf.opcode, field_toNat, encode, append_toNat, BitVec.toNat_ofNat]
  omega

theorem OpcodeOf.coefrd (idx : BitVec 6) : OpcodeOf.Statement (.coefrd idx) := by
  simp only [OpcodeOf.Statement, OpcodeOf.opcode, field_toNat, encode, append_toNat, BitVec.toNat_ofNat]
  omega

theorem OpcodeOf.coefclr : OpcodeOf.Statement .coefclr := by
  rfl

theorem OpcodeOf.wswr (idx : BitVec 6) (val : BitVec 8) : OpcodeOf.Statement (.wswr idx val) := by
  simp only [OpcodeOf.Statement, OpcodeOf.opcode, field_toNat, encode, append_toNat, BitVec.toNat_ofNat]
  omega

theorem OpcodeOf.deq4 (qp : BitVec 6) : OpcodeOf.Statement (.deq4 qp) := by
  simp only [OpcodeOf.Statement, OpcodeOf.opcode, field_toNat, encode, append_toNat, BitVec.toNat_ofNat]
  omega

theorem OpcodeOf.deq8 (qp : BitVec 6) : OpcodeOf.Statement (.deq8 qp) := by
  simp only [OpcodeOf.Statement, OpcodeOf.opcode, field_toNat, encode, append_toNat, BitVec.toNat_ofNat]
  omega

theorem OpcodeOf.idct4 : OpcodeOf.Statement .idct4 := by
  rfl

theorem OpcodeOf.idct8 : OpcodeOf.Statement .idct8 := by
  rfl

theorem OpcodeOf.add4 (comp : BitVec 2) : OpcodeOf.Statement (.add4 comp) := by
  simp only [OpcodeOf.Statement, OpcodeOf.opcode, field_toNat, encode, append_toNat, BitVec.toNat_ofNat]
  omega

theorem OpcodeOf.add8 (comp : BitVec 2) : OpcodeOf.Statement (.add8 comp) := by
  simp only [OpcodeOf.Statement, OpcodeOf.opcode, field_toNat, encode, append_toNat, BitVec.toNat_ofNat]
  omega

theorem OpcodeOf.mcluma (ref : BitVec 5) (wc : BitVec 2) (hc : BitVec 2) (mode : BitVec 2) : OpcodeOf.Statement (.mcluma ref wc hc mode) := by
  simp only [OpcodeOf.Statement, OpcodeOf.opcode, field_toNat, encode, append_toNat, BitVec.toNat_ofNat]
  omega

theorem OpcodeOf.mcchroma (cr : BitVec 1) (ref : BitVec 5) (wc : BitVec 2) (hc : BitVec 2) (mode : BitVec 2) : OpcodeOf.Statement (.mcchroma cr ref wc hc mode) := by
  simp only [OpcodeOf.Statement, OpcodeOf.opcode, field_toNat, encode, append_toNat, BitVec.toNat_ofNat]
  omega

theorem OpcodeOf.dbkluma (dir : BitVec 1) : OpcodeOf.Statement (.dbkluma dir) := by
  simp only [OpcodeOf.Statement, OpcodeOf.opcode, field_toNat, encode, append_toNat, BitVec.toNat_ofNat]
  omega

theorem OpcodeOf.dbkchroma (cr : BitVec 1) (dir : BitVec 1) : OpcodeOf.Statement (.dbkchroma cr dir) := by
  simp only [OpcodeOf.Statement, OpcodeOf.opcode, field_toNat, encode, append_toNat, BitVec.toNat_ofNat]
  omega

theorem OpcodeOf.smprd (slot : BitVec 5) (comp : BitVec 2) : OpcodeOf.Statement (.smprd slot comp) := by
  simp only [OpcodeOf.Statement, OpcodeOf.opcode, field_toNat, encode, append_toNat, BitVec.toNat_ofNat]
  omega

theorem OpcodeOf.smpwr (slot : BitVec 5) (comp : BitVec 2) (val : BitVec 8) : OpcodeOf.Statement (.smpwr slot comp val) := by
  simp only [OpcodeOf.Statement, OpcodeOf.opcode, field_toNat, encode, append_toNat, BitVec.toNat_ofNat]
  omega

end Sys2Proof.Laws
end

