-- ==== Sys2Proof/Tests/Slice0.lean ====
section
/-! SUPPORT. Tests on fixed values (expected results from the spec's examples and 95_test_vectors.md) and, for every
obligation with hypotheses, states and operands that meet them. -/

namespace Sys2Proof.Tests

open Sys2Proof Sys2Proof.Machine

/-! ### Helpers -/

/-- The parameters of 95_test_vectors.md: `CpbSize` large enough, `MaxMbsW` = `MaxMbsH` = 2, `DeqRound` false, and the test
table of its section 2.2 for column 0. -/
def params : Params where
  cpbSize := 64
  maxMbsWLessOne := 1
  maxMbsHLessOne := 1
  deqRound := false
  ctxInitMN := fun col i =>
    if col = 0 then
      match i.toNat with
      | 0 => (20#8, 241#8)
      | 1 => (228#8, 127#8)
      | 2 => (0#8, 64#8)
      | 3 => (0#8, 192#8)
      | 4 => (127#8, 127#8)
      | 5 => (128#8, 128#8)
      | _ => (0#8, 0#8)
    else (0#8, 0#8)

/-- The state a meaning answers with; the reset state where it stops. -/
def after : Result → State
  | .next t => t
  | .fault _ => State.reset
  | .refused _ => State.reset

/-- The response a meaning gives: (err, data). -/
def answer : Result → Option (Bool × Nat)
  | .next t => t.response.map fun r => (r.err, r.data.toNat)
  | .fault _ => none
  | .refused _ => none

/-- A reset state with these CPB bytes, CPB_END after the last. -/
def withCpb (bytes : List Byte) : State :=
  { State.reset with cpb := bytes.zipIdx.map fun b => (b.2, b.1), cpbEnd := BitVec.ofNat 32 bytes.length }

/-- A reset state with a picture of one macroblock and the block position (x, y). -/
def picture (x y : BitVec 16) : State := { State.reset with picW := 1, picH := 1, dstX := x, dstY := y }

/-- A reset state with an active engine. -/
def engine (range offset : BitVec 9) : State :=
  { State.reset with status := 1, codRange := range, codOffset := offset }

/-- The engine of R107's first example: the stream `4B 5A C3 1E 80` after CABSTART, CTX[5] = 0. -/
def streamEngine : State :=
  { withCpb [0x4B, 0x5A, 0xC3, 0x1E, 0x80] with
    status := 1, codRange := 510, codOffset := 150, cpbPtr := 2, bitbuf := 0xB4, bitcnt := 7, ctx := [(5, 0)] }

/-- The reset coefficient file with these first entries. -/
def coefs (l : List Int) : Coefs := Vector.ofFn fun k : Fin 64 => BitVec.ofInt 32 (l.getD k.val 0)

/-! ### WellFormed refuses each ill-formed term -/

theorem smoke_add4_comp : (Instr.add4 3).wellFormed = false := by decide
theorem smoke_add8_comp : (Instr.add8 3).wellFormed = false := by decide
theorem smoke_mcluma_wc : (Instr.mcluma 0 3 0 0).wellFormed = false := by decide
theorem smoke_mcluma_hc : (Instr.mcluma 0 0 3 0).wellFormed = false := by decide
theorem smoke_mcluma_mode : (Instr.mcluma 0 0 0 3).wellFormed = false := by decide
theorem smoke_mcchroma_wc : (Instr.mcchroma 1 0 3 0 0).wellFormed = false := by decide
theorem smoke_mcchroma_hc : (Instr.mcchroma 1 0 0 3 0).wellFormed = false := by decide
theorem smoke_mcchroma_mode : (Instr.mcchroma 1 0 0 0 3).wellFormed = false := by decide
theorem smoke_smprd_comp : (Instr.smprd 0 3).wellFormed = false := by decide
theorem smoke_smpwr_comp : (Instr.smpwr 0 3 0).wellFormed = false := by decide
theorem smoke_legal : (Instr.mcchroma 1 31 2 2 2).wellFormed = true ∧ (Instr.smpwr 31 2 255).wellFormed = true := by decide

/-! ### Decoding: words written out from the formats of 30_encoding.md R61, R63 and the rules' examples -/

theorem decode_nop : decode 0x00000000#32 = .ok .nop := by decide
theorem decode_wrl : decode 0x0102FFFC#32 = .ok (.wrl 0x02 0xFFFC) := by decide
theorem decode_wrh : decode 0x02150001#32 = .ok (.wrh 0x15 1) := by decide
theorem decode_rdreg : decode 0x03100000#32 = .ok (.rdreg 0x10) := by decide
theorem decode_clrst : decode 0x04000012#32 = .ok (.clrst 0b1001) := by decide
theorem decode_sreset : decode 0x05000000#32 = .ok .sreset := by decide
theorem decode_bsinit : decode 0x10000000#32 = .ok .bsinit := by decide
theorem decode_rdbits : decode 0x11000021#32 = .ok (.rdbits 33) := by decide
theorem decode_cabstart : decode 0x20000000#32 = .ok .cabstart := by decide
theorem decode_cabinit : decode 0x2100031A#32 = .ok (.cabinit 3 26) := by decide
theorem decode_cabdec : decode 0x22000005#32 = .ok (.cabdec 5) := by decide
theorem decode_cabbyp : decode 0x23000000#32 = .ok .cabbyp := by decide
theorem decode_cabterm : decode 0x24000000#32 = .ok .cabterm := by decide
theorem decode_ctxwr : decode 0x257F03FF#32 = .ok (.ctxwr 1023 127) := by decide
theorem decode_ctxrd : decode 0x26000007#32 = .ok (.ctxrd 7) := by decide
theorem decode_coefwr : decode 0x303F8000#32 = .ok (.coefwr 63 0x8000) := by decide
theorem decode_coefrd : decode 0x31010000#32 = .ok (.coefrd 1) := by decide
theorem decode_coefclr : decode 0x32000000#32 = .ok .coefclr := by decide
theorem decode_wswr : decode 0x33050014#32 = .ok (.wswr 5 20) := by decide
theorem decode_deq4 : decode 0x3400001C#32 = .ok (.deq4 28) := by decide
theorem decode_deq8 : decode 0x3500001E#32 = .ok (.deq8 30) := by decide
theorem decode_idct4 : decode 0x36000000#32 = .ok .idct4 := by decide
theorem decode_idct8 : decode 0x37000000#32 = .ok .idct8 := by decide
theorem decode_add4 : decode 0x38000000#32 = .ok (.add4 0) := by decide
theorem decode_add8 : decode 0x39000001#32 = .ok (.add8 1) := by decide
theorem decode_mcluma : decode 0x40002601#32 = .ok (.mcluma 1 2 1 2) := by decide
theorem decode_mcchroma : decode 0x41010501#32 = .ok (.mcchroma 1 1 1 1 0) := by decide
theorem decode_dbkluma : decode 0x50000001#32 = .ok (.dbkluma 1) := by decide
theorem decode_dbkchroma : decode 0x51000100#32 = .ok (.dbkchroma 1 0) := by decide
theorem decode_smprd : decode 0x60000103#32 = .ok (.smprd 3 1) := by decide
theorem decode_smpwr : decode 0x61AB0003#32 = .ok (.smpwr 3 0 0xAB) := by decide

/-- Reserved bits, one word for each must-be-zero range of a format (95_test_vectors.md sections 2.2, 2.4, 3, 4.5, 5.4, 6). -/
theorem decode_reserved_bits :
    [0x00000001#32, 0x03100001#32, 0x04000001#32, 0x04000020#32, 0x11000040#32, 0x10000001#32, 0x2100041A#32, 0x21000074#32,
     0x25800007#32, 0x26000400#32, 0x22000403#32, 0x30400000#32, 0x31000001#32, 0x33000100#32, 0x38000003#32, 0x38000004#32,
     0x40003001#32, 0x40000301#32, 0x40010001#32, 0x40000021#32, 0x50000100#32, 0x51000002#32].all
      (fun w => decode w = .error .reservedBits) = true := by decide

theorem decode_unassigned :
    [0x06000000#32, 0x99000000#32, 0xFFFFFFFF#32].all (fun w => decode w = .error .unassignedOpcode) = true := by decide

theorem test_table_word : decodeTableWord 32 0x11000008 = some (.rdbits 8) ∧ decodeTableWord 32 0x11000048 = none := by decide

theorem test_withFetchWord : step (State.reset.withFetchWord 32 0x0102FFFC) =
    .next { State.reset with mvX := 0xFFFC, response := some ⟨false, 0⟩ } := rfl

/-! ### System commands (95_test_vectors.md 6.1) -/

theorem test_nop : answer (exec .nop State.reset) = some (false, 0) := by decide
theorem test_wrl_truncates : (after (exec (.wrl 0x0A 0xFF) State.reset)).qpav = 63 := by decide
theorem test_wrl_clears_high_half :
    (after (exec (.wrl 0x15 7) { State.reset with cpbEnd := 0x12345 })).cpbEnd = 7 := by decide
theorem test_wrh_keeps_low_half :
    (after (exec (.wrh 0x15 1) { State.reset with cpbEnd := 0x2345 })).cpbEnd = 0x12345 := by decide
theorem test_wrh_faults : answer (exec (.wrh 0x00 0) State.reset) = some (true, 3) := by decide
theorem test_rdreg_sign_extends :
    answer (exec (.rdreg 0x0B) { State.reset with foa := 0xFA }) = some (false, 0xFFFFFFFA) := by decide
theorem test_rdreg_bitbuf :
    answer (exec (.rdreg 0x18) { State.reset with zeros := 2, bitcnt := 7, bitbuf := 0xB4 }) = some (false, 0x27B4) := by decide
theorem test_clrst_keeps_cabact :
    (after (exec (.clrst 0b1001) { State.reset with status := 0b11111, faultcode := 3 })).status = 0b01101 ∧
    (after (exec (.clrst 0b1001) { State.reset with status := 0b11111, faultcode := 3 })).faultcode = 0 := by decide
theorem test_sreset : (after (exec .sreset { State.reset with mvX := 5, status := 31, ws := Vector.replicate 64 1 })).ws[7] = 16 := by
  decide
theorem test_fault_keeps_first_code :
    (after (execWord 0x06000000 { State.reset with status := 16, faultcode := 3 })).faultcode = 3 ∧
    answer (execWord 0x06000000 { State.reset with status := 16, faultcode := 3 }) = some (true, 1) := by decide

/-! ### Bitstream commands (95_test_vectors.md 6.2, 6.3) -/

theorem test_bsinit_past_end :
    answer (bsinit { params with cpbSize := 4 } { State.reset with cpbPtr := 3, cpbEnd := 5 }) = some (true, 7) := by decide
theorem test_bsinit_empty_range :
    answer (bsinit { params with cpbSize := 4 } { State.reset with cpbPtr := 3, cpbEnd := 3 }) = some (false, 0) := by decide
theorem test_rdbits_across_bytes :
    answer (rdbits params 12 (withCpb [0xA5, 0x3C])) = some (false, 0xA53) := by decide
theorem test_rdbits_past_end :
    answer (rdbits params 32 (withCpb [0xA5, 0x3C])) = some (false, 0xA53C0000) ∧
    (after (rdbits params 32 (withCpb [0xA5, 0x3C]))).status = 0x02 := by decide
theorem test_fetch_deletes_escape_byte :
    answer (rdbits params 32 (withCpb [0x12, 0x00, 0x00, 0x03, 0x01, 0x00, 0x00, 0x03])) = some (false, 0x12000001) := by decide
theorem test_fetch_stops_at_start_code :
    (after (rdbits params 8 { withCpb [0x00, 0x00, 0x03, 0x00, 0x00, 0x01, 0x65] with cpbPtr := 2, zeros := 2 })).cpbEnd = 3 := by
  decide

/-! ### CABAC commands (95_test_vectors.md 2.1 to 2.4, 8 P1) -/

theorem test_cabstart_aligned :
    answer (cabstart params (withCpb [0x4B, 0x5A, 0xC3, 0x1E, 0x80])) = some (false, 0) ∧
    (after (cabstart params (withCpb [0x4B, 0x5A, 0xC3, 0x1E, 0x80]))).codOffset = 150 := by decide
theorem test_cabstart_alignment_error :
    answer (cabstart params { withCpb [0xA7, 0x12, 0x34] with cpbPtr := 1, bitbuf := 0x38, bitcnt := 5 }) = some (false, 1) ∧
    (after (cabstart params { withCpb [0xA7, 0x12, 0x34] with cpbPtr := 1, bitbuf := 0x38, bitcnt := 5 })).status = 0x05 := by
  decide
theorem test_cabstart_bad_offset :
    answer (cabstart params (withCpb [0xFF, 0x00])) = some (false, 2) ∧
    (after (cabstart params (withCpb [0xFF, 0x00]))).status = 0x08 := by decide
theorem test_cabinit_values :
    [0, 1, 2, 3, 4, 5].map (initialCtx params 0 26) = [92, 35, 1, 124, 125, 124] := by decide
theorem test_cabinit_qp :
    [0, 1].map (initialCtx params 0 51) = [30, 52] ∧ answer (cabinit params 0 52 State.reset) = some (true, 4) := by decide
theorem test_cabdec_mps :
    answer (cabdec params 5 streamEngine) = some (false, 0) ∧ (after (cabdec params 5 streamEngine)).codRange = 270 ∧
    (after (cabdec params 5 streamEngine)).ctx = [(5, 2)] := by decide
theorem test_cabdec_lps :
    let s := { streamEngine with codRange := 270, ctx := [(5, 2)] }
    answer (cabdec params 5 s) = some (false, 1) ∧ (after (cabdec params 5 s)).codRange = 256 ∧
    (after (cabdec params 5 s)).codOffset = 17 ∧ (after (cabdec params 5 s)).ctx = [(5, 0)] := by decide
theorem test_cabbyp_one :
    answer (cabbyp params { engine 510 256 with bitcnt := 1 }) = some (false, 1) ∧
    (after (cabbyp params { engine 510 256 with bitcnt := 1 })).codOffset = 2 := by decide
theorem test_cabbyp_zero :
    answer (cabbyp params { engine 492 50 with bitcnt := 1, bitbuf := 0x80 }) = some (false, 0) ∧
    (after (cabbyp params { engine 492 50 with bitcnt := 1, bitbuf := 0x80 })).codOffset = 101 := by decide
theorem test_cabterm_end :
    answer (cabterm params (engine 356 355)) = some (false, 1) ∧ (after (cabterm params (engine 356 355))).codRange = 354 ∧
    (after (cabterm params (engine 356 355))).status = 0 := by decide
theorem test_cabterm_goes_on :
    let s := { engine 256 100 with bitcnt := 1, bitbuf := 0x80 }
    answer (cabterm params s) = some (false, 0) ∧ (after (cabterm params s)).codRange = 508 ∧
    (after (cabterm params s)).codOffset = 201 := by decide
theorem test_transTab :
    [0x00#8, 0x01#8, 0x80#8, 0x81#8, 0x02#8, 0x03#8, 0x7C#8, 0xFC#8, 0x7E#8, 0xFE#8, 0x29#8, 0xA9#8].map transTab =
      [0x01#7, 0x00#7, 0x02#7, 0x03#7, 0x00#7, 0x01#7, 0x4C#7, 0x7C#7, 0x7E#7, 0x7E#7, 0x21#7, 0x2B#7] := by decide
theorem test_ctxwr_ctxrd : answer (exec (.ctxrd 7) (after (exec (.ctxwr 7 41) State.reset))) = some (false, 41) := by decide
theorem test_ctxwr_keeps_others :
    answer (exec (.ctxrd 3) (after (exec (.ctxwr 7 41) { State.reset with ctx := [(3, 9)] }))) = some (false, 9) := by decide

/-! ### Transform commands (95_test_vectors.md 3) -/

theorem test_coefwr_coefrd :
    answer (exec (.coefrd 63) (after (exec (.coefwr 63 0x8000) State.reset))) = some (false, 0xFFFF8000) := by decide
theorem test_coefclr : answer (exec (.coefrd 1) (after (exec .coefclr { State.reset with coef := coefs [1, 2] }))) = some (false, 0) := by
  decide
theorem test_wswr : (after (exec (.wswr 63 255) State.reset)).ws[63] = 255 ∧ (after (exec (.wswr 63 255) State.reset)).ws[62] = 16 := by
  decide
theorem test_deq4_28 :
    [0, 1, 2, 5].map (fun k => (deq4Coef false 28 { State.reset with coef := coefs [3, -2, -1, 0, 0, 1] } k).toInt) =
      [768, -640, -256, 400] := by decide
theorem test_deq4_wraps :
    (deq4Coef false 51 { State.reset with coef := coefs [-32768], ws := Vector.replicate 64 255 } 0).toInt = 7340032 := by decide
theorem test_deq8_rounding :
    let s := { State.reset with coef := coefs [3, -2, 5] }
    ([0, 1, 2].map fun k => (deq8Coef false 3 s k).toInt) = [21, -13, 43] ∧
    ([0, 1, 2].map fun k => (deq8Coef true 3 s k).toInt) = [21, -13, 44] := by decide
theorem test_idct4_dense :
    (List.range 16).map (fun k => (idct4Coef (coefs [240, -130, 0, 26, 65, 0, -32, 0, -80, 20, 0, 0, 13, 0, 0, -16]) k).toInt) =
      [2, 3, 5, 5, 3, 4, 7, 7, 3, 3, 6, 7, 0, 0, 2, 3] := by decide
theorem test_idct4_rounds_down : (idct4Coef (coefs [-33]) 0).toInt = -1 := by decide
theorem test_inv8_basis :
    (inv8 0 8 0 0 0 0 0 0).map BitVec.toInt = [12, 10, 6, 3, -3, -6, -10, -12] ∧
    (inv8 0 0 0 0 0 8 0 0).map BitVec.toInt = [6, -12, 3, 10, -10, -3, 12, -6] := by decide
theorem test_idct8_rows :
    (List.range 8).map (fun k => (idct8Coef (coefs [780, -210, 0, 0, 0, 0, 0, 0, 270, 138]) (32 + k)).toInt) =
      [4, 6, 8, 9, 12, 14, 16, 17] := by decide
theorem test_add4_clips :
    let s := { picture 4 8 with curSlot := 2, fb := [(sampleKey 2 .y 4 8, 10), (sampleKey 2 .y 6 8, 250)], coef := coefs [-20, 5, 10] }
    fbRead (after (addBlock params 4 0 s)) 2 .y 4 8 = 0 ∧ fbRead (after (addBlock params 4 0 s)) 2 .y 6 8 = 255 := by decide
theorem test_add4_geometry : answer (addBlock params 4 0 (picture 13 12)) = some (true, 6) := by decide
theorem test_add8_geometry :
    answer (addBlock params 8 1 (picture 0 0)) = some (false, 0) ∧ answer (addBlock params 8 1 (picture 4 4)) = some (true, 6) := by
  decide

/-! ### Interpolation and the frame-store port (95_test_vectors.md 4) -/

/-- The luma plane of 95_test_vectors.md 4.1. -/
def luma (x y : Int) : Int := (3 * x * x + 7 * y + (if (x + y) % 3 = 0 then 40 else 0)) % 256

theorem test_luma_phases :
    ([0, 1, 2, 3].map fun xF => lumaSample luma 4 4 xF 0) = [76, 96, 115, 129] ∧
    ([0, 1, 2, 3].map fun xF => lumaSample luma 4 4 xF 1) = [91, 111, 123, 124] ∧
    ([0, 1, 2, 3].map fun xF => lumaSample luma 4 4 xF 2) = [106, 119, 131, 132] ∧
    ([0, 1, 2, 3].map fun xF => lumaSample luma 4 4 xF 3) = [115, 114, 127, 128] := by decide
theorem test_chroma_weights :
    chromaSample (fun x y => 20 * x + 3 * y) 2 2 3 5 = 55 ∧ chromaSample (fun x y => 20 * x + 3 * y) 0 3 7 4 = 28 := by decide
theorem test_motion_vector_parts : mvInt 2 0xFFFA = -2 ∧ mvFrac 2 0xFFFA = 2 ∧ mvInt 3 0xFFF7 = -2 ∧ mvFrac 3 0xFFF7 = 7 := by decide
theorem test_combine_wuni :
    combine { State.reset with w0 := 3, wround := 2, wshift := 2, woff := 0xFFFB } 1 0 76 = 52 := by decide
theorem test_combine_wbi :
    combine { State.reset with w0 := 0xFFEC, w1 := 84, wround := 32, wshift := 6, woff := 3 } 2 76 136 = 158 := by decide
theorem test_mcluma_replicates_corner :
    let s := { picture 4 4 with mvX := 0xFFD8, mvY := 0xFFD8, fb := [(sampleKey 1 .y 0 0, 40)] }
    fbRead (after (motionBlock params .y 1 0 0 0 s)) 0 .y 7 7 = 40 := by decide
theorem test_mcluma_reads_before_writing :
    let s := { picture 4 4 with mvX := 4, fb := [(sampleKey 0 .y 5 4, 143), (sampleKey 0 .y 6 4, 136)] }
    fbRead (after (motionBlock params .y 0 0 0 0 s)) 0 .y 4 4 = 143 ∧
    fbRead (after (motionBlock params .y 0 0 0 0 s)) 0 .y 5 4 = 136 := by decide
theorem test_mcchroma_component :
    let s := { picture 2 2 with fb := [(sampleKey 1 .cr 3 2, 66), (sampleKey 1 .cr 4 2, 57),
      (sampleKey 1 .cr 3 3, 60), (sampleKey 1 .cr 4 3, 51)] }
    fbRead (after (motionBlock params (compOfCr 1) 1 0 0 0 s)) 0 .cr 3 2 = 66 := by decide
theorem test_mcchroma_geometry : answer (motionBlock params .cb 1 2 2 0 (picture 1 0)) = some (true, 6) := by decide
theorem test_smprd : answer (smprd params 3 0 { picture 8 0 with fb := [(sampleKey 3 .y 8 0, 171)] }) = some (false, 171) := by decide
theorem test_smprd_chroma_width : answer (smprd params 3 1 (picture 8 0)) = some (true, 6) := by decide
theorem test_smpwr : answer (smprd params 3 0 (after (smpwr params 3 0 0xAB (picture 8 0)))) = some (false, 171) := by decide

/-! ### Deblocking (95_test_vectors.md 5) -/

/-- A line's side: samples from the edge outward. -/
def side (l : List Int) (i : Nat) : Int := l.getD i 0

/-- The thresholds at QPAV `q` and offsets 0. -/
def at_ (q : BitVec 6) : Thresholds := thresholds { State.reset with qpav := q }

theorem test_thresholds :
    at_ 30 = ⟨25, 8, 30⟩ ∧ thresholds { State.reset with qpav := 30, foa := 0xFA, fob := 4 } = ⟨12, 10, 24⟩ ∧
    [1, 2, 3].map (tc0Of (at_ 32)) = [1, 2, 3] ∧ [1, 2, 3].map (tc0Of (at_ 51)) = [13, 17, 25] := by decide
theorem test_luma_line_soft :
    lumaLine (at_ 40) 3 (side [80, 78, 70, 65]) (side [90, 91, 99, 99]) = [(-1, 83), (0, 87), (-2, 77), (1, 92)] := by decide
theorem test_luma_line_strong :
    lumaLine (at_ 40) 4 (side [100, 98, 96, 90]) (side [110, 113, 130, 131]) = [(-1, 103), (-2, 101), (-3, 97), (0, 109)] := by decide
theorem test_luma_line_clips :
    lumaLine (at_ 51) 3 (side [3, 20, 3, 3]) (side [0, 0, 0, 0]) = [(-1, 4), (0, 0), (-2, 2), (1, 1)] := by decide
theorem test_chroma_lines :
    chromaLine (at_ 30) 4 (side [60, 62]) (side [70, 71]) = [(-1, 64), (0, 69)] ∧
    chromaLine (at_ 40) 1 (side [100, 97]) (side [108, 111]) = [(-1, 102), (0, 106)] := by decide
theorem test_dbkluma_geometry :
    answer (deblockEdge params .y 0 (picture 12 0)) = some (false, 0) ∧ answer (deblockEdge params .y 0 (picture 13 0)) = some (true, 6) ∧
    answer (deblockEdge params .y 0 { picture 13 0 with bs := 5 }) = some (true, 4) := by decide
theorem test_dbkchroma_edge :
    let s := { picture 4 0 with bs := 4, qpav := 30, fb := [(sampleKey 0 .cr 2 0, 62), (sampleKey 0 .cr 3 0, 60),
      (sampleKey 0 .cr 4 0, 70), (sampleKey 0 .cr 5 0, 71)] }
    lineWrites s .cr 0 0 = [(3, 0, 64), (4, 0, 69)] := by decide

/-! ### Witnesses: states and operands that meet an obligation's hypotheses, clause by clause, at boundary values -/

theorem witness_WrlStoresTheLowBits : ∀ reg ∈ [0x0E#8, 0x0F#8, 0x10#8, 0x11#8, 0x16#8, 0xFF#8],
    reg = 0x0E ∨ reg = 0x0F ∨ reg = 0x10 ∨ reg = 0x11 ∨ 0x16 ≤ reg.toNat := by decide

theorem witness_WrhWritesTheHighHalf : ∀ reg ∈ [0x00#8, 0x13#8, 0x16#8, 0xFF#8], reg ≠ 0x14 ∧ reg ≠ 0x15 := by decide

theorem witness_RdregAnswersTheExtendedRegister : ∀ reg ∈ [0x0E#8, 0x0F#8, 0x19#8, 0xFF#8],
    reg = 0x0E ∨ reg = 0x0F ∨ 0x19 ≤ reg.toNat := by decide

theorem witness_RdregAfterWrlReadsTheWrittenBits :
    writableShape 0x00 = some (16, false) ∧ writableShape 0x0C = some (8, true) ∧ writableShape 0x15 = some (32, false) := by decide

/-- The pointer contract holds whatever the parameters are: CPB_END = 0. -/
theorem contract_of_zero (P : Params) (s : State) (h : s.cpbEnd = 0) : PointerContract P s := by
  rw [PointerContract, h]
  exact Nat.zero_le _

/-- A picture of one macroblock is legal whatever the parameters are. -/
theorem pictureLegal_one (P : Params) (s : State) (hw : s.picW = 1) (hh : s.picH = 1) : pictureLegal P s = true := by
  simp [pictureLegal, Params.maxMbsW, Params.maxMbsH, hw, hh]

theorem witness_BsinitAttachesOrFaults :
    (State.reset.cpbPtr.toNat ≤ State.reset.cpbEnd.toNat ∧ State.reset.cpbEnd.toNat ≤ Config.params.cpbSize.toNat) ∧
    ¬ ({ State.reset with cpbPtr := 1 }.cpbPtr.toNat ≤ { State.reset with cpbPtr := 1 }.cpbEnd.toNat ∧
      { State.reset with cpbPtr := 1 }.cpbEnd.toNat ≤ Config.params.cpbSize.toNat) :=
  ⟨⟨Nat.le_refl 0, Nat.zero_le _⟩, fun h => absurd h.1 (by decide)⟩

theorem witness_FetchByteFollowsItsPseudocode : PointerContract params (withCpb [0x00, 0x00, 0x01]) := by
  show _ ≤ _
  decide

theorem witness_FetchPastCpbSizeIsStuck :
    (let s := { State.reset with cpbEnd := 1 }
     s.cpbPtr.toNat < s.cpbEnd.toNat ∧ { params with cpbSize := 0 }.cpbSize.toNat ≤ s.cpbPtr.toNat) ∧
    (∀ l ∈ [[0x00#8], [0x00#8, 0x00#8]],
      let s := { withCpb l with cpbEnd := 3 }
      s.cpbPtr.toNat + 2 < s.cpbEnd.toNat ∧ cpbByte s s.cpbPtr.toNat = 0x00 ∧
      (l.length = s.cpbPtr.toNat + 1 ∨ cpbByte s (s.cpbPtr.toNat + 1) = 0x00 ∧ l.length = s.cpbPtr.toNat + 2)) ∧
    (let s := { withCpb [0x03] with cpbEnd := 2, zeros := 2 }
     s.cpbPtr.toNat < s.cpbEnd.toNat ∧ s.cpbPtr.toNat < { params with cpbSize := 1 }.cpbSize.toNat ∧ s.zeros = 2 ∧
     cpbByte s s.cpbPtr.toNat = 0x03) := by decide

/-- An idle state with seven bits left, an active engine with none: the bit after them needs a byte past CpbSize, and each
command's own conditions hold (the last also for 6 shifts of a range of 2, from the context at pStateIdx 63). -/
theorem witness_FetchPastCpbSizeIsStuck_commands :
    let P := { params with cpbSize := 0 }
    let s := { State.reset with cpbEnd := 1, bitcnt := 7 }
    let e := { engine 256 0 with cpbEnd := 1, ctx := [(5, 0)] }
    let f := { engine 256 255 with cpbEnd := 1, bitcnt := 6, ctx := [(5, 126)] }
    readBits P 7 s = .ok (0, { s with bitcnt := 0 }) ∧ fetchByte P { s with bitcnt := 0 } = .error .cpbFetchOutside ∧
    (7 < (8#6).toNat ∧ 7 < (32#6).toNat ∧ flagOn .cabact s = false ∧ 7 < s.bitcnt.toNat + 9) ∧
    readBits P 0 e = .ok (0, e) ∧ e.bitcnt = 0 ∧ fetchByte P e = .error .cpbFetchOutside ∧ flagOn .cabact e = true ∧
    e.codOffset.toNat < e.codRange.toNat - rangeTabLPS ((ctxRead e 5).extractLsb' 1 6) (e.codRange.extractLsb' 6 2) ∧
    (e.codRange.toNat - rangeTabLPS ((ctxRead e 5).extractLsb' 1 6) (e.codRange.extractLsb' 6 2)) * 2 ^ 0 < 256 ∧
    e.codOffset.toNat < e.codRange.toNat - 2 ∧ (e.codRange.toNat - 2) * 2 ^ 0 < 256 ∧
    readBits P 6 f = .ok (0, { f with bitcnt := 0 }) ∧ fetchByte P { f with bitcnt := 0 } = .error .cpbFetchOutside ∧
    rangeTabLPS ((ctxRead f 5).extractLsb' 1 6) (f.codRange.extractLsb' 6 2) * 2 ^ 6 < 256 ∧
    f.codRange.toNat - rangeTabLPS ((ctxRead f 5).extractLsb' 1 6) (f.codRange.extractLsb' 6 2) ≤ f.codOffset.toNat := by
  decide

theorem witness_RdbitsAnswersTheNextBits :
    (1 ≤ (1#6).toNat ∧ (32#6).toNat ≤ 32 ∧ flagOn .cabact State.reset = false ∧ PointerContract Config.params State.reset) ∧
    (0#6).toNat = 0 ∧ 32 < (33#6).toNat ∧ flagOn .cabact (engine 510 0) = true :=
  ⟨⟨by decide, by decide, by decide, contract_of_zero _ _ rfl⟩, by decide, by decide, by decide⟩

theorem witness_ReadBitsTakesTheHighBitsOfTheBuffer :
    (8 ≤ { State.reset with bitcnt := 8 }.bitcnt.toNat ∧ { State.reset with bitcnt := 8 }.bitcnt.toNat ≤ 8 ∧
      { State.reset with bitcnt := 8 }.bitcnt ≠ 0) ∧
    ((withCpb [0xA5]).bitcnt = 0 ∧ fetchByte params (withCpb [0xA5]) = .ok (0xA5, { withCpb [0xA5] with cpbPtr := 1 })) ∧
    (let P := { params with cpbSize := 0 }
     let s := { State.reset with cpbEnd := 1 }
     s.bitcnt = 0 ∧ fetchByte P s = .error .cpbFetchOutside ∧ readBits P 1 s = .error .cpbFetchOutside) ∧
    readBits params 8 (withCpb [0xA5, 0x3C]) = .ok (0xA5, { withCpb [0xA5, 0x3C] with cpbPtr := 1 }) := by decide

theorem witness_RdbitsEightAnswersTheFetchedByte :
    (withCpb [0xA5]).bitcnt = 0 ∧ flagOn .cabact (withCpb [0xA5]) = false ∧
    fetchByte params (withCpb [0xA5]) = .ok (0xA5, { withCpb [0xA5] with cpbPtr := 1 }) ∧
    1 ≤ (1#6).toNat ∧ (8#6).toNat ≤ 8 := by decide

theorem witness_RenormShiftsJustEnough :
    2 ≤ 2 ∧ 511 < 512 ∧ PointerContract params State.reset := ⟨by decide, by decide, contract_of_zero _ _ rfl⟩

theorem witness_CabstartInitialisesTheEngine : PointerContract Config.params State.reset := contract_of_zero _ _ rfl

theorem witness_CabinitWritesEveryContext : (51#6).toNat ≤ 51 ∧ 51 < (52#6).toNat := by decide

/-- An active engine at the bounds of R112 meets the hypotheses of CABDEC, CABBYP and CABTERM; offset 253 and 254 against
range 256 take CABTERM's two clauses. -/
theorem witness_engine_commands :
    (∀ p ∈ [(256#9, 0#9), (256#9, 253#9), (256#9, 254#9), (510#9, 509#9)],
      flagOn .cabact (engine p.1 p.2) = true ∧ EngineInv (engine p.1 p.2) ∧
        PointerContract Config.params (engine p.1 p.2)) ∧
    (engine 256 254).codRange.toNat - 2 ≤ (engine 256 254).codOffset.toNat ∧
    (engine 256 253).codOffset.toNat < (engine 256 253).codRange.toNat - 2 := by
  refine ⟨?_, by decide, by decide⟩
  simp only [List.mem_cons, List.not_mem_nil, or_false]
  rintro p (rfl | rfl | rfl | rfl) <;> exact ⟨rfl, fun _ => by decide, contract_of_zero _ _ rfl⟩

theorem witness_IdleEngineRefusesBins : flagOn .cabact State.reset = false := by decide

theorem witness_CtxwrAndCtxrdReachOneContext : (1023 : BitVec 10) ≠ 0 := by decide

theorem witness_DequantisationFollowsTheFormula : (0#6).toNat ≤ 51 ∧ (51#6).toNat ≤ 51 ∧ 51 < (52#6).toNat := by decide

theorem witness_DeqRoundIsInvisibleFromQp24 : 24 ≤ 24 ∧ 51 ≤ 51 ∧ 15 < 16 := by decide

theorem witness_DcOnlyBlockBecomesFlat :
    let s := { State.reset with coef := (Vector.replicate 64 0).set 0 64 }
    (∀ k < 64, 1 ≤ k → coefAt s.coef k = 0) ∧ coefAt s.coef 0 = 64 := by decide

theorem witness_AddReconstructsTheBlock :
    compOfField 0 = some .y ∧ compOfField 2 = some .cr ∧ pictureLegal Config.params (picture 12 8) = true ∧
    (picture 12 8).dstX.toNat + 4 ≤ planeWidth (picture 12 8) .y ∧ (picture 12 8).dstY.toNat + 8 ≤ planeHeight (picture 12 8) .y ∧
    (picture 0 0).dstX.toNat + 8 ≤ planeWidth (picture 0 0) .cr :=
  ⟨by decide, by decide, pictureLegal_one _ _ rfl rfl, by decide, by decide, by decide⟩

theorem witness_interpolation_bounds :
    (∀ x y : Int, 0 ≤ (fun _ _ => 255 : Int → Int → Int) x y ∧ (fun _ _ => 255 : Int → Int → Int) x y ≤ 255) ∧ 3 < 4 ∧ 7 < 8 :=
  ⟨fun _ _ => ⟨by norm_num, by norm_num⟩, by decide, by decide⟩

theorem witness_CombineNeverWraps :
    let s := { State.reset with w0 := 1, w1 := 1, wround := 1, wshift := 1 }
    ((0 : Int) ≤ 255 ∧ (255 : Int) ≤ 255) ∧ s.w0 = 1 ∧ s.w1 = 1 ∧ s.wround = 1 ∧ s.wshift = 1 ∧ s.woff = 0 := by decide

theorem witness_ReferenceReadsAreClamped :
    1 ≤ planeWidth (picture 0 0) .cb ∧ 1 ≤ planeHeight (picture 0 0) .cb ∧ (-1 : Int) < 0 ∧ (7 : Int) < planeWidth (picture 0 0) .cb ∧
    (planeWidth (picture 0 0) .cb : Int) ≤ 8 := by decide

theorem witness_MotionCompensationPredictsTheBlock :
    (2#2 ≠ 3 ∧ 0#2 ≠ 3) ∧ pictureLegal Config.params (picture 12 0) = true ∧
    (picture 12 0).dstX.toNat + 4 * 2 ^ (0#2).toNat ≤ planeWidth (picture 12 0) .y ∧
    (picture 12 0).dstY.toNat + 4 * 2 ^ (2#2).toNat ≤ planeHeight (picture 12 0) .y ∧
    (picture 0 6).dstX.toNat + 2 * 2 ^ (2#2).toNat ≤ planeWidth (picture 0 6) (if (0#1) = 0 then .cb else .cr) ∧
    (picture 0 6).dstY.toNat + 2 * 2 ^ (0#2).toNat ≤ planeHeight (picture 0 6) (if (0#1) = 0 then .cb else .cr) ∧
    (picture 12 0).mvX = 0 ∧ (picture 12 0).mvY = 0 :=
  ⟨by decide, pictureLegal_one _ _ rfl rfl, by decide, by decide, by decide, by decide, rfl, rfl⟩

theorem witness_SmprdAndSmpwrReachOneSample :
    compOfField 1 = some .cb ∧ pictureLegal Config.params (picture 7 7) = true ∧
    (picture 7 7).dstX.toNat < planeWidth (picture 7 7) .cb ∧ (picture 7 7).dstY.toNat < planeHeight (picture 7 7) .cb :=
  ⟨by decide, pictureLegal_one _ _ rfl rfl, by decide, by decide⟩

theorem witness_FrameStoreCommandsFaultInOrder :
    pictureLegal Config.params State.reset = false ∧
    planeWidth (picture 13 0) .y < (picture 13 0).dstX.toNat + 4 * 2 ^ (0#2).toNat ∧
    planeHeight (picture 0 7) .cb < (picture 0 7).dstY.toNat + 2 * 2 ^ (0#2).toNat ∧
    compOfField 2 = some .cr ∧ planeWidth (picture 8 0) .cr ≤ (picture 8 0).dstX.toNat := by decide

theorem witness_LineFiltersFollowTheirFormulas :
    let T := at_ 30
    let p := side [60, 60, 60, 60]
    let q := side [66, 66, 66, 66]
    filterSamples T 1 p q = true ∧ filterSamples T 4 p q = true ∧ filterSamples T 0 p q = false ∧
    filterLine .y T 4 p q = [(-1, 62), (-2, 62), (-3, 61), (0, 64), (1, 65), (2, 65)] ∧
    filterLine .cb T 4 p q = [(-1, 62), (0, 65)] := by decide

theorem witness_LineFiltersStayInBounds :
    4 ≤ 4 ∧ (∀ i, 0 ≤ (fun _ => 0 : Nat → Int) i ∧ (fun _ => 0 : Nat → Int) i ≤ 255) ∧
    ((-1, 63) ∈ filterLine .y (thresholds { State.reset with qpav := 30 }) 2 (fun _ => 60) (fun _ => 70)) :=
  ⟨by decide, fun _ => ⟨by norm_num, by norm_num⟩, by decide⟩

theorem witness_DeblockingFiltersTheEdge :
    (∀ n < 4, ({ picture 12 0 with bs := 0x924, qpav := 51 }.bs.toNat / 8 ^ n) % 8 ≤ 4) ∧
    { picture 12 0 with bs := 0x924, qpav := 51 }.qpav.toNat ≤ 51 ∧
    pictureLegal Config.params { picture 12 0 with bs := 0x924, qpav := 51 } = true ∧
    (4 ≤ (picture 12 0).dstX.toNat ∧ (picture 12 0).dstX.toNat + 4 ≤ planeWidth (picture 12 0) .y ∧
      (picture 12 0).dstY.toNat + 16 ≤ planeHeight (picture 12 0) .y) ∧
    (2 ≤ (picture 0 6).dstY.toNat ∧ (picture 0 6).dstY.toNat + 2 ≤ planeHeight (picture 0 6) .cr ∧
      (picture 0 6).dstX.toNat + 8 ≤ planeWidth (picture 0 6) .cr) :=
  ⟨by decide, by decide, pictureLegal_one _ _ rfl rfl, by decide, by decide⟩

theorem witness_ZeroStrengthDeblockingChangesNothing :
    (picture 4 0).bs = 0 ∧ (picture 4 0).qpav.toNat + (picture 4 0).foa.toInt ≤ 15 ∧
    ∃ t, exec (.dbkluma 0) (picture 4 0) = .next t ∧ ∀ d, t.response ≠ some ⟨true, d⟩ := by
  refine ⟨rfl, by decide, { picture 4 0 with response := some ⟨false, 0⟩ }, ?_, ?_⟩
  · show deblockEdge Config.params .y 0 (picture 4 0) = _
    unfold deblockEdge
    rw [if_pos (by decide), pictureLegal_one _ _ rfl rfl]
    rfl
  · intro d h
    cases h

theorem witness_DeblockingFaultsInOrder :
    (∃ n < 4, 4 < ({ picture 4 0 with bs := 5 }.bs.toNat / 8 ^ n) % 8) ∧ 51 < { picture 4 0 with qpav := 52 }.qpav.toNat ∧
    (∀ n < 4, ((picture 3 0).bs.toNat / 8 ^ n) % 8 ≤ 4) ∧ (picture 3 0).qpav.toNat ≤ 51 ∧ (picture 3 0).dstX.toNat < 4 ∧
    planeHeight (picture 0 7) .cb < (picture 0 7).dstY.toNat + 2 := by decide

theorem witness_DecodeOfEncodeIsTheCommand :
    (Instr.wrl 0xFF 0xFFFF).wellFormed = true ∧ (Instr.mcchroma 1 31 2 2 2).wellFormed = true := by decide

theorem witness_DecodedWordIsTheEncoding : decode 0x41012A1F#32 = .ok (.mcchroma 1 31 2 2 2) := by decide

theorem witness_StepRunsTheDecodedCommand :
    { State.reset with inbox := [.command 0x11000004, .reset] }.inbox = .command 0x11000004 :: [.reset] ∧
    decode 0x11000004 = .ok (.rdbits 4) ∧ decode 0x99000000 = .error .unassignedOpcode ∧ decode 0x00000001 = .error .reservedBits := by
  decide

theorem witness_StepTakesTheHostsMoves :
    State.reset.inbox = [] ∧ { State.reset with inbox := [.writeCpb 0 1] }.inbox = .writeCpb 0 1 :: [] ∧
    { State.reset with inbox := [.writeFb 31 .cr 65535 0 9] }.inbox = .writeFb 31 .cr 65535 0 9 :: [] ∧
    { State.reset with inbox := [.reset] }.inbox = .reset :: [] := by decide

theorem witness_FaultingWordChangesOnlyTheFaultRecord :
    execWord 0x99000000 State.reset = .next (faultRecord .eOpcode State.reset) ∧
    (faultRecord .eOpcode State.reset).response = some ⟨true, 1⟩ := ⟨rfl, rfl⟩

theorem witness_EveryCommandWordIsAnswered : PointerContract Config.params State.reset := contract_of_zero _ _ rfl

theorem witness_EngineInvariantIsKept :
    EngineInv { engine 256 255 with inbox := [.command 0] } ∧
    step { engine 256 255 with inbox := [.command 0] } = .next { engine 256 255 with response := some ⟨false, 0⟩ } :=
  ⟨fun _ => by decide, rfl⟩

theorem witness_InvariantIsKeptByEveryStep :
    let s := { engine 510 509 with bitcnt := 7, zeros := 2, ctx := [(0, 1), (1023, 127)], inbox := [.command 0] }
    Inv Config.params s ∧ step s = .next { s with inbox := [], response := some ⟨false, 0⟩ } := by
  refine ⟨⟨⟨by decide, by decide⟩, fun _ => by decide, ⟨fun _ => rfl, fun h => absurd h (by decide)⟩, ⟨by decide, ?_⟩, ?_, by decide⟩, rfl⟩
  · decide
  exact ⟨.nil, fun _ h => absurd h List.not_mem_nil⟩

theorem witness_OnlyTheListedCommandsWriteEachSpace :
    exec .nop State.reset = .next { State.reset with response := some ⟨false, 0⟩ } := rfl

theorem witness_StatusFlagsChangeOnlyAsListed :
    exec (.coefrd 0) { State.reset with status := 0b11110 } =
      .next { State.reset with status := 0b11110, response := some ⟨false, 0⟩ } ∧
    flagOn .ovr { State.reset with status := 0b11110 } = true := ⟨rfl, rfl⟩

end Sys2Proof.Tests
end

/-! ### Scope: one step on a delivered word

What `step` and `execWord` are, one equation per case, and the step that runs the decoded command. -/

namespace Sys2Proof.Machine

/-- 10_state.md R21 (log 1): a step takes exactly the first pending move. -/
theorem step_of_inbox_cons {s : State} {m : HostMove} {rest : List HostMove} (h : s.inbox = m :: rest) :
    step s = takeMove m { s with inbox := rest } := by
  simp only [step, h]

@[simp] theorem takeMove_command (w : Word) (s : State) : takeMove (.command w) s = execWord w s := rfl

theorem execWord_of_decode_ok {w : Word} {i : Instr} (h : decode w = .ok i) (s : State) :
    execWord w s = exec i s := by
  simp only [execWord, h]

/-- 30_encoding.md R65: a refused word records the refusal's fault, and that is a next state. -/
theorem execWord_of_decode_error {w : Word} {r : Reject} (h : decode w = .error r) (s : State) :
    execWord w s = .next (faultRecord (rejectCode r) s) := by
  simp only [execWord, h, raiseFault]

/-- A step whose next move is a command word executes that word on the state without the move. -/
theorem step_of_inbox_command {s : State} {w : Word} {rest : List HostMove} (h : s.inbox = .command w :: rest) :
    step s = execWord w { s with inbox := rest } := by
  rw [step_of_inbox_cons h, takeMove_command]

/-- Settles O51: the step is `execWord` of the delivered word, which has one equation per answer of the decoder. -/
theorem stepRunsTheDecodedCommand : Obligations.StepRunsTheDecodedCommand := by
  intro s w rest hinbox
  rw [step_of_inbox_command hinbox]
  refine ⟨fun i hok => ?_, fun hopcode => ?_, fun hreserved => ?_⟩
  · exact execWord_of_decode_ok hok _
  · exact execWord_of_decode_error hopcode _
  · exact execWord_of_decode_error hreserved _

end Sys2Proof.Machine

/-! ### The machine's invariant

Inv has four parts, and each reads only a few fields: the control registers, or the memory spaces. The effect of every command
(`Effect`) is therefore followed field by field: first what it leaves unchanged, then, where it writes, the bounds of what it
writes. `step_moved` says once what a step can do, and the invariant is kept by each of its cases. -/

namespace Sys2Proof.Machine

/-! #### The fields the invariant reads -/

/-- The control registers: what the fetch buffer's, the engine's and the fault record's invariants speak of. -/
structure Control where
  bitcnt : BitVec 4
  zeros : BitVec 2
  status : BitVec 5
  faultcode : BitVec 8
  codRange : BitVec 9
  codOffset : BitVec 9

/-- The control registers of a state. -/
def State.control (s : State) : Control := ⟨s.bitcnt, s.zeros, s.status, s.faultcode, s.codRange, s.codOffset⟩

/-- The written elements of the memory spaces: CTX, CPB, FB. -/
def State.spaces (s : State) : Cells 7 × Memory × Memory := (s.ctx, s.cpb, s.fb)

theorem regWriteLow_control (imm : BitVec 16) (s : State) (r : Reg) : (regWriteLow imm s r).control = s.control := by
  cases r <;> rfl

theorem regWriteLow_spaces (imm : BitVec 16) (s : State) (r : Reg) : (regWriteLow imm s r).spaces = s.spaces := by
  cases r <;> rfl

theorem flagOn_of_control {s t : State} (h : t.control = s.control) (f : Flag) : flagOn f t = flagOn f s :=
  flagOn_congr (congrArg Control.status h) f

theorem FetchInv.congr {s t : State} (hs : FetchInv s) (h : t.control = s.control) : FetchInv t := by
  have hb : t.bitcnt = s.bitcnt := congrArg Control.bitcnt h
  have hz : t.zeros = s.zeros := congrArg Control.zeros h
  rwa [FetchInv, hb, hz]

theorem EngineInv.congr {s t : State} (hs : EngineInv s) (hc : flagOn .cabact t = flagOn .cabact s)
    (hr : t.codRange = s.codRange ∧ t.codOffset = s.codOffset) : EngineInv t := by
  rwa [EngineInv, hc, hr.1, hr.2]

theorem FaultInv.congr {s t : State} (hs : FaultInv s) (hf : flagOn .fault t = flagOn .fault s)
    (hc : t.faultcode = s.faultcode) : FaultInv t := by
  rwa [FaultInv, hf, hc]

theorem MemoryInv.congr {P : Params} {s t : State} (hs : MemoryInv P s) (h : t.spaces = s.spaces) : MemoryInv P t := by
  have hctx : t.ctx = s.ctx := congrArg Prod.fst h
  have hcpb : t.cpb = s.cpb := congrArg (·.2.1) h
  have hfb : t.fb = s.fb := congrArg (·.2.2) h
  rwa [MemoryInv, hctx, hcpb, hfb]

/-- An idle engine meets its invariant whatever its registers hold. -/
theorem EngineInv.of_idle {s : State} (h : flagOn .cabact s = false) : EngineInv s :=
  fun hc => absurd hc (by simp [h])

theorem FaultInv.of_clear {s : State} (h : flagOn .fault s = false) (hc : s.faultcode = 0) : FaultInv s :=
  ⟨fun _ => hc, fun hf => absurd hf (by simp [h])⟩

/-- The invariant reads neither the response nor the pending moves. -/
theorem Inv.congr {P : Params} {s t : State} (hs : Inv P s) (hc : t.control = s.control) (hm : t.spaces = s.spaces) :
    Inv P t where
  fetch := hs.fetch.congr hc
  engine := hs.engine.congr (flagOn_of_control hc _) ⟨congrArg Control.codRange hc, congrArg Control.codOffset hc⟩
  record := hs.record.congr (flagOn_of_control hc _) (congrArg Control.faultcode hc)
  memory := hs.memory.congr hm

/-! #### What a cursor move leaves unchanged -/

theorem SameButCursor.engineRegs {s t : State} (h : SameButCursor s t) :
    t.codRange = s.codRange ∧ t.codOffset = s.codOffset :=
  ⟨(congrArg State.codRange h.1 :), (congrArg State.codOffset h.1 :)⟩

theorem SameButCursor.faultcode {s t : State} (h : SameButCursor s t) : t.faultcode = s.faultcode :=
  (congrArg State.faultcode h.1 :)

theorem SameButCursor.spaces {s t : State} (h : SameButCursor s t) : t.spaces = s.spaces :=
  (congrArg State.spaces h.1 :)

/-- What consuming whole bits does: a cursor move that leaves at most 7 bits unconsumed if no more were before. -/
structure BitMove (s t : State) : Prop extends CursorMove s t where
  bitcntLe : s.bitcnt.toNat ≤ 7 → t.bitcnt.toNat ≤ 7

theorem BitMove.trans {s t u : State} (h : BitMove s t) (h' : BitMove t u) : BitMove s u :=
  ⟨h.toCursorMove.trans h'.toCursorMove, h'.bitcntLe ∘ h.bitcntLe⟩

theorem readBit_bitMove {P : Params} {s t : State} {b : Bool} (h : readBit P s = .ok (b, t)) : BitMove s t :=
  ⟨(readBit_move h).1, fun hb => readBit_bitcnt_le h (by omega)⟩

theorem readBits_bitMove {P : Params} {n v : Nat} {s t : State} (h : readBits P n s = .ok (v, t)) : BitMove s t := by
  obtain ⟨hm, -, hb, -⟩ := readBits_move h
  exact ⟨hm, hb⟩

theorem renorm_bitMove {P : Params} {range offset range' offset' : Nat} {s t : State}
    (h : renorm P range offset s = .ok (range', offset', t)) : BitMove s t := by
  obtain ⟨hm, hb, -⟩ := renormUpTo_move h
  exact ⟨hm, hb⟩

theorem FetchInv.bitMove {s t : State} (hs : FetchInv s) (h : BitMove s t) : FetchInv t :=
  ⟨h.bitcntLe hs.1, h.zerosLe hs.2⟩

/-- RDBITS only consumes bits (41_bitstream.md R91). -/
theorem Effect.rdbits_bitMove {P : Params} {n : BitVec 6} {s u : State} (h : Effect P (.rdbits n) s u) : BitMove s u := by
  obtain ⟨-, -, v, hv⟩ := h
  exact readBits_bitMove hv

/-- CABSTART consumes bits and then starts the engine (42_cabac.md R105). -/
theorem Effect.cabstart_bitMove {P : Params} {s u : State} (h : Effect P .cabstart s u) :
    ∃ bad offset w, BitMove s w ∧ u = startEngine bad offset w := by
  obtain ⟨a, s1, offset, s2, bad, h1, h2, hu⟩ := h
  exact ⟨bad, offset, s2, (readBits_bitMove h1).trans (readBits_bitMove h2), hu⟩

/-- CABDEC writes its context, consumes bits, and then writes the engine registers (42_cabac.md R107). -/
theorem Effect.cabdec_bitMove {P : Params} {i : BitVec 10} {s u : State} (h : Effect P (.cabdec i) s u) :
    ∃ v range offset w, BitMove (ctxWrite i v s) w ∧ u = putEngine range offset w := by
  obtain ⟨-, range, offset, w, hw, hu⟩ := h
  obtain ⟨v, hv⟩ := decideBin_state s i
  rw [hv] at hw
  exact ⟨v, range, offset, w, renorm_bitMove hw, hu⟩

/-- CABBYP consumes a bit and then writes COD_OFFSET (42_cabac.md R108). -/
theorem Effect.cabbyp_bitMove {P : Params} {s u : State} (h : Effect P .cabbyp s u) :
    ∃ offset w, BitMove s w ∧ u = { w with codOffset := offset } := by
  obtain ⟨-, b, w, hw, hu⟩ := h
  exact ⟨_, w, readBit_bitMove hw, hu⟩

/-- CABTERM stops the engine and consumes nothing, or consumes bits and then writes the engine registers (42_cabac.md R109). -/
theorem Effect.cabterm_bitMove {P : Params} {s u : State} (h : Effect P .cabterm s u) :
    (∃ range, u = clearFlag .cabact { s with codRange := range }) ∨
      ∃ range offset w, BitMove s w ∧ u = putEngine range offset w := by
  obtain ⟨-, hu | ⟨-, range, offset, w, hw, hu⟩⟩ := h
  · exact .inl ⟨_, hu⟩
  · exact .inr ⟨range, offset, w, renorm_bitMove hw, hu⟩

/-! #### Commands that touch no control register -/

/-- The commands that write a control register: the fetch buffer, the engine or STATUS. -/
def writesControl : Instr → Bool
  | .clrst _ | .sreset | .bsinit | .rdbits _ | .cabstart | .cabdec _ | .cabbyp | .cabterm => true
  | _ => false

theorem Effect.control {P : Params} {i : Instr} {s u : State} (h : Effect P i s u) (hi : writesControl i = false) :
    u.control = s.control := by
  cases i with
  | clrst | sreset | bsinit | rdbits | cabstart | cabdec | cabbyp | cabterm => cases hi
  | wrl reg imm =>
    obtain ⟨r, -, rfl⟩ := h
    exact regWriteLow_control imm s r
  | cabinit col qp =>
    obtain ⟨f, rfl⟩ := h
    rfl
  | add4 | add8 | mcluma | mcchroma | dbkluma | dbkchroma | smpwr =>
    obtain ⟨slot, c, l, rfl⟩ := h
    rfl
  | _ => exact (congrArg State.control h :)

/-! #### The sticky flags and the fault record -/

/-- No sticky flag is cleared, and the fault record stays (10_state.md R24, R25). -/
structure KeepsSticky (s t : State) : Prop where
  mono : ∀ f, f ≠ .cabact → flagOn f s = true → flagOn f t = true
  fault : flagOn .fault t = flagOn .fault s
  faultcode : t.faultcode = s.faultcode

theorem KeepsSticky.of_status {s t : State} (h : t.status = s.status) (hc : t.faultcode = s.faultcode) :
    KeepsSticky s t where
  mono f _ hf := (flagOn_congr h f).trans hf
  fault := flagOn_congr h _
  faultcode := hc

theorem KeepsSticky.trans {s t u : State} (h : KeepsSticky s t) (h' : KeepsSticky t u) : KeepsSticky s u where
  mono f hne hf := h'.mono f hne (h.mono f hne hf)
  fault := h'.fault.trans h.fault
  faultcode := h'.faultcode.trans h.faultcode

theorem CursorMove.keepsSticky {s t : State} (h : CursorMove s t) : KeepsSticky s t where
  mono _ _ hf := h.same.flagOn_mono hf
  fault := h.same.flagOn (by decide)
  faultcode := h.same.faultcode

theorem keepsSticky_putEngine (range offset : Nat) (s : State) : KeepsSticky s (putEngine range offset s) :=
  .of_status rfl rfl

theorem KeepsSticky.clearCabact {s t : State} (h : KeepsSticky s t) : KeepsSticky s (clearFlag .cabact t) where
  mono f hne hf := by simp [hne, h.mono f hne hf]
  fault := by simp [h.fault]
  faultcode := h.faultcode

/-- CABSTART sets ALIGNERR and BADINIT but never clears them (42_cabac.md R105). -/
theorem keepsSticky_startEngine (bad : Bool) (offset : Nat) (s : State) : KeepsSticky s (startEngine bad offset s) where
  mono f hne hf := by
    have hf' := (keepsSticky_putEngine 510 offset s).mono f hne hf
    simp [startEngine, hne, hf']
  fault := by
    have hf' := (keepsSticky_putEngine 510 offset s).fault
    simp [startEngine, hf']
  faultcode := by rw [startEngine_eq]

theorem flagOn_cabact_startEngine (bad : Bool) (offset : Nat) (s : State) :
    flagOn .cabact (startEngine bad offset s) = decide (offset < 510) := by
  rw [Bool.eq_iff_iff]
  simp [startEngine]

/-- The commands that clear sticky flags (10_state.md R24). -/
def clearsSticky : Instr → Bool
  | .clrst _ | .sreset => true
  | _ => false

theorem Effect.keepsSticky {P : Params} {i : Instr} {s u : State} (h : Effect P i s u) (hi : clearsSticky i = false) :
    KeepsSticky s u := by
  cases i with
  | clrst | sreset => cases hi
  | bsinit =>
    subst h
    exact .clearCabact (.of_status rfl rfl)
  | rdbits n => exact h.rdbits_bitMove.keepsSticky
  | cabstart =>
    obtain ⟨bad, offset, w, hw, rfl⟩ := h.cabstart_bitMove
    exact hw.keepsSticky.trans (keepsSticky_startEngine bad offset w)
  | cabdec ctxIdx =>
    obtain ⟨v, range, offset, w, hw, rfl⟩ := h.cabdec_bitMove
    have hctx : KeepsSticky s (ctxWrite ctxIdx v s) := .of_status rfl rfl
    exact (hctx.trans hw.keepsSticky).trans (keepsSticky_putEngine range offset w)
  | cabbyp =>
    obtain ⟨offset, w, hw, rfl⟩ := h.cabbyp_bitMove
    exact hw.keepsSticky.trans (.of_status rfl rfl)
  | cabterm =>
    obtain ⟨range, rfl⟩ | ⟨range, offset, w, hw, rfl⟩ := h.cabterm_bitMove
    · exact .clearCabact (.of_status rfl rfl)
    · exact hw.keepsSticky.trans (keepsSticky_putEngine range offset w)
  | _ => exact .of_status (congrArg Control.status (h.control rfl)) (congrArg Control.faultcode (h.control rfl))

theorem faultInv_clearSticky {s : State} (mask : BitVec 4) (hs : FaultInv s) : FaultInv (clearSticky mask s) := by
  have hf : flagOn .fault (clearSticky mask s) = (flagOn .fault s && !mask.getLsbD 3) := flagOn_clearSticky mask .fault s
  have hc : (clearSticky mask s).faultcode = if mask.getLsbD 3 then 0 else s.faultcode := rfl
  cases hm : mask.getLsbD 3 with
  | true => exact .of_clear (by rw [hf, hm, Bool.not_true, Bool.and_false]) (by rw [hc, hm, if_pos rfl])
  | false => exact hs.congr (by rw [hf, hm, Bool.not_false, Bool.and_true]) (by rw [hc, hm]; rfl)

theorem faultInv_resetBlock (s : State) : FaultInv (resetBlock s) := .of_clear (flagOn_resetBlock _ s) rfl

theorem Effect.faultInv {P : Params} {i : Instr} {s u : State} (h : Effect P i s u) (hs : FaultInv s) : FaultInv u := by
  cases hi : clearsSticky i with
  | false => exact hs.congr (h.keepsSticky hi).fault (h.keepsSticky hi).faultcode
  | true =>
    cases i with
    | clrst mask =>
      subst h
      exact faultInv_clearSticky mask hs
    | sreset =>
      subst h
      exact faultInv_resetBlock s
    | _ => cases hi

/-! #### The fetch buffer -/

theorem Effect.fetchInv {P : Params} {i : Instr} {s u : State} (h : Effect P i s u) (hs : FetchInv s) : FetchInv u := by
  cases i with
  | clrst mask =>
    subst h
    exact hs
  | sreset | bsinit =>
    subst h
    exact ⟨Nat.zero_le 7, Nat.zero_le 2⟩
  | rdbits n => exact hs.bitMove h.rdbits_bitMove
  | cabstart =>
    obtain ⟨bad, offset, w, hw, rfl⟩ := h.cabstart_bitMove
    rw [startEngine_eq]
    exact (hs.bitMove hw :)
  | cabdec ctxIdx =>
    obtain ⟨v, range, offset, w, hw, rfl⟩ := h.cabdec_bitMove
    have hctx : FetchInv (ctxWrite ctxIdx v s) := hs
    exact (hctx.bitMove hw :)
  | cabbyp =>
    obtain ⟨offset, w, hw, rfl⟩ := h.cabbyp_bitMove
    exact (hs.bitMove hw :)
  | cabterm =>
    obtain ⟨range, rfl⟩ | ⟨range, offset, w, hw, rfl⟩ := h.cabterm_bitMove
    · exact hs
    · exact (hs.bitMove hw :)
  | _ => exact hs.congr (h.control rfl)

/-! #### The engine -/

/-- The commands that change CABACT (10_state.md R35). -/
def changesCabact : Instr → Bool
  | .cabstart | .cabterm | .bsinit | .sreset => true
  | _ => false

/-- The commands that write COD_RANGE or COD_OFFSET (10_state.md R28). -/
def writesEngine : Instr → Bool
  | .cabstart | .cabdec _ | .cabbyp | .cabterm | .sreset => true
  | _ => false

theorem flagOn_cabact_clearSticky (mask : BitVec 4) (s : State) :
    flagOn .cabact (clearSticky mask s) = flagOn .cabact s := by
  simp [flagOn_clearSticky, flagBit]

theorem Effect.cabact {P : Params} {i : Instr} {s u : State} (h : Effect P i s u) (hi : changesCabact i = false) :
    flagOn .cabact u = flagOn .cabact s := by
  cases i with
  | cabstart | cabterm | bsinit | sreset => cases hi
  | clrst mask =>
    subst h
    exact flagOn_cabact_clearSticky mask s
  | rdbits n => exact h.rdbits_bitMove.same.flagOn (by decide)
  | cabdec ctxIdx =>
    obtain ⟨v, range, offset, w, hw, rfl⟩ := h.cabdec_bitMove
    exact hw.same.flagOn (by decide)
  | cabbyp =>
    obtain ⟨offset, w, hw, rfl⟩ := h.cabbyp_bitMove
    exact hw.same.flagOn (by decide)
  | _ => exact flagOn_of_control (h.control rfl) _

theorem Effect.engineRegs {P : Params} {i : Instr} {s u : State} (h : Effect P i s u) (hi : writesEngine i = false) :
    u.codRange = s.codRange ∧ u.codOffset = s.codOffset := by
  cases i with
  | cabstart | cabdec | cabbyp | cabterm | sreset => cases hi
  | clrst | bsinit =>
    subst h
    exact ⟨rfl, rfl⟩
  | rdbits n => exact h.rdbits_bitMove.same.engineRegs
  | _ => exact ⟨congrArg Control.codRange (h.control rfl), congrArg Control.codOffset (h.control rfl)⟩

/-- Writing an interval within R112's bounds to the engine registers. -/
theorem engineInv_putEngine {range offset : Nat} (s : State) (h256 : 256 ≤ range) (h510 : range ≤ 510)
    (ho : offset < range) : EngineInv (putEngine range offset s) := by
  intro _
  simp only [putEngine_codRange, putEngine_codOffset, BitVec.toNat_ofNat]
  omega

/-- Renormalising an interval leaves an engine within R112's bounds. -/
theorem engineInv_renorm {P : Params} {range offset range' offset' : Nat} {s w : State}
    (h : renorm P range offset s = .ok (range', offset', w)) (h2 : 2 ≤ range) (h510 : range ≤ 510)
    (ho : offset < range) : EngineInv (putEngine range' offset' w) := by
  obtain ⟨-, -, hoff, hle, -⟩ := renormUpTo_move h
  exact engineInv_putEngine w (renorm_range h h2) (hle h510) (hoff ho)

/-- Both subintervals of a decision are legal inputs of renormalisation (42_cabac.md R107, R112). -/
theorem decideBin_bounds {s : State} {i : BitVec 10} (h256 : 256 ≤ s.codRange.toNat) (h510 : s.codRange.toNat ≤ 510)
    (ho : s.codOffset.toNat < s.codRange.toNat) :
    2 ≤ (decideBin s i).2.1 ∧ (decideBin s i).2.1 ≤ 510 ∧ (decideBin s i).2.2.1 < (decideBin s i).2.1 := by
  have hl := lpsRange_bounds s i
  rcases Nat.lt_or_ge s.codOffset.toNat (s.codRange.toNat - lpsRange s i) with hmps | hlps
  · rw [decideBin_mps hmps]
    dsimp only
    omega
  · rw [decideBin_lps hlps]
    dsimp only
    omega

/-- The offset after a bypass bin stays below the range (42_cabac.md R108, R112). -/
theorem bypassOffset_lt {s : State} (ho : s.codOffset.toNat < s.codRange.toNat) (b : Bool) :
    bypassOffset s b < s.codRange.toNat := by
  have hb : b.toNat ≤ 1 := Bool.toNat_le b
  unfold bypassOffset
  split <;> omega

theorem engineInv_startEngine (bad : Bool) (offset : Nat) (s : State) : EngineInv (startEngine bad offset s) := by
  intro hc
  rw [flagOn_cabact_startEngine, decide_eq_true_eq] at hc
  have h510 : (510#9).toNat = 510 := rfl
  rw [startEngine_eq]
  simp only [BitVec.toNat_ofNat, BitVec.ofNat_eq_ofNat, h510]
  omega

theorem Effect.engineInv {P : Params} {i : Instr} {s u : State} (h : Effect P i s u) (hs : EngineInv s) :
    EngineInv u := by
  cases i with
  | sreset =>
    subst h
    exact .of_idle (flagOn_resetBlock _ s)
  | bsinit =>
    subst h
    exact .of_idle (by simp)
  | cabstart =>
    obtain ⟨a, s1, off, s2, bad, -, -, rfl⟩ := h
    exact engineInv_startEngine bad off s2
  | cabdec ctxIdx =>
    obtain ⟨hact, range, offset, w, hw, rfl⟩ := h
    obtain ⟨h256, h510, ho⟩ := hs hact
    obtain ⟨h2, hle, hlt⟩ := decideBin_bounds (i := ctxIdx) h256 h510 ho
    exact engineInv_renorm hw h2 hle hlt
  | cabbyp =>
    obtain ⟨hact, b, w, hw, rfl⟩ := h
    obtain ⟨h256, h510, ho⟩ := hs hact
    have hr : w.codRange = s.codRange := (readBit_bitMove hw).same.engineRegs.1
    have hlt := bypassOffset_lt ho b
    intro _
    simp only [hr, BitVec.toNat_ofNat]
    omega
  | cabterm =>
    obtain ⟨hact, rfl | ⟨ho', range, offset, w, hw, rfl⟩⟩ := h
    · exact .of_idle (by simp)
    · obtain ⟨h256, h510, ho⟩ := hs hact
      exact engineInv_renorm hw (by omega) (by omega) ho'
  | _ => exact hs.congr (h.cabact rfl) (h.engineRegs rfl)

/-! #### The memory spaces -/

theorem MemoryInv.ctxWrite {P : Params} {s : State} (hs : MemoryInv P s) (i : BitVec 10) (v : BitVec 7) :
    MemoryInv P (ctxWrite i v s) := by
  obtain ⟨⟨hwf, hlt⟩, hcpb, hfb⟩ := hs
  refine ⟨⟨wf_cellSet hwf _ _, fun c hc => ?_⟩, hcpb, hfb⟩
  rcases mem_cellSet hc with rfl | hc
  · exact i.isLt
  · exact hlt c hc

theorem MemoryInv.ctxWriteAll {P : Params} {s : State} (hs : MemoryInv P s) (f : Nat → BitVec 7) :
    MemoryInv P (ctxWriteAll f s) :=
  ⟨⟨wf_cellListing 1024 f, fun _ hc => mem_cellListing hc⟩, hs.2⟩

theorem MemoryInv.fbWriteAll {P : Params} {s : State} (hs : MemoryInv P s) (slot : BitVec 5) (c : Comp)
    (l : List (Nat × Nat × Byte)) : MemoryInv P (fbWriteAll slot c l s) := by
  obtain ⟨hctx, hcpb, hfb⟩ := hs
  exact ⟨hctx, hcpb, wf_cellSetAll hfb _⟩

theorem MemoryInv.cpbWrite {P : Params} {s : State} (hs : MemoryInv P s) {a : Nat} (ha : a < P.cpbSize.toNat)
    (b : Byte) : MemoryInv P { s with cpb := cellSet s.cpb a b } := by
  obtain ⟨hctx, ⟨hwf, hlt⟩, hfb⟩ := hs
  refine ⟨hctx, ⟨wf_cellSet hwf _ _, fun c hc => ?_⟩, hfb⟩
  rcases mem_cellSet hc with rfl | hc
  · exact ha
  · exact hlt c hc

theorem MemoryInv.resetBlock {P : Params} {s : State} (hs : MemoryInv P s) : MemoryInv P (resetBlock s) :=
  ⟨⟨wf_nil, fun _ hc => absurd hc List.not_mem_nil⟩, hs.2⟩

theorem Effect.memoryInv {P : Params} {i : Instr} {s u : State} (h : Effect P i s u) (hs : MemoryInv P s) :
    MemoryInv P u := by
  cases i with
  | wrl reg imm =>
    obtain ⟨r, -, rfl⟩ := h
    exact hs.congr (regWriteLow_spaces imm s r)
  | sreset =>
    subst h
    exact hs.resetBlock
  | rdbits n => exact hs.congr h.rdbits_bitMove.same.spaces
  | cabstart =>
    obtain ⟨bad, offset, w, hw, rfl⟩ := h.cabstart_bitMove
    rw [startEngine_eq]
    exact hs.congr hw.same.spaces
  | cabinit col qp =>
    obtain ⟨f, rfl⟩ := h
    exact hs.ctxWriteAll f
  | cabdec ctxIdx =>
    obtain ⟨v, range, offset, w, hw, rfl⟩ := h.cabdec_bitMove
    exact (hs.ctxWrite ctxIdx v).congr hw.same.spaces
  | cabbyp =>
    obtain ⟨offset, w, hw, rfl⟩ := h.cabbyp_bitMove
    exact hs.congr hw.same.spaces
  | cabterm =>
    obtain ⟨range, rfl⟩ | ⟨range, offset, w, hw, rfl⟩ := h.cabterm_bitMove
    · exact hs
    · exact hs.congr hw.same.spaces
  | ctxwr ctxIdx val =>
    subst h
    exact hs.ctxWrite ctxIdx val
  | add4 | add8 | mcluma | mcchroma | dbkluma | dbkchroma | smpwr =>
    obtain ⟨slot, c, l, rfl⟩ := h
    exact hs.fbWriteAll slot c l
  | _ => exact hs.congr (congrArg State.spaces h :)

/-! #### Every step -/

theorem Effect.inv {P : Params} {i : Instr} {s u : State} (h : Effect P i s u) (hs : Inv P s) : Inv P u where
  fetch := h.fetchInv hs.fetch
  engine := h.engineInv hs.engine
  record := h.faultInv hs.record
  memory := h.memoryInv hs.memory

/-- The fault codes are 1 to 7 (60_exceptions.md R181). -/
theorem faultNumber_bounds (c : FaultCode) : 1 ≤ (faultNumber c).toNat ∧ (faultNumber c).toNat ≤ 7 := by
  cases c <;> decide

theorem engineInv_faultRecord {s : State} (c : FaultCode) (hs : EngineInv s) : EngineInv (faultRecord c s) :=
  hs.congr (by simp) ⟨rfl, rfl⟩

/-- A recorded fault has a code: the new one, or the first (60_exceptions.md R183). -/
theorem faultInv_faultRecord {s : State} (c : FaultCode) (hs : FaultInv s) : FaultInv (faultRecord c s) := by
  refine ⟨fun hf => absurd hf (by simp), fun _ => ?_⟩
  rw [faultRecord_faultcode]
  split
  · next hf => exact hs.2 hf
  · exact faultNumber_bounds c

theorem Inv.faultRecord {P : Params} {s : State} (hs : Inv P s) (c : FaultCode) : Inv P (faultRecord c s) where
  fetch := hs.fetch
  engine := engineInv_faultRecord c hs.engine
  record := faultInv_faultRecord c hs.record
  memory := hs.memory

theorem Inv.resetBlock {P : Params} {s : State} (hs : Inv P s) : Inv P (resetBlock s) where
  fetch := ⟨Nat.zero_le 7, Nat.zero_le 2⟩
  engine := .of_idle (flagOn_resetBlock _ s)
  record := faultInv_resetBlock s
  memory := hs.memory.resetBlock

/-- What taking a move of the host can lead to. -/
inductive Moved (s : State) : State → Prop
  | fault (c : FaultCode) : Moved s (faultRecord c s)
  | answer {i : Instr} {v : Word} {u : State} :
      Effect Config.params i s u → Moved s { u with response := some ⟨false, v⟩ }
  | cpb {a : Nat} (b : Byte) : a < Config.params.cpbSize.toNat → Moved s { s with cpb := cellSet s.cpb a b }
  | fb (slot : BitVec 5) (c : Comp) (l : List (Nat × Nat × Byte)) : Moved s (fbWriteAll slot c l s)
  | reset : Moved s (resetBlock s)

theorem takeMove_moved {m : HostMove} {s t : State} (h : takeMove m s = .next t) : Moved s t := by
  cases m with
  | command w =>
    rcases execWord_outcome h with ⟨c, rfl⟩ | ⟨i, v, u, -, hu, rfl⟩
    · exact .fault c
    · exact .answer hu
  | writeCpb a b =>
    simp only [takeMove, hostWriteCpb] at h
    split at h
    · next ha =>
      cases h
      exact .cpb b ha
    · cases h
  | writeFb slot c x y b =>
    cases h
    exact .fb slot c _
  | reset =>
    cases h
    exact .reset

/-- A step leaves the state alone or takes the first pending move. -/
theorem step_moved {s t : State} (h : step s = .next t) : t = s ∨ ∃ rest, Moved { s with inbox := rest } t := by
  cases hin : s.inbox with
  | nil =>
    simp only [step, hin] at h
    cases h
    exact .inl rfl
  | cons m rest =>
    rw [step_of_inbox_cons hin] at h
    exact .inr ⟨rest, takeMove_moved h⟩

theorem Moved.inv {s t : State} (h : Moved s t) (hs : Inv Config.params s) : Inv Config.params t := by
  cases h with
  | fault c => exact hs.faultRecord c
  | answer hu => exact (hu.inv hs).congr rfl rfl
  | cpb b ha => exact ⟨hs.fetch, hs.engine, hs.record, hs.memory.cpbWrite ha b⟩
  | fb slot c l => exact ⟨hs.fetch, hs.engine, hs.record, hs.memory.fbWriteAll slot c l⟩
  | reset => exact hs.resetBlock

/-- Settles O57: every case of a step keeps the four parts of the invariant. -/
theorem invariantIsKeptByEveryStep : Obligations.InvariantIsKeptByEveryStep := by
  intro s t hs h
  rcases step_moved h with rfl | ⟨rest, hm⟩
  · exact hs
  · exact hm.inv (hs.congr rfl rfl)

/-! ### Flags and engine registers by command

10_state.md R24, R28, R35: what `Effect` keeps, read for the commands the rules list. -/

/-- What an answered command keeps of the flags and the engine registers, with the commands named. -/
theorem exec_keepsFlags {i : Instr} {s t : State} (h : exec i s = .next t) :
    (clearsSticky i = false → ∀ f, f ≠ .cabact → flagOn f s = true → flagOn f t = true) ∧
    (changesCabact i = false → flagOn .cabact t = flagOn .cabact s) ∧
    (writesEngine i = false → t.codRange = s.codRange ∧ t.codOffset = s.codOffset) := by
  rcases exec_outcome i s t h with ⟨c, rfl⟩ | ⟨v, u, hu, rfl⟩
  · exact ⟨fun _ f _ hf => by simp [hf], fun _ => by simp, fun _ => ⟨rfl, rfl⟩⟩
  · exact ⟨fun hi => (hu.keepsSticky hi).mono, hu.cabact, hu.engineRegs⟩

/-- Settles O60: a fault only sets FAULT, and the effect of a command that is not listed keeps the flags and registers. -/
theorem statusFlagsChangeOnlyAsListed : Obligations.StatusFlagsChangeOnlyAsListed := by
  intro i s t h
  obtain ⟨hsticky, hcabact, hengine⟩ := exec_keepsFlags h
  refine ⟨fun hi => hsticky ?_, fun hi => hcabact ?_, fun hi => hengine ?_⟩
  · cases i with
    | clrst | sreset => exact hi.elim
    | _ => rfl
  · cases i with
    | cabstart | cabterm | bsinit | sreset => exact hi.elim
    | _ => rfl
  · cases i with
    | cabstart | cabdec | cabbyp | cabterm | sreset => exact hi.elim
    | _ => rfl

/-! ### Reading a register back -/

/-- The width and signedness of each register a program can write (10_state.md R22, R26, R27). -/
def regShape : Reg → Option (Nat × Bool)
  | .dstX | .dstY | .wround | .picW | .picH => some (16, false)
  | .mvX | .mvY | .w0 | .w1 | .woff => some (16, true)
  | .wshift => some (4, false)
  | .bs => some (12, false)
  | .qpav => some (6, false)
  | .foa | .fob => some (8, true)
  | .curSlot => some (5, false)
  | .cpbPtr | .cpbEnd => some (32, false)
  | .status | .faultcode | .codRange | .codOffset | .bitbuf => none

/-- The shape of a register number is the shape of the register it names. -/
theorem writableShape_eq (n : BitVec 8) : writableShape n = (regOfNumber n).bind regShape := by
  revert n
  decide

theorem regReadOnly_of_regShape {r : Reg} {p : Nat × Bool} (h : regShape r = some p) : regReadOnly r = false := by
  cases r with
  | status | faultcode | codRange | codOffset | bitbuf => cases h
  | _ => rfl

theorem regRead_response (s : State) (a : Option Response) (r : Reg) : regRead { s with response := a } r = regRead s r := by
  cases r <;> rfl

/-- Reading a register back after its write gives the low bits of the immediate, extended by its type (10_state.md R23). -/
theorem regRead_regWriteLow {r : Reg} {width : Nat} {signed : Bool} (h : regShape r = some (width, signed))
    (imm : BitVec 16) (s : State) :
    regRead (regWriteLow imm s r) r =
      if signed then (imm.setWidth width).signExtend 32 else (imm.setWidth width).setWidth 32 := by
  cases r with
  | status | faultcode | codRange | codOffset | bitbuf => cases h
  | _ => cases h; simp [regRead, regWriteLow]

theorem exec_wrl {n : BitVec 8} {r : Reg} (h : regOfNumber n = some r) (hr : regReadOnly r = false) (imm : BitVec 16)
    (s : State) : exec (.wrl n imm) s = respond 0 (regWriteLow imm s r) := by
  simp [exec, execWrl, h, hr]

theorem exec_rdreg {n : BitVec 8} {r : Reg} (h : regOfNumber n = some r) (s : State) :
    exec (.rdreg n) s = respond (regRead s r) s := by
  simp [exec, execRdreg, h]

/-- Settles O6: the register named by the number is written, and its read is `regRead_regWriteLow`. -/
theorem rdregAfterWrlReadsTheWrittenBits : Obligations.RdregAfterWrlReadsTheWrittenBits := by
  intro s n imm width signed h
  rw [writableShape_eq, Option.bind_eq_some_iff] at h
  obtain ⟨r, hn, hshape⟩ := h
  refine ⟨_, exec_wrl hn (regReadOnly_of_regShape hshape) imm s, ?_⟩
  rw [exec_rdreg hn, regRead_response, regRead_regWriteLow hshape]
  rfl

/-! ### Reset and idle engine -/

/-- Settles O1: every register by its case, the register files by their constant listing. -/
theorem resetStateHoldsTheListedValues : Obligations.ResetStateHoldsTheListedValues := by
  refine ⟨fun r => ?_, fun k => ⟨?_, ?_⟩, rfl⟩
  · cases r <;> rfl
  · exact Vector.getElem_replicate k.isLt
  · exact Vector.getElem_replicate k.isLt

/-- Settles O58: nothing is listed, no flag is set, and the fetch buffer is empty. -/
theorem resetStateSatisfiesTheInvariant : Obligations.ResetStateSatisfiesTheInvariant where
  fetch := ⟨Nat.zero_le 7, Nat.zero_le 2⟩
  engine := .of_idle rfl
  record := .of_clear rfl rfl
  memory := ⟨⟨wf_nil, fun _ hc => absurd hc List.not_mem_nil⟩, ⟨wf_nil, fun _ hc => absurd hc List.not_mem_nil⟩, wf_nil⟩

theorem cabdec_of_idle {s : State} (h : flagOn .cabact s = false) (P : Params) (i : BitVec 10) :
    cabdec P i s = raiseFault .eState s := if_neg (by simp [h])

theorem cabbyp_of_idle {s : State} (h : flagOn .cabact s = false) (P : Params) :
    cabbyp P s = raiseFault .eState s := if_neg (by simp [h])

theorem cabterm_of_idle {s : State} (h : flagOn .cabact s = false) (P : Params) :
    cabterm P s = raiseFault .eState s := if_neg (by simp [h])

/-- Settles O23: each of the three commands checks CABACT before anything else. -/
theorem idleEngineRefusesBins : Obligations.IdleEngineRefusesBins := by
  intro s i h
  exact ⟨cabdec_of_idle h _ i, cabbyp_of_idle h _, cabterm_of_idle h _⟩

end Sys2Proof.Machine

/-! ### The fetch unit by its turns

20_memory.md R46: `fetch_byte()` is at the end of the data, or it takes one turn of its loop. -/

namespace Sys2Proof.Machine

/-- 20_memory.md R46: at the end pointer OVR is set and 0 delivered. -/
theorem fetchByte_at_end {P : Params} {s : State} (h : s.cpbEnd.toNat ≤ s.cpbPtr.toNat) :
    fetchByte P s = .ok (0, setFlag .ovr s) := by
  rw [fetchByte, Nat.sub_eq_zero_of_le h, fetchLoop]

/-- Below the end pointer CPB_PTR does not wrap. -/
theorem cpbPtr_succ_toNat {s : State} (h : s.cpbPtr.toNat < s.cpbEnd.toNat) :
    (s.cpbPtr + 1).toNat = s.cpbPtr.toNat + 1 := by
  bv_omega

/-- 20_memory.md R46: below the end pointer `fetch_byte()` is one turn of the loop, which runs again after a deleted 03. -/
theorem fetchByte_turn (P : Params) {s : State} (h : s.cpbPtr.toNat < s.cpbEnd.toNat) :
    fetchByte P s = (startCodeAhead P s >>= fun hit =>
      if hit then .ok (0, setFlag .ovr { s with cpbEnd := s.cpbPtr })
      else cpbRead P s s.cpbPtr.toNat >>= fun b =>
        if s.zeros = 2 ∧ b = 3 then fetchByte P { s with cpbPtr := s.cpbPtr + 1, zeros := 0 }
        else .ok (b, { s with cpbPtr := s.cpbPtr + 1, zeros := zerosAfter s.zeros b })) := by
  obtain ⟨left, hleft⟩ : ∃ left, s.cpbEnd.toNat - s.cpbPtr.toNat = left + 1 :=
    Nat.exists_eq_succ_of_ne_zero (by omega)
  have hrest : s.cpbEnd.toNat - (s.cpbPtr + 1).toNat = left := by
    rw [cpbPtr_succ_toNat h]
    omega
  simp only [fetchByte, hleft, hrest, fetchLoop]

/-- The zero counter counts one more zero byte, to at most 2 (20_memory.md R46). -/
theorem zerosAfter_eq_min (z : BitVec 2) (b : Byte) :
    zerosAfter z b = if b = 0x00 then BitVec.ofNat 2 (min (z.toNat + 1) 2) else 0 := by
  have hcount : (if z.toNat < 2 then z + 1 else 2) = BitVec.ofNat 2 (min (z.toNat + 1) 2) := by
    revert z
    decide
  rw [zerosAfter, hcount]

/-- Settles O11: the end of the data, or one turn whose look-ahead and byte are answered under the pointer contract. -/
theorem fetchByteFollowsItsPseudocode : Obligations.FetchByteFollowsItsPseudocode := by
  intro P s hp
  rcases Nat.lt_or_ge s.cpbPtr.toNat s.cpbEnd.toNat with hlt | hend
  · have hread : cpbRead P s s.cpbPtr.toNat = .ok (cpbByte s s.cpbPtr.toNat) := cpbRead_of_lt (Nat.lt_of_lt_of_le hlt hp)
    rw [fetchByte_turn P hlt, startCodeAhead_answers hp, hread, if_neg (Nat.not_le.2 hlt), ← zerosAfter_eq_min]
    simp only [ok_bind, decide_eq_true_eq]
    rfl
  · rw [fetchByte_at_end hend, if_neg (by omega), if_pos hend]
    rfl

/-! ### The stuck fetch

20_memory.md R41, R46 (log 4): a byte at or past CpbSize cannot be read, and a command that needs one is stuck. -/

/-- The look-ahead misses on a byte that is not 0 and reads no other (20_memory.md R46; log 4). -/
theorem startCodeAhead_of_ne_zero {P : Params} {s : State} (h : s.cpbPtr.toNat < P.cpbSize.toNat)
    (hb : cpbByte s s.cpbPtr.toNat ≠ 0) : startCodeAhead P s = .ok false := by
  unfold startCodeAhead
  split
  · rw [cpbRead_of_lt h, ok_bind, if_pos hb]
  · rfl

/-- At or past CpbSize the look-ahead misses or is stuck. -/
theorem startCodeAhead_of_le {P : Params} {s : State} (h : P.cpbSize.toNat ≤ s.cpbPtr.toNat) :
    startCodeAhead P s = .ok false ∨ startCodeAhead P s = .error .cpbFetchOutside := by
  unfold startCodeAhead
  split
  · rw [cpbRead_of_le h]
    exact .inr rfl
  · exact .inl rfl

/-- A zero byte makes the look-ahead read the second byte, and two make it read the third (log 4). -/
theorem startCodeAhead_stuck {P : Params} {s : State} (hlt : s.cpbPtr.toNat + 2 < s.cpbEnd.toNat)
    (h0 : cpbByte s s.cpbPtr.toNat = 0)
    (h : P.cpbSize.toNat = s.cpbPtr.toNat + 1 ∨
      cpbByte s (s.cpbPtr.toNat + 1) = 0 ∧ P.cpbSize.toNat = s.cpbPtr.toNat + 2) :
    startCodeAhead P s = .error .cpbFetchOutside := by
  unfold startCodeAhead
  rw [if_pos hlt, cpbRead_of_lt (by omega), ok_bind, if_neg (not_not.2 h0)]
  rcases h with hsize | ⟨h1, hsize⟩
  · rw [cpbRead_of_le (by omega), error_bind]
  · rw [cpbRead_of_lt (by omega), ok_bind, if_neg (not_not.2 h1), cpbRead_of_le (by omega), error_bind]

/-- A byte to deliver that lies at or past CpbSize is not delivered (20_memory.md R41). -/
theorem fetchByte_past_cpbSize {P : Params} {s : State} (hlt : s.cpbPtr.toNat < s.cpbEnd.toNat)
    (h : P.cpbSize.toNat ≤ s.cpbPtr.toNat) : fetchByte P s = .error .cpbFetchOutside := by
  rw [fetchByte_turn P hlt]
  rcases startCodeAhead_of_le h with hahead | hahead
  · rw [hahead, ok_bind, cpbRead_of_le h]
    rfl
  · rw [hahead, error_bind]

/-- An 03 after two zero bytes is deleted, whatever CPB_END is (20_memory.md R46). -/
theorem fetchByte_deletes_three {P : Params} {s : State} (hlt : s.cpbPtr.toNat < s.cpbEnd.toNat)
    (hsize : s.cpbPtr.toNat < P.cpbSize.toNat) (hz : s.zeros = 2) (hb : cpbByte s s.cpbPtr.toNat = 3) :
    fetchByte P s = fetchByte P { s with cpbPtr := s.cpbPtr + 1, zeros := 0 } := by
  have hne : cpbByte s s.cpbPtr.toNat ≠ 0 := by
    rw [hb]
    decide
  rw [fetchByte_turn P hlt, startCodeAhead_of_ne_zero hsize hne, ok_bind, if_neg Bool.false_ne_true,
    cpbRead_of_lt hsize, ok_bind, hb, if_pos ⟨hz, rfl⟩]

@[simp] theorem finish_error_bind {α : Type} (f : Fault) (g : α → Except Fault (Word × State)) :
    finish (Except.error f >>= g) = .fault f := rfl

theorem rdbits_idle {s : State} {n : BitVec 6} (h1 : 1 ≤ n.toNat) (h32 : n.toNat ≤ 32) (h : flagOn .cabact s = false)
    (P : Params) : rdbits P n s = finish (readBits P n.toNat s >>= fun r => .ok (BitVec.ofNat 32 r.1, r.2)) := by
  rw [rdbits, if_neg (by omega), if_neg (by simp [h])]

/-- A computation that reads `m` bits and then `n` is stuck when a read of `m + n` bits is. -/
theorem readBits_bind_stuck {P : Params} {m n : Nat} {s : State} {f : Fault} {β : Type}
    (h : readBits P (m + n) s = .error f) (g : Nat × State → Nat × State → Except Fault β) :
    (readBits P m s >>= fun r => readBits P n r.2 >>= g r) = .error f := by
  rw [readBits_add] at h
  cases hm : readBits P m s with
  | error e =>
    rw [hm] at h
    cases h
    rfl
  | ok r =>
    rw [hm, ok_bind] at h
    rw [ok_bind]
    cases hn : readBits P n r.2 with
    | error e =>
      rw [hn] at h
      cases h
      rfl
    | ok r' =>
      rw [hn] at h
      cases h

/-- The bit after the next `k` is stuck: `k` bits are read from `s`, and the state `t` they leave answers no further one. -/
structure StuckAfter (P : Params) (k : Nat) (s t : State) (f : Fault) : Prop where
  reads : ∃ v, readBits P k s = .ok (v, t)
  stuck : readBit P t = .error f

theorem StuckAfter.readBits {P : Params} {k n : Nat} {s t : State} {f : Fault} (h : StuckAfter P k s t f) (hk : k < n) :
    readBits P n s = .error f :=
  let ⟨_, hv⟩ := h.reads
  readBits_stuck hv h.stuck hk

theorem StuckAfter.renorm {P : Params} {k range : Nat} {s t : State} {f : Fault} (h : StuckAfter P k s t f) (hk : k < 7)
    (hr : range * 2 ^ k < 256) (offset : Nat) : renorm P range offset s = .error f :=
  let ⟨_, hv⟩ := h.reads
  renormUpTo_stuck offset hv h.stuck hk hr

/-- Writing a context first does not unstick renormalisation. -/
theorem StuckAfter.renorm_ctxWrite {P : Params} {k range : Nat} {s t : State} {f : Fault} (h : StuckAfter P k s t f)
    (hk : k < 7) (hr : range * 2 ^ k < 256) (offset : Nat) (i : BitVec 10) (v : BitVec 7) :
    Machine.renorm P range offset (ctxWrite i v s) = .error f := by
  have hs : Machine.renorm P range offset s = .error f := h.renorm hk hr offset
  have hctx := renormUpTo_ctx P (cellSet s.ctx i.toNat v) 7 range offset s
  rw [Machine.renorm] at hs
  rw [hs] at hctx
  exact hctx

theorem StuckAfter.rdbits {P : Params} {k : Nat} {s t : State} {f : Fault} (h : StuckAfter P k s t f) {n : BitVec 6}
    (hk : k < n.toNat) (hn : n.toNat ≤ 32) (hidle : flagOn .cabact s = false) : rdbits P n s = .fault f := by
  rw [rdbits_idle (by omega) hn hidle, h.readBits hk, finish_error_bind]

theorem StuckAfter.cabstart {P : Params} {k : Nat} {s t : State} {f : Fault} (h : StuckAfter P k s t f)
    (hk : k < s.bitcnt.toNat + 9) : cabstart P s = .fault f :=
  congrArg finish (readBits_bind_stuck (h.readBits hk) _)

/-- CABDEC renormalises the range its decision picks, from the state with the context written (42_cabac.md R107). -/
theorem StuckAfter.cabdec {P : Params} {k : Nat} {s t : State} {f : Fault} (h : StuckAfter P k s t f)
    (hact : flagOn .cabact s = true) (i : BitVec 10) (hk : k < 7) (hr : (decideBin s i).2.1 * 2 ^ k < 256) :
    cabdec P i s = .fault f := by
  obtain ⟨v, hv⟩ := decideBin_state s i
  rw [Machine.cabdec, if_pos hact]
  simp only [hv, h.renorm_ctxWrite hk hr, finish_error_bind]

theorem StuckAfter.cabbyp {P : Params} {s t : State} {f : Fault} (h : StuckAfter P 0 s t f)
    (hact : flagOn .cabact s = true) : cabbyp P s = .fault f := by
  obtain ⟨⟨v, hv⟩, hstuck⟩ := h
  cases hv
  rw [Machine.cabbyp, if_pos hact, hstuck, finish_error_bind]

theorem StuckAfter.cabterm {P : Params} {k : Nat} {s t : State} {f : Fault} (h : StuckAfter P k s t f)
    (hact : flagOn .cabact s = true) (hk : k < 7) (ho : s.codOffset.toNat < s.codRange.toNat - 2)
    (hr : (s.codRange.toNat - 2) * 2 ^ k < 256) : cabterm P s = .fault f := by
  rw [Machine.cabterm, if_pos hact]
  simp only [ge_iff_le]
  rw [if_neg (Nat.not_le.2 ho), h.renorm hk hr, finish_error_bind]

/-- The range a decision leaves to renormalise (42_cabac.md R107). -/
theorem decideBin_range (s : State) (i : BitVec 10) :
    (decideBin s i).2.1 =
      if s.codOffset.toNat < s.codRange.toNat - lpsRange s i then s.codRange.toNat - lpsRange s i else lpsRange s i := by
  split
  · next hmps => rw [decideBin_mps hmps]
  · next hlps => rw [decideBin_lps (Nat.not_lt.1 hlps)]

/-- Settles O12: the three fetches by their turn, and each command by the bit it needs. -/
theorem fetchPastCpbSizeIsStuck : Obligations.FetchPastCpbSizeIsStuck := by
  intro P s
  refine ⟨fetchByte_past_cpbSize, fun hlt h0 h => ?_, fetchByte_deletes_three, fun k v t hv hempty hfetch => ?_⟩
  · rw [fetchByte_turn P (by omega), startCodeAhead_stuck hlt h0 h, error_bind]
  · have hbit : readBit P t = .error .cpbFetchOutside := readBit_of_fetch_error hempty hfetch
    have h : StuckAfter P k s t .cpbFetchOutside := ⟨⟨v, hv⟩, hbit⟩
    refine ⟨hbit, fun n => h.rdbits, h.cabstart, fun hact => ⟨fun i hk hr => ?_, ?_, ?_⟩⟩
    · exact h.cabdec hact i hk ((congrArg (· * 2 ^ k < 256) (decideBin_range s i)).mpr hr)
    · rintro rfl
      exact h.cabbyp hact
    · exact h.cabterm hact

end Sys2Proof.Machine

/-! ### Bits of the buffered byte

20_memory.md R47: a read within the buffered byte takes its highest bits; one from an empty buffer fetches the byte first. -/

namespace Sys2Proof.Machine

theorem takeBit_eq (s : State) :
    takeBit s = (s.bitbuf.getLsbD 7, { s with bitbuf := s.bitbuf <<< 1, bitcnt := s.bitcnt - 1 }) := by
  rw [takeBit, BitVec.msb_eq_getLsbD_last]

/-- After `n` bits are taken out, the next one is bit `7 − n` of the byte. -/
theorem getLsbD_seven_shiftLeft (b : Byte) {n : Nat} (hn : n < 8) : (b <<< n).getLsbD 7 = b.getLsbD (7 - n) := by
  have h7 : ¬ 7 < n := by omega
  rw [BitVec.getLsbD_shiftLeft, decide_eq_true (by decide : 7 < 8), decide_eq_false h7]
  rfl

/-- One more bit of the byte, below the bits already taken. -/
theorem topBits_succ (b : Byte) {n : Nat} (hn : n < 8) :
    b.toNat / 2 ^ (8 - n) * 2 + ((b <<< n).getLsbD 7).toNat = b.toNat / 2 ^ (8 - (n + 1)) := by
  have hpow : 2 ^ (8 - n) = 2 ^ (7 - n) * 2 := by rw [← Nat.pow_succ, show (7 - n).succ = 8 - n by omega]
  rw [getLsbD_seven_shiftLeft b hn, BitVec.getLsbD, Nat.toNat_testBit, hpow, ← Nat.div_div_eq_div_mul,
    show 8 - (n + 1) = 7 - n by omega]
  omega

/-- 20_memory.md R47: within the buffered byte a read takes its highest bits and shifts them out. -/
theorem readBits_buffered (P : Params) {s : State} (h8 : s.bitcnt.toNat ≤ 8) {n : Nat} (hn : n ≤ s.bitcnt.toNat) :
    readBits P n s = .ok (s.bitbuf.toNat / 2 ^ (8 - n),
      { s with bitbuf := s.bitbuf <<< n, bitcnt := BitVec.ofNat 4 (s.bitcnt.toNat - n) }) := by
  induction n with
  | zero =>
    have hzero : s.bitbuf.toNat / 2 ^ (8 - 0) = 0 := Nat.div_eq_of_lt s.bitbuf.isLt
    rw [hzero, BitVec.shiftLeft_zero, Nat.sub_zero, BitVec.ofNat_toNat, BitVec.setWidth_eq]
    rfl
  | succ n ih =>
    have hne : BitVec.ofNat 4 (s.bitcnt.toNat - n) ≠ 0 := by bv_omega
    have hdec : BitVec.ofNat 4 (s.bitcnt.toNat - n) - 1 = BitVec.ofNat 4 (s.bitcnt.toNat - (n + 1)) := by bv_omega
    rw [readBits_add, ih (by omega), ok_bind, readBits_one, readBit_of_ne hne, takeBit_eq, ← topBits_succ _ (by omega),
      BitVec.shiftLeft_add, ← hdec]
    rfl

theorem refill_of_fetch {P : Params} {s t : State} {b : Byte} (h : s.bitcnt = 0) (hf : fetchByte P s = .ok (b, t)) :
    refill P s = .ok { t with bitbuf := b, bitcnt := 8 } := by
  rw [refill, if_pos h, hf]
  rfl

/-- With an empty buffer a read of at least one bit is that read with the fetched byte buffered. -/
theorem readBits_succ_of_fetch {P : Params} {s t : State} {b : Byte} (h : s.bitcnt = 0) (hf : fetchByte P s = .ok (b, t))
    (n : Nat) : readBits P (n + 1) s = readBits P (n + 1) { t with bitbuf := b, bitcnt := 8 } := by
  have hne : (8 : BitVec 4) ≠ 0 := by decide
  have hbuf : refill P { t with bitbuf := b, bitcnt := 8 } = .ok { t with bitbuf := b, bitcnt := 8 } := refill_of_ne hne
  have hbit : readBit P s = readBit P { t with bitbuf := b, bitcnt := 8 } := by
    rw [readBit, readBit, refill_of_fetch h hf, hbuf]
  rw [readBits, readBitsFrom_succ, hbit]
  rfl

/-- 20_memory.md R46, R47: on a byte boundary a read of 1 to 8 bits takes the highest bits of the fetched byte. -/
theorem readBits_of_fetch {P : Params} {s t : State} {b : Byte} (h : s.bitcnt = 0) (hf : fetchByte P s = .ok (b, t))
    {n : Nat} (h1 : 1 ≤ n) (h8 : n ≤ 8) :
    readBits P n s = .ok (b.toNat / 2 ^ (8 - n), { t with bitbuf := b <<< n, bitcnt := BitVec.ofNat 4 (8 - n) }) := by
  obtain ⟨m, rfl⟩ : ∃ m, n = m + 1 := ⟨n - 1, by omega⟩
  have hcnt : (8#4).toNat = 8 := rfl
  rw [readBits_succ_of_fetch h hf, readBits_buffered P (le_of_eq hcnt) (h8.trans_eq hcnt.symm)]
  rfl

/-- Settles O14: one bit, the split of a read in two, and the bits of the buffered byte. -/
theorem readBitsTakesTheHighBitsOfTheBuffer : Obligations.ReadBitsTakesTheHighBitsOfTheBuffer := by
  intro P s
  refine ⟨fun hne => ?_, fun b t hempty hf => ?_, fun f hempty hf => readBit_of_fetch_error hempty hf, rfl,
    readBits_one P s, fun m n v t hm => ?_, fun m n f hm => ?_, fun n hn h8 => readBits_buffered P h8 hn⟩
  · rw [readBit_of_ne hne, takeBit_eq]
  · rw [readBit_of_fetch hempty hf, BitVec.msb_eq_getLsbD_last]
  · rw [readBits_add, hm, ok_bind]
  · rw [readBits_add, hm, error_bind]

/-- On a byte boundary RDBITS of 1 to 8 bits answers the highest bits of the fetched byte (41_bitstream.md R91). -/
theorem rdbits_of_fetch {P : Params} {s t : State} {b : Byte} {n : BitVec 6} (h : s.bitcnt = 0)
    (hidle : flagOn .cabact s = false) (hf : fetchByte P s = .ok (b, t)) (h1 : 1 ≤ n.toNat) (h8 : n.toNat ≤ 8) :
    rdbits P n s = .next { t with bitbuf := b <<< n.toNat, bitcnt := BitVec.ofNat 4 (8 - n.toNat)
                                  response := some ⟨false, BitVec.ofNat 32 (b.toNat / 2 ^ (8 - n.toNat))⟩ } := by
  rw [rdbits_idle h1 (by omega) hidle, readBits_of_fetch h hf h1 h8]
  rfl

/-- Settles O15: eight bits are the case in which the whole byte is answered and shifted out. -/
theorem rdbitsEightAnswersTheFetchedByte : Obligations.RdbitsEightAnswersTheFetchedByte := by
  intro P s t b n hempty hidle hf
  refine ⟨rdbits_of_fetch hempty hidle hf, ?_⟩
  have h8 : (8 : BitVec 6).toNat = 8 := rfl
  rw [rdbits_of_fetch hempty hidle hf (by decide) (by decide), h8, Nat.sub_self, Nat.pow_zero, Nat.div_one,
    BitVec.ofNat_toNat, BitVec.shiftLeft_eq_zero (le_refl 8)]
  rfl

end Sys2Proof.Machine

/-! ### Clamped reference reads

20_memory.md R44. -/

namespace Sys2Proof.Machine

/-- A coordinate clamped to `0 .. n − 1`: 0 below, itself inside, the last one beyond. -/
theorem clip3_coordinate {n : Nat} (h : 1 ≤ n) (x : Int) :
    (clip3 0 (n - 1) x).toNat < n ∧ (x < 0 → (clip3 0 (n - 1) x).toNat = 0) ∧
      (0 ≤ x → x < n → ((clip3 0 (n - 1) x).toNat : Int) = x) ∧ (n ≤ x → (clip3 0 (n - 1) x).toNat + 1 = n) := by
  rw [clip3_eq_max_min (by omega)]
  omega

/-- Settles O36: the position is the pair of clamped coordinates. -/
theorem referenceReadsAreClamped : Obligations.ReferenceReadsAreClamped := by
  intro s slot c x y hw hh
  obtain ⟨hx, hx0, hxin, hxlast⟩ := clip3_coordinate hw x
  obtain ⟨hy, hy0, hyin, hylast⟩ := clip3_coordinate hh y
  exact ⟨_, _, hx, hy, rfl, hx0, hxin, hxlast, hy0, hyin, hylast⟩

end Sys2Proof.Machine

/-! ### The host's other moves

20_memory.md R56, 70_reset_and_hazards.md R200 (log 1, log 2, log 10). -/

namespace Sys2Proof.Machine

/-- With no pending move the block waits (log 2). -/
theorem step_of_inbox_nil {s : State} (h : s.inbox = []) : step s = .next s := by
  simp only [step, h]

/-- CPB after a host write: the written byte, and every other byte as before. -/
theorem cpbByte_cellSet (s : State) (a : Nat) (b : Byte) (a' : Nat) :
    cpbByte { s with cpb := cellSet s.cpb a b } a' = if a' = a then b else cpbByte s a' := by
  simp only [cpbByte, cellGet_cellSet]
  split <;> rfl

/-- The sample a host write names reads the written value. -/
theorem fbRead_fbWriteAll_singleton (s : State) (slot : BitVec 5) (c : Comp) (x y : BitVec 16) (b : Byte) :
    fbRead (fbWriteAll slot c [(x.toNat, y.toNat, b)] s) slot c x.toNat y.toNat = b := by
  refine fbRead_fbWriteAll_of_mem s slot c _ _ _ b x.isLt y.isLt ?_ (List.mem_singleton.2 rfl) ?_
  · exact List.forall_mem_singleton.2 ⟨x.isLt, y.isLt⟩
  · exact List.forall_mem_singleton.2 fun _ _ => rfl

/-- A host write of one sample leaves every other sample alone. -/
theorem fbSameOutside_fbWriteAll_singleton (s : State) (slot : BitVec 5) (c : Comp) (x y : BitVec 16) (b : Byte) :
    FbSameOutside slot c x.toNat y.toNat 1 1 s (fbWriteAll slot c [(x.toNat, y.toNat, b)] s) := by
  intro slot' c' x' y' hx' hy' hout
  refine fbRead_fbWriteAll_of_not_mem s slot slot' c c' _ x' y' hx' hy' ?_ ?_
  · exact List.forall_mem_singleton.2 ⟨x.isLt, y.isLt⟩
  · refine List.forall_mem_singleton.2 ?_
    rintro ⟨hslot, hc, hx, hy⟩
    dsimp only at hx hy
    exact hout ⟨hslot, hc, by omega, by omega, by omega, by omega⟩

/-- Every register reads 0 after a reset of the block (10_state.md R33). -/
theorem regRead_resetBlock (s : State) (r : Reg) : regRead (resetBlock s) r = 0 := by
  have hreset : regRead (resetBlock s) r = regRead State.reset r := by cases r <;> rfl
  obtain ⟨hreg, -, -⟩ := resetStateHoldsTheListedValues
  rw [hreset, hreg]

/-- Settles O52: the step is `takeMove` of the first move, one case per move. -/
theorem stepTakesTheHostsMoves : Obligations.StepTakesTheHostsMoves := by
  intro s rest
  refine ⟨step_of_inbox_nil, fun a b h => ?_, cpbByte_cellSet s, fun slot c x y b h => ?_,
    fun h => ?_⟩
  · rw [step_of_inbox_cons h]
    rfl
  · rw [step_of_inbox_cons h]
    exact ⟨_, rfl, rfl, fbRead_fbWriteAll_singleton _ slot c x y b, fbSameOutside_fbWriteAll_singleton _ slot c x y b⟩
  · rw [step_of_inbox_cons h]
    obtain ⟨-, hfiles, -⟩ := resetStateHoldsTheListedValues
    exact ⟨_, rfl, regRead_resetBlock _, hfiles, rfl, rfl, rfl⟩

end Sys2Proof.Machine

/-! ### Which commands write each space

20_memory.md R40, 10_state.md R22, R30 to R32: the commands fall into classes by what they write, and each class keeps every space
that is not its own. -/

namespace Sys2Proof.Machine

/-- What a command may write besides the response. -/
inductive WriteClass where
  /-- the fetch unit's and the engine's registers, STATUS and FAULTCODE -/
  | engine
  /-- the registers 40_system.md R81 lets WRL write -/
  | registers
  /-- everything that is reset -/
  | all
  /-- CTX, beside the engine's registers -/
  | contexts
  | coefs
  | weights
  | samples

/-- The class of a command. -/
def writeClass : Instr → WriteClass
  | .wrl _ _ => .registers
  | .sreset => .all
  | .cabinit _ _ | .cabdec _ | .ctxwr _ _ => .contexts
  | .coefwr _ _ | .coefclr | .deq4 _ | .deq8 _ | .idct4 | .idct8 => .coefs
  | .wswr _ _ => .weights
  | .add4 _ | .add8 _ | .mcluma _ _ _ _ | .mcchroma _ _ _ _ _ | .dbkluma _ | .dbkchroma _ _ | .smpwr _ _ _ => .samples
  | .nop | .wrh _ _ | .rdreg _ | .clrst _ | .bsinit | .rdbits _ | .cabstart | .cabbyp | .cabterm | .ctxrd _ | .coefrd _
  | .smprd _ _ => .engine

/-- `t` is `s` but for the fetch unit, the engine's registers, STATUS and FAULTCODE. -/
def SameButEngine (s t : State) : Prop :=
  t = { s with status := t.status, faultcode := t.faultcode, cpbPtr := t.cpbPtr, cpbEnd := t.cpbEnd,
               codRange := t.codRange, codOffset := t.codOffset, bitbuf := t.bitbuf, bitcnt := t.bitcnt,
               zeros := t.zeros }

theorem SameButCursor.sameButEngine {s t : State} (h : SameButCursor s t) : SameButEngine s t := by
  rw [SameButEngine, h.1]

theorem sameButEngine_startEngine (bad : Bool) (offset : Nat) (s : State) :
    SameButEngine s (startEngine bad offset s) := by
  rw [SameButEngine, startEngine_eq]

theorem SameButEngine.trans {s t u : State} (h : SameButEngine s t) (h' : SameButEngine t u) : SameButEngine s u := by
  rw [SameButEngine] at *
  rw [h', h]

/-- The frame of a class: all that a command of the class may have done to the state. -/
def WriteClass.Frame : WriteClass → State → State → Prop
  | .engine, s, u => SameButEngine s u
  | .registers, s, u => ∃ imm r, u = regWriteLow imm s r
  | .all, s, u => u = resetBlock s
  | .contexts, s, u => ∃ m, SameButEngine { s with ctx := m } u
  | .coefs, s, u => u = { s with coef := u.coef }
  | .weights, s, u => u = { s with ws := u.ws }
  | .samples, s, u => u = { s with fb := u.fb }

theorem Effect.frame {P : Params} {i : Instr} {s u : State} (h : Effect P i s u) : (writeClass i).Frame s u := by
  cases i with
  | wrl reg imm =>
    obtain ⟨r, -, rfl⟩ := h
    exact ⟨imm, r, rfl⟩
  | rdbits n => exact h.rdbits_bitMove.same.sameButEngine
  | cabstart =>
    obtain ⟨bad, offset, w, hw, rfl⟩ := h.cabstart_bitMove
    exact hw.same.sameButEngine.trans (sameButEngine_startEngine bad offset w)
  | cabinit col qp =>
    obtain ⟨f, rfl⟩ := h
    exact ⟨cellListing 1024 f, rfl⟩
  | cabdec ctxIdx =>
    obtain ⟨v, range, offset, w, hw, rfl⟩ := h.cabdec_bitMove
    exact ⟨_, hw.same.sameButEngine.trans rfl⟩
  | cabbyp =>
    obtain ⟨offset, w, hw, rfl⟩ := h.cabbyp_bitMove
    exact hw.same.sameButEngine.trans rfl
  | cabterm =>
    obtain ⟨range, rfl⟩ | ⟨range, offset, w, hw, rfl⟩ := h.cabterm_bitMove
    · rfl
    · exact hw.same.sameButEngine.trans rfl
  | ctxwr ctxIdx val =>
    subst h
    exact ⟨cellSet s.ctx ctxIdx.toNat val, rfl⟩
  | add4 | add8 | mcluma | mcchroma | dbkluma | dbkchroma | smpwr =>
    obtain ⟨slot, c, l, rfl⟩ := h
    rfl
  | wrh reg imm =>
    rw [h]
    rfl
  | nop | rdreg | ctxrd | coefrd | smprd | clrst | bsinit =>
    subst h
    rfl
  | sreset | coefwr | coefclr | deq4 | deq8 | idct4 | idct8 | wswr => exact h

/-- What a command of a class keeps: CPB and the pending moves always, each other space unless the class writes it. -/
structure KeepsSpaces (k : WriteClass) (s t : State) : Prop where
  cpb : t.cpb = s.cpb
  inbox : t.inbox = s.inbox
  samples : k ≠ .samples → t.fb = s.fb
  contexts : k ≠ .contexts ∧ k ≠ .all → t.ctx = s.ctx ∧ t.ctxEpoch = s.ctxEpoch
  coefs : k ≠ .coefs ∧ k ≠ .all → t.coef = s.coef
  weights : k ≠ .weights ∧ k ≠ .all → t.ws = s.ws
  operands : k ≠ .registers ∧ k ≠ .all → SameOperands s t ∧ t.picW = s.picW ∧ t.picH = s.picH

theorem SameOperands.rfl' (s : State) : SameOperands s s :=
  ⟨rfl, rfl, rfl, rfl, rfl, rfl, rfl, rfl, rfl, rfl, rfl, rfl, rfl, rfl⟩

theorem KeepsSpaces.rfl' (k : WriteClass) (s : State) : KeepsSpaces k s s where
  cpb := rfl
  inbox := rfl
  samples _ := rfl
  contexts _ := ⟨rfl, rfl⟩
  coefs _ := rfl
  weights _ := rfl
  operands _ := ⟨.rfl' s, rfl, rfl⟩

theorem SameButEngine.keepsSpaces {s t : State} (h : SameButEngine s t) (k : WriteClass) : KeepsSpaces k s t := by
  rw [h]
  exact { KeepsSpaces.rfl' k s with }

theorem keepsSpaces_regWriteLow (imm : BitVec 16) (s : State) (r : Reg) :
    KeepsSpaces .registers s (regWriteLow imm s r) := by
  have hframe : regWriteLow imm s r = { regWriteLow imm s r with
      cpb := s.cpb, inbox := s.inbox, fb := s.fb, ctx := s.ctx, ctxEpoch := s.ctxEpoch, coef := s.coef, ws := s.ws } := by
    cases r <;> rfl
  rw [hframe]
  exact { KeepsSpaces.rfl' .registers s with operands := fun h => absurd rfl h.1 }

theorem keepsSpaces_resetBlock (s : State) : KeepsSpaces .all s (resetBlock s) where
  cpb := rfl
  inbox := rfl
  samples _ := rfl
  contexts h := absurd rfl h.2
  coefs h := absurd rfl h.2
  weights h := absurd rfl h.2
  operands h := absurd rfl h.2

/-- Each class keeps what it does not write. -/
theorem WriteClass.Frame.keepsSpaces {k : WriteClass} {s u : State} (h : k.Frame s u) : KeepsSpaces k s u := by
  cases k with
  | engine => exact SameButEngine.keepsSpaces h .engine
  | registers =>
    obtain ⟨imm, r, rfl⟩ := h
    exact keepsSpaces_regWriteLow imm s r
  | all =>
    subst h
    exact keepsSpaces_resetBlock s
  | contexts =>
    obtain ⟨m, h⟩ := h
    exact { h.keepsSpaces .contexts with contexts := fun hk => absurd rfl hk.1 }
  | coefs =>
    rw [show u = _ from h]
    exact { KeepsSpaces.rfl' .coefs s with coefs := fun hk => absurd rfl hk.1 }
  | weights =>
    rw [show u = _ from h]
    exact { KeepsSpaces.rfl' .weights s with weights := fun hk => absurd rfl hk.1 }
  | samples =>
    rw [show u = _ from h]
    exact { KeepsSpaces.rfl' .samples s with samples := fun hk => absurd rfl hk }

/-- What an answered command keeps, by its class; a fault writes STATUS and FAULTCODE only (60_exceptions.md R183). -/
theorem exec_keepsSpaces {i : Instr} {s t : State} (h : exec i s = .next t) : KeepsSpaces (writeClass i) s t := by
  rcases exec_outcome i s t h with ⟨c, rfl⟩ | ⟨v, u, hu, rfl⟩
  · exact { KeepsSpaces.rfl' _ s with }
  · exact { hu.frame.keepsSpaces with }

/-- Settles O59: a command that is not listed for a space is of a class that keeps it. -/
theorem onlyTheListedCommandsWriteEachSpace : Obligations.OnlyTheListedCommandsWriteEachSpace := by
  intro i s t h
  obtain ⟨hcpb, hinbox, hfb, hctx, hcoef, hws, hop⟩ := exec_keepsSpaces h
  refine ⟨hcpb, hinbox, fun hi => hfb ?_, fun hi => hctx ?_, fun hi => hcoef ?_, fun hi => hws ?_, fun hi => hop ?_⟩
  · cases i with
    | add4 | add8 | mcluma | mcchroma | dbkluma | dbkchroma | smpwr => exact hi.elim
    | _ => nofun
  · cases i with
    | cabinit | cabdec | ctxwr | sreset => exact hi.elim
    | _ => exact ⟨nofun, nofun⟩
  · cases i with
    | coefwr | coefclr | deq4 | deq8 | idct4 | idct8 | sreset => exact hi.elim
    | _ => exact ⟨nofun, nofun⟩
  · cases i with
    | wswr | sreset => exact hi.elim
    | _ => exact ⟨nofun, nofun⟩
  · cases i with
    | wrl | sreset => exact hi.elim
    | _ => exact ⟨nofun, nofun⟩

end Sys2Proof.Machine

/-! ### The encoding

30_encoding.md R60 to R65. A word and an encoding are compared field by field: `BitsAt` says what stands at a place of the word, and
joined fields stand at a place exactly when each part stands at its own (`bitsAt_append`). -/

namespace Sys2Proof

/-! #### What stands at a place of a word -/

/-- The bits of `w` from bit `lo` up are `x`. -/
def BitsAt (w : Word) (lo : Nat) {len : Nat} (x : BitVec len) : Prop := field w lo len = x

theorem bitsAt_append {w : Word} {lo m n : Nat} {x : BitVec m} {y : BitVec n} :
    BitsAt w lo (x ++ y) ↔ BitsAt w (lo + n) x ∧ BitsAt w lo y := by
  have hsplit : field w lo (m + n) = field w (lo + n) m ++ field w lo n :=
    (BitVec.extractLsb'_append_extractLsb'_eq_extractLsb' rfl).symm
  simp only [BitsAt, hsplit]
  constructor
  · intro h
    have hhigh := congrArg (BitVec.extractLsb' n m) h
    have hlow := congrArg (BitVec.extractLsb' 0 n) h
    simp only [BitVec.extractLsb'_append_eq_left, BitVec.extractLsb'_append_eq_right] at hhigh hlow
    exact ⟨hhigh, hlow⟩
  · rintro ⟨rfl, rfl⟩
    rfl

/-- A whole word at bit 0 is the word. -/
theorem bitsAt_zero_iff {w v : Word} : BitsAt w 0 v ↔ w = v := by
  rw [BitsAt, field, BitVec.extractLsb'_eq_self]

theorem zeroAt_iff_bitsAt {w : Word} {lo len : Nat} : zeroAt w lo len = true ↔ BitsAt w lo 0#len := beq_iff_eq

theorem bitsAt_of_opcode {w : Word} {n : Nat} (h : (field w 24 8).toNat = n) : BitsAt w 24 (BitVec.ofNat 8 n) := by
  rw [BitsAt, ← h, BitVec.ofNat_toNat, BitVec.setWidth_eq]

/-- Below the fields joined so far, the word's own field of `len` bits. -/
theorem BitsAt.thenField {w : Word} {hi m : Nat} {x : BitVec m} (h : BitsAt w hi x) (lo len : Nat)
    (hlo : lo + len = hi := by rfl) : BitsAt w lo (x ++ field w lo len) := by
  subst hlo
  exact bitsAt_append.2 ⟨h, rfl⟩

/-- Below the fields joined so far, `len` must-be-zero bits. -/
theorem BitsAt.thenZeros {w : Word} {hi m lo len : Nat} {x : BitVec m} (h : BitsAt w hi x) (hz : zeroAt w lo len = true)
    (hlo : lo + len = hi := by rfl) : BitsAt w lo (x ++ 0#len) := by
  subst hlo
  exact bitsAt_append.2 ⟨h, zeroAt_iff_bitsAt.1 hz⟩

/-! #### Everything the decoder can answer -/

/-- What the decoder can answer for a word: an assigned opcode gives a command behind its must-be-zero bits, and when these are 0
the command's encoding is the word; any other opcode is refused (30_encoding.md R65). -/
inductive Decoded (w : Word) : Except Reject Instr → Prop where
  | command {b : Bool} {i : Instr} (hop : (field w 24 8).toNat ∈ Machine.assignedOpcodes)
      (hbits : b = true → BitsAt w 0 (encode i)) : Decoded w (accept b i)
  | unassigned (hop : (field w 24 8).toNat ∉ Machine.assignedOpcodes) : Decoded w (.error .unassignedOpcode)

/-- An arm of the opcode map: below the opcode stand the fields of the arm's format. -/
theorem Decoded.arm {w : Word} {n : Nat} {b : Bool} {i : Instr} (hop : (field w 24 8).toNat = n)
    (hbits : BitsAt w 24 (BitVec.ofNat 8 n) → b = true → BitsAt w 0 (encode i))
    (hn : n ∈ Machine.assignedOpcodes := by decide) : Decoded w (accept b i) :=
  .command (hop ▸ hn) (hbits (bitsAt_of_opcode hop))

/-- An arm whose format has two places of must-be-zero bits. -/
theorem Decoded.arm₂ {w : Word} {n : Nat} {b b' : Bool} {i : Instr} (hop : (field w 24 8).toNat = n)
    (hbits : BitsAt w 24 (BitVec.ofNat 8 n) → b = true → b' = true → BitsAt w 0 (encode i))
    (hn : n ∈ Machine.assignedOpcodes := by decide) : Decoded w (accept (b && b') i) :=
  .arm hop (fun h hz => have ⟨hb, hb'⟩ := Bool.and_eq_true_iff.1 hz; hbits h hb hb') hn

/-- The decoder by the opcode map (30_encoding.md R63): each arm's fields and must-be-zero bits, from bit 23 down, are those of its
format (R61). -/
theorem decoded (w : Word) : Decoded w (decode w) := by
  unfold decode
  split
  -- format N
  case h_1 hop | h_6 hop | h_7 hop | h_9 hop | h_12 hop | h_13 hop | h_18 hop | h_22 hop | h_23 hop =>
    exact .arm hop fun h hz => h.thenZeros hz
  -- format RI: WRL, WRH, RDREG
  case h_2 hop => exact .arm (b := true) (i := .wrl _ _) hop fun h _ => h.thenField 16 8 |>.thenField 0 16
  case h_3 hop => exact .arm (b := true) (i := .wrh _ _) hop fun h _ => h.thenField 16 8 |>.thenField 0 16
  case h_4 hop => exact .arm hop fun h hz => h.thenField 16 8 |>.thenZeros hz
  -- format M
  case h_5 hop => exact .arm₂ hop fun h h5 h0 => h.thenZeros h5 |>.thenField 1 4 |>.thenZeros h0
  -- format Q
  case h_8 hop | h_20 hop | h_21 hop => exact .arm hop fun h hz => h.thenZeros hz |>.thenField 0 6
  -- format CI
  case h_10 hop => exact .arm₂ hop fun h h10 h6 => h.thenZeros h10 |>.thenField 8 2 |>.thenZeros h6 |>.thenField 0 6
  -- format CX: CABDEC and CTXRD, CTXWR
  case h_11 hop | h_15 hop => exact .arm hop fun h hz => h.thenZeros hz |>.thenField 0 10
  case h_14 hop => exact .arm₂ hop fun h h23 h10 => h.thenZeros h23 |>.thenField 16 7 |>.thenZeros h10 |>.thenField 0 10
  -- format KI: COEFWR, COEFRD, WSWR
  case h_16 hop => exact .arm hop fun h hz => h.thenZeros hz |>.thenField 16 6 |>.thenField 0 16
  case h_17 hop => exact .arm₂ hop fun h h22 h0 => h.thenZeros h22 |>.thenField 16 6 |>.thenZeros h0
  case h_19 hop => exact .arm₂ hop fun h h22 h8 => h.thenZeros h22 |>.thenField 16 6 |>.thenZeros h8 |>.thenField 0 8
  -- format P
  case h_24 hop | h_25 hop => exact .arm hop fun h hz => h.thenZeros hz |>.thenField 0 2
  -- format MC: MCLUMA, MCCHROMA
  case h_26 hop =>
    exact .arm₂ hop fun h h14 h5 =>
      h.thenZeros h14 |>.thenField 12 2 |>.thenField 10 2 |>.thenField 8 2 |>.thenZeros h5 |>.thenField 0 5
  case h_27 hop =>
    exact .arm₂ hop fun h hz h5 =>
      have ⟨h17, h14⟩ := Bool.and_eq_true_iff.1 hz
      h.thenZeros h17 |>.thenField 16 1 |>.thenZeros h14 |>.thenField 12 2 |>.thenField 10 2 |>.thenField 8 2
        |>.thenZeros h5 |>.thenField 0 5
  -- format DB: DBKLUMA, DBKCHROMA
  case h_28 hop => exact .arm hop fun h hz => h.thenZeros hz |>.thenField 0 1
  case h_29 hop => exact .arm₂ hop fun h h9 h1 => h.thenZeros h9 |>.thenField 8 1 |>.thenZeros h1 |>.thenField 0 1
  -- format SM: SMPRD, SMPWR
  case h_30 hop => exact .arm₂ hop fun h h10 h5 => h.thenZeros h10 |>.thenField 8 2 |>.thenZeros h5 |>.thenField 0 5
  case h_31 hop =>
    exact .arm₂ hop fun h h10 h5 => h.thenField 16 8 |>.thenZeros h10 |>.thenField 8 2 |>.thenZeros h5 |>.thenField 0 5
  -- no assigned opcode
  case h_32 =>
    refine .unassigned fun hmem => ?_
    simp_all [Machine.assignedOpcodes]

/-! #### Both directions -/

/-- Bits 31:24 of an encoded command are its opcode (30_encoding.md R60). -/
theorem opcode_encode (i : Instr) : (field (encode i) 24 8).toNat = Laws.OpcodeOf.opcode i := by
  cases i with
  | nop => exact Laws.OpcodeOf.nop
  | wrl => exact Laws.OpcodeOf.wrl _ _
  | wrh => exact Laws.OpcodeOf.wrh _ _
  | rdreg => exact Laws.OpcodeOf.rdreg _
  | clrst => exact Laws.OpcodeOf.clrst _
  | sreset => exact Laws.OpcodeOf.sreset
  | bsinit => exact Laws.OpcodeOf.bsinit
  | rdbits => exact Laws.OpcodeOf.rdbits _
  | cabstart => exact Laws.OpcodeOf.cabstart
  | cabinit => exact Laws.OpcodeOf.cabinit _ _
  | cabdec => exact Laws.OpcodeOf.cabdec _
  | cabbyp => exact Laws.OpcodeOf.cabbyp
  | cabterm => exact Laws.OpcodeOf.cabterm
  | ctxwr => exact Laws.OpcodeOf.ctxwr _ _
  | ctxrd => exact Laws.OpcodeOf.ctxrd _
  | coefwr => exact Laws.OpcodeOf.coefwr _ _
  | coefrd => exact Laws.OpcodeOf.coefrd _
  | coefclr => exact Laws.OpcodeOf.coefclr
  | wswr => exact Laws.OpcodeOf.wswr _ _
  | deq4 => exact Laws.OpcodeOf.deq4 _
  | deq8 => exact Laws.OpcodeOf.deq8 _
  | idct4 => exact Laws.OpcodeOf.idct4
  | idct8 => exact Laws.OpcodeOf.idct8
  | add4 => exact Laws.OpcodeOf.add4 _
  | add8 => exact Laws.OpcodeOf.add8 _
  | mcluma => exact Laws.OpcodeOf.mcluma _ _ _ _
  | mcchroma => exact Laws.OpcodeOf.mcchroma _ _ _ _ _
  | dbkluma => exact Laws.OpcodeOf.dbkluma _
  | dbkchroma => exact Laws.OpcodeOf.dbkchroma _ _
  | smprd => exact Laws.OpcodeOf.smprd _ _
  | smpwr => exact Laws.OpcodeOf.smpwr _ _ _

/-- A word with a command's fields at their places decodes to that command, unless a field is reserved. -/
theorem decode_of_bitsAt_encode {w : Word} {i : Instr} (h : BitsAt w 0 (encode i)) : decode w = accept true i := by
  have hop : (field w 24 8).toNat = Laws.OpcodeOf.opcode i := by rw [bitsAt_zero_iff.1 h, opcode_encode]
  rw [decode, hop]
  cases i with
  | nop | sreset | bsinit | cabstart | cabbyp | cabterm | coefclr | idct4 | idct8 =>
    obtain ⟨-, hz⟩ := bitsAt_append.1 h
    exact congrArg (accept · _) (zeroAt_iff_bitsAt.2 hz)
  | wrl | wrh =>
    simp only [encode, bitsAt_append] at h
    obtain ⟨⟨-, rfl⟩, rfl⟩ := h
    rfl
  | _ =>
    -- one equation per field of the format
    simp only [encode, bitsAt_append] at h
    simp only [BitsAt, Nat.reduceAdd] at h
    simp [Laws.OpcodeOf.opcode, decodeQ, decodeCX, decodeP, zeroAt, h]

/-- Settles O47: every field of the encoding stands at its place. -/
theorem decodeOfEncodeIsTheCommand : Obligations.DecodeOfEncodeIsTheCommand := by
  intro i hwf
  rw [decode_of_bitsAt_encode (bitsAt_zero_iff.2 rfl)]
  exact accept_eq_ok_iff.2 ⟨rfl, rfl, hwf⟩

/-- An accepted word is an arm's with its must-be-zero bits 0. -/
theorem Decoded.eq_ok {w : Word} {r : Except Reject Instr} {i : Instr} (h : Decoded w r) (hr : r = .ok i) :
    encode i = w ∧ i.wellFormed = true := by
  cases h with
  | command hop hbits =>
    obtain ⟨hz, rfl, hwf⟩ := accept_eq_ok_iff.1 hr
    exact ⟨(bitsAt_zero_iff.1 (hbits hz)).symm, hwf⟩
  | unassigned hop => cases hr

/-- Settles O48: the decoder's answer for the word is one of `Decoded`. -/
theorem decodedWordIsTheEncoding : Obligations.DecodedWordIsTheEncoding :=
  fun w _ h => (decoded w).eq_ok h

/-- A word's must-be-zero bits and reserved fields are never refused as an opcode (30_encoding.md R65). -/
theorem accept_ne_unassignedOpcode (b : Bool) (i : Instr) : accept b i ≠ .error .unassignedOpcode := by
  unfold accept
  split <;> nofun

theorem opcode_toNat (w : Word) : (field w 24 8).toNat = w.toNat / 2 ^ 24 := by
  rw [field_toNat]
  omega

theorem Decoded.eq_unassigned_iff {w : Word} {r : Except Reject Instr} (h : Decoded w r) :
    r = .error .unassignedOpcode ↔ (field w 24 8).toNat ∉ Machine.assignedOpcodes := by
  cases h with
  | command hop => exact iff_of_false (accept_ne_unassignedOpcode _ _) (not_not_intro hop)
  | unassigned hop => exact iff_of_true rfl hop

/-- Settles O49: an assigned opcode leads to `accept`, and no other opcode does. -/
theorem unassignedOpcodesAreExactlyRefused : Obligations.UnassignedOpcodesAreExactlyRefused := by
  intro w
  rw [← opcode_toNat]
  exact (decoded w).eq_unassigned_iff

/-- Settles O50: the words are the encodings of their commands, and the two refusals are evaluated. -/
theorem writtenWordsDecode : Obligations.WrittenWordsDecode := by
  have h := decodeOfEncodeIsTheCommand
  refine ⟨h .nop rfl, h (.wrl 0x02 0xFFFC) rfl, h (.rdbits 4) rfl, h (.ctxwr 7 41) rfl, h (.wswr 5 20) rfl,
    h (.mcchroma 1 1 1 1 0) rfl, h (.dbkchroma 1 0) rfl, h (.smpwr 3 0 0xAB) rfl, ?_, ?_⟩
  · decide
  · decide

end Sys2Proof

/-! ### The pseudo-command LI32

30_encoding.md R68, R69. -/

namespace Sys2Proof.Machine

/-- A 16-bit pattern written as a number is assembled as it is. -/
theorem asmImm16_toNat (v : BitVec 16) : asmImm16 v.toNat = some v := by
  have hv := v.isLt
  rw [asmImm16, if_pos ⟨by omega, by omega⟩, BitVec.ofInt_natCast, BitVec.ofNat_toNat, BitVec.setWidth_eq]

/-- WRH CPB_END keeps the low half (40_system.md R82). -/
theorem exec_wrh_cpbEnd (imm : BitVec 16) (s : State) :
    exec (.wrh (regNumber .cpbEnd) imm) s = respond 0 { s with cpbEnd := imm ++ s.cpbEnd.extractLsb' 0 16 } := rfl

/-- The high half of a word joined to what a register keeps of its zero-extended low half. -/
theorem high_append_low (v : Word) :
    v.extractLsb' 16 16 ++ ((v.extractLsb' 0 16).setWidth 32).extractLsb' 0 16 = v := by
  rw [BitVec.extractLsb'_setWidth_of_le (by decide), BitVec.extractLsb'_eq_self]
  exact (BitVec.extractLsb'_append_extractLsb'_eq_extractLsb' rfl).trans BitVec.extractLsb'_eq_self

/-- Settles O9: WRL leaves the low half zero-extended, WRH puts the high half above it. -/
theorem li32LoadsThePointer : Obligations.Li32LoadsThePointer := by
  intro s imm
  refine ⟨.wrl (regNumber .cpbEnd) (imm.extractLsb' 0 16), .wrh (regNumber .cpbEnd) (imm.extractLsb' 16 16), ?_,
    _, _, exec_wrl rfl rfl _ s, exec_wrh_cpbEnd _ _, ?_⟩
  · rw [expand, if_pos (.inr rfl)]
    simp only [assemble, asmImm16_toNat, Option.map_some, List.map_cons, List.map_nil]
  · simp only [regWriteLow, high_append_low]

end Sys2Proof.Machine

/-! ### The system commands

40_system.md R80 to R85. The register commands first name their register: one equation per command for a register it may
name, one for every other number. -/

namespace Sys2Proof.Machine

/-! #### Register numbers -/

/-- The number a program writes for a register is the number of that register (10_state.md R22, R24 to R29). -/
theorem regOfNumber_regNumber (r : Reg) : regOfNumber (regNumber r) = some r := by
  cases r <;> rfl

/-- No second number names a register. -/
theorem eq_regNumber_of_mem {n : BitVec 8} : ∀ r ∈ regOfNumber n, n = regNumber r := by
  revert n
  decide

/-- The unassigned register numbers (10_state.md R34). -/
theorem regOfNumber_eq_none_iff {n : BitVec 8} : regOfNumber n = none ↔ n = 0x0E ∨ n = 0x0F ∨ 0x19 ≤ n.toNat := by
  revert n
  decide

/-- The numbers that name no register WRL writes: the unassigned ones and the read-only ones (40_system.md R81). -/
theorem forall_mem_readOnly_iff {n : BitVec 8} :
    (∀ r ∈ regOfNumber n, regReadOnly r = true) ↔ n = 0x0E ∨ n = 0x0F ∨ n = 0x10 ∨ n = 0x11 ∨ 0x16 ≤ n.toNat := by
  revert n
  decide

/-! #### WRL -/

theorem exec_wrl_regNumber {r : Reg} (hr : regReadOnly r = false) (imm : BitVec 16) (s : State) :
    exec (.wrl (regNumber r) imm) s = .next { regWriteLow imm s r with response := some ⟨false, 0⟩ } :=
  exec_wrl (regOfNumber_regNumber r) hr imm s

theorem exec_wrl_fault {n : BitVec 8} (h : ∀ r ∈ regOfNumber n, regReadOnly r = true) (imm : BitVec 16) (s : State) :
    exec (.wrl n imm) s = .next (faultRecord .eReg s) := by
  cases hn : regOfNumber n with
  | none => simp [exec, execWrl, hn, raiseFault]
  | some r => simp [exec, execWrl, hn, h r hn, raiseFault]

/-- Zeros joined above a half word are its zero-extension. -/
theorem zero_append_eq_setWidth (x : BitVec 16) : 0#16 ++ x = x.setWidth 32 :=
  (BitVec.setWidth_eq_append (by decide)).symm

/-- Settles O3: WRL stores what `regWriteLow` says in the register the number names; the numbers in the last clause name no
register WRL writes. -/
theorem wrlStoresTheLowBits : Obligations.WrlStoresTheLowBits := by
  intro s imm
  simp (disch := decide) only [← BitVec.setWidth_eq_extractLsb', zero_append_eq_setWidth]
  have stores (r : Reg) (hr : regReadOnly r = false) := exec_wrl_regNumber hr imm s
  exact ⟨stores .dstX rfl, stores .dstY rfl, stores .mvX rfl, stores .mvY rfl, stores .w0 rfl, stores .w1 rfl,
    stores .wround rfl, stores .wshift rfl, stores .woff rfl, stores .bs rfl, stores .qpav rfl, stores .foa rfl,
    stores .fob rfl, stores .curSlot rfl, stores .picW rfl, stores .picH rfl, stores .cpbPtr rfl, stores .cpbEnd rfl,
    fun _ h => exec_wrl_fault (forall_mem_readOnly_iff.2 h) imm s⟩

/-! #### WRH -/

theorem exec_wrh_cpbPtr (imm : BitVec 16) (s : State) :
    exec (.wrh (regNumber .cpbPtr) imm) s = respond 0 { s with cpbPtr := imm ++ s.cpbPtr.extractLsb' 0 16 } := rfl

theorem exec_wrh_fault {n : BitVec 8} (hptr : n ≠ regNumber .cpbPtr) (hend : n ≠ regNumber .cpbEnd) (imm : BitVec 16)
    (s : State) : exec (.wrh n imm) s = .next (faultRecord .eReg s) := by
  rw [exec, execWrh]
  split
  case h_1 h => exact absurd (eq_regNumber_of_mem _ h) hptr
  case h_2 h => exact absurd (eq_regNumber_of_mem _ h) hend
  case h_3 => rfl

/-- A half word above the low half of a word, as numbers. -/
theorem append_low_eq_ofNat (x : BitVec 16) (v : Word) :
    x ++ v.extractLsb' 0 16 = BitVec.ofNat 32 (x.toNat * 2 ^ 16 + v.toNat % 2 ^ 16) := by
  rw [← BitVec.setWidth_eq (x ++ v.extractLsb' 0 16), ← BitVec.ofNat_toNat, append_toNat, field_toNat, pow_zero,
    Nat.div_one]

/-- Settles O4: CPB_PTR and CPB_END keep their low half; no other number names either of them. -/
theorem wrhWritesTheHighHalf : Obligations.WrhWritesTheHighHalf := by
  intro s imm
  rw [← append_low_eq_ofNat, ← append_low_eq_ofNat]
  exact ⟨exec_wrh_cpbPtr imm s, exec_wrh_cpbEnd imm s, fun _ hptr hend => exec_wrh_fault hptr hend imm s⟩

/-! #### RDREG -/

theorem exec_rdreg_regNumber (r : Reg) (s : State) :
    exec (.rdreg (regNumber r)) s = .next { s with response := some ⟨false, regRead s r⟩ } :=
  exec_rdreg (regOfNumber_regNumber r) s

theorem exec_rdreg_fault {n : BitVec 8} (h : regOfNumber n = none) (s : State) :
    exec (.rdreg n) s = .next (faultRecord .eReg s) := by
  simp [exec, execRdreg, h, raiseFault]

/-- BITBUF reads as zeros, bitcnt, bitbuf joined (10_state.md R29), as numbers. -/
theorem regRead_bitbuf (s : State) :
    regRead s .bitbuf = BitVec.ofNat 32 (s.zeros.toNat * 2 ^ 12 + s.bitcnt.toNat * 2 ^ 8 + s.bitbuf.toNat) := by
  rw [regRead, ← BitVec.ofNat_toNat, append_toNat, append_toNat, Nat.add_mul, Nat.mul_assoc, ← pow_add]

/-- Settles O5: RDREG answers `regRead` of the register the number names, and BITBUF by `regRead_bitbuf`. -/
theorem rdregAnswersTheExtendedRegister : Obligations.RdregAnswersTheExtendedRegister := by
  intro s
  simp only [BitVec.ofNat_toNat, ← regRead_bitbuf]
  have answers (r : Reg) := exec_rdreg_regNumber r s
  exact ⟨answers .dstX, answers .dstY, answers .mvX, answers .mvY, answers .w0, answers .w1, answers .wround,
    answers .wshift, answers .woff, answers .bs, answers .qpav, answers .foa, answers .fob, answers .curSlot,
    answers .status, answers .faultcode, answers .picW, answers .picH, answers .cpbPtr, answers .cpbEnd,
    answers .codRange, answers .codOffset, answers .bitbuf,
    fun _ h => exec_rdreg_fault (regOfNumber_eq_none_iff.2 h) s⟩

/-! #### NOP, CLRST, SRESET -/

/-- Settles O2: NOP is its response. -/
theorem nopOnlyAnswers : Obligations.NopOnlyAnswers := fun _ => rfl

/-- Settles O7: the flags after `clearSticky`, one by one; CABACT has no mask bit. -/
theorem clrstClearsTheSelectedFlags : Obligations.ClrstClearsTheSelectedFlags := by
  intro s mask
  have hflag (f : Flag) := flagOn_clearSticky mask f s
  exact ⟨_, rfl, rfl, flagOn_cabact_clearSticky mask s, hflag .ovr, hflag .alignerr, hflag .badinit, hflag .fault, rfl⟩

/-- Settles O8: the reset block's registers read 0 whatever the response is; a CTX entry not listed reads its draw. -/
theorem sresetResetsAllButTheExternalMemories : Obligations.SresetResetsAllButTheExternalMemories := by
  intro s
  obtain ⟨-, hfiles, -⟩ := resetStateHoldsTheListedValues
  refine ⟨_, rfl, fun r => ?_, hfiles, rfl, rfl, rfl, rfl, fun i => rfl⟩
  rw [regRead_response, regRead_resetBlock]

end Sys2Proof.Machine

/-! ### The bitstream commands

41_bitstream.md R90, R91: one equation per case of each command. -/

namespace Sys2Proof.Machine

/-- R91, 60_exceptions.md R182: the operand is checked first. -/
theorem rdbits_of_illegal {n : BitVec 6} (h : n.toNat = 0 ∨ 32 < n.toNat) (P : Params) (s : State) :
    rdbits P n s = raiseFault .eOperand s := if_pos h

/-- R91, 10_state.md R35: a legal read is refused while the engine is active. -/
theorem rdbits_of_active {s : State} {n : BitVec 6} (h1 : 1 ≤ n.toNat) (h32 : n.toNat ≤ 32) (h : flagOn .cabact s = true)
    (P : Params) : rdbits P n s = raiseFault .eState s := by
  rw [rdbits, if_neg (by omega), if_pos h]

/-- R91: on an idle engine RDBITS answers what `read_bits(n)` reads. -/
theorem rdbits_of_readBits {P : Params} {s t : State} {n : BitVec 6} {v : Nat} (h1 : 1 ≤ n.toNat) (h32 : n.toNat ≤ 32)
    (hidle : flagOn .cabact s = false) (h : readBits P n.toNat s = .ok (v, t)) :
    rdbits P n s = respond (BitVec.ofNat 32 v) t := by
  rw [rdbits_idle h1 h32 hidle, h, ok_bind, finish]

/-- Settles O13: under the pointer contract `read_bits(n)` answers, and moves the cursor only. -/
theorem rdbitsAnswersTheNextBits : Obligations.RdbitsAnswersTheNextBits := by
  intro s n
  refine ⟨fun h1 h32 hidle hp => ?_, fun h => rdbits_of_illegal h _ s, fun h1 h32 h => rdbits_of_active h1 h32 h _⟩
  obtain ⟨v, t, h⟩ := readBits_answers n.toNat hp
  obtain ⟨hmove, hv, -⟩ := readBits_move h
  exact ⟨v, t, h, hv, hmove.same, rdbits_of_readBits h1 h32 hidle h⟩

/-- R90: BSINIT attaches when the pointers are in order and inside CPB. -/
theorem bsinit_of_attachable {P : Params} {s : State}
    (h : s.cpbPtr.toNat ≤ s.cpbEnd.toNat ∧ s.cpbEnd.toNat ≤ P.cpbSize.toNat) :
    bsinit P s = respond 0 (clearFlag .cabact { s with bitbuf := 0, bitcnt := 0, zeros := 0 }) :=
  if_pos ⟨h.1, Nat.not_lt.2 h.2⟩

/-- R90: BSINIT refuses every other pair of pointers. -/
theorem bsinit_of_not_attachable {P : Params} {s : State}
    (h : ¬ (s.cpbPtr.toNat ≤ s.cpbEnd.toNat ∧ s.cpbEnd.toNat ≤ P.cpbSize.toNat)) :
    bsinit P s = raiseFault .eCpb s := if_neg fun h' => h ⟨h'.1, Nat.not_lt.1 h'.2⟩

/-- Settles O10: clearing CABACT leaves the other four STATUS bits. -/
theorem bsinitAttachesOrFaults : Obligations.BsinitAttachesOrFaults := fun _ =>
  ⟨bsinit_of_attachable, bsinit_of_not_attachable⟩

end Sys2Proof.Machine

/-! ### The engine's invariant

42_cabac.md R112: EngineInv reads STATUS, COD_RANGE and COD_OFFSET only, so of what a step can do (`Moved`) the effect of a
command is the one case that can change it. -/

namespace Sys2Proof.Machine

theorem Moved.engineInv {s t : State} (h : Moved s t) (hs : EngineInv s) : EngineInv t := by
  cases h with
  | fault c => exact engineInv_faultRecord c hs
  | answer hu => exact (hu.engineInv hs).congr rfl ⟨rfl, rfl⟩
  | cpb b ha => exact hs
  | fb slot c l => exact hs
  | reset => exact .of_idle (flagOn_resetBlock _ s)

/-- Settles O56: a step leaves the state alone, or takes a move, and every move keeps the engine's invariant. -/
theorem engineInvariantIsKept : Obligations.EngineInvariantIsKept := by
  intro s t hs h
  rcases step_moved h with rfl | ⟨rest, hm⟩
  · exact hs
  · exact hm.engineInv hs

end Sys2Proof.Machine

/-! ### Renormalisation

42_cabac.md R104: the number of shifts depends on the range alone, and the shifts are one read of that many bits. -/

namespace Sys2Proof.Machine

/-- `renorm` from `range` shifts `k` times: the least number of doublings that bring the range to 256 (42_cabac.md R104). -/
structure ShiftsOf (range k : Nat) : Prop where
  enough : 256 ≤ range * 2 ^ k
  least : k ≠ 0 → range * 2 ^ (k - 1) < 256

/-- The least number of doublings of a range of 2 to 511 is at most 7, and they stay below 512. -/
theorem exists_shiftsOf {range : Nat} (h2 : 2 ≤ range) (h512 : range < 512) :
    ∃ k ≤ 7, ShiftsOf range k ∧ range * 2 ^ k < 512 := by
  have h7 : 256 ≤ range * 2 ^ 7 := by omega
  have hex : ∃ k, 256 ≤ range * 2 ^ k := ⟨7, h7⟩
  have hleast : Nat.find hex ≠ 0 → range * 2 ^ (Nat.find hex - 1) < 256 := fun hk =>
    Nat.lt_of_not_le (Nat.find_min hex (Nat.sub_one_lt hk))
  refine ⟨Nat.find hex, Nat.find_min' hex h7, ⟨Nat.find_spec hex, hleast⟩, ?_⟩
  cases hk : Nat.find hex with
  | zero => omega
  | succ j =>
    have hj : range * 2 ^ j < 256 := by simpa [hk] using hleast
    rw [Nat.pow_succ, ← Nat.mul_assoc]
    omega

/-- One shift less is needed after a doubling. -/
theorem ShiftsOf.double {range k : Nat} (h : ShiftsOf range (k + 1)) : ShiftsOf (2 * range) k where
  enough := by
    have := h.enough
    rw [Nat.pow_succ] at this
    linarith
  least hk := by
    have hlt : range * 2 ^ k < 256 := h.least k.succ_ne_zero
    obtain ⟨j, rfl⟩ := Nat.exists_eq_succ_of_ne_zero hk
    rw [Nat.pow_succ] at hlt
    simp only [Nat.succ_sub_one]
    linarith

/-- A range that needs a shift is below 256. -/
theorem ShiftsOf.lt {range k : Nat} (h : ShiftsOf range (k + 1)) : range < 256 :=
  lt_of_le_of_lt (Nat.le_mul_of_pos_right range (Nat.two_pow_pos k)) (h.least k.succ_ne_zero)

/-- Renormalisation reads as many bits as it shifts, and the bits read become the low bits of the offset. -/
theorem renormUpTo_eq_readBits (P : Params) {n k range : Nat} (h : ShiftsOf range k) (hk : k ≤ n) (offset : Nat) (s : State) :
    renormUpTo P n range offset s =
      (readBits P k s).map fun r => (range * 2 ^ k, offset * 2 ^ k + r.1, r.2) := by
  induction k generalizing n range offset s with
  | zero =>
    rw [renormUpTo_done P n range offset s (by simpa using h.enough)]
    simp [readBits, readBitsFrom, Except.map]
  | succ k ih =>
    obtain ⟨m, rfl⟩ := Nat.exists_eq_add_of_le' hk
    rw [← Nat.add_assoc, renormUpTo_succ _ _ _ _ _ h.lt, readBits, readBitsFrom_succ]
    cases readBit P s with
    | error e => rfl
    | ok r =>
      rw [ok_bind, ok_bind, ih h.double (by omega), readBitsFrom_shift]
      cases readBits P k r.2 with
      | error e => rfl
      | ok r' =>
        have hr : 2 * range * 2 ^ k = range * 2 ^ (k + 1) := by ring
        have ho : (2 * offset + r.1.toNat) * 2 ^ k + r'.1 =
            offset * 2 ^ (k + 1) + ((2 * 0 + r.1.toNat) * 2 ^ k + r'.1) := by ring
        simp only [Except.map, hr, ho]

/-- Settles O17: the least number of shifts, and the read of as many bits, which answers under the pointer contract. -/
theorem renormShiftsJustEnough : Obligations.RenormShiftsJustEnough := by
  intro P s range offset h2 h512 hp
  obtain ⟨k, h7, hshifts, hlt⟩ := exists_shiftsOf h2 h512
  obtain ⟨v, t, hv⟩ := readBits_answers k hp
  obtain ⟨-, hbound, -⟩ := readBits_move hv
  refine ⟨k, v, t, h7, hv, hbound, ?_, hshifts.enough, hlt, hshifts.least⟩
  rw [renorm, renormUpTo_eq_readBits P hshifts h7, hv]
  rfl

/-- Under the pointer contract renormalisation answers, and moves the cursor only. -/
theorem renorm_answers {P : Params} {s : State} (hp : PointerContract P s) (range offset : Nat) :
    ∃ range' offset' u, renorm P range offset s = .ok (range', offset', u) ∧ SameButCursor s u :=
  let ⟨range', offset', u, hr⟩ := renormUpTo_answers hp
  ⟨range', offset', u, hr, (renorm_bitMove hr).same⟩

end Sys2Proof.Machine

/-! ### CABSTART and CABINIT

42_cabac.md R105, R106: starting the engine and initialising the contexts. -/

namespace Sys2Proof.Machine

@[simp] theorem flagOn_putEngine (f : Flag) (range offset : Nat) (s : State) :
    flagOn f (putEngine range offset s) = flagOn f s := rfl

/-- Starting the engine sets BADINIT for an illegal offset and ALIGNERR for bad alignment bits, and touches no other sticky
flag (42_cabac.md R105). -/
theorem flagOn_startEngine {f : Flag} (hf : f ≠ .cabact) (bad : Bool) (offset : Nat) (s : State) :
    flagOn f (startEngine bad offset s) =
      (flagOn f s || bad && decide (f = .alignerr) || decide (510 ≤ offset) && decide (f = .badinit)) := by
  simp [startEngine, hf]

/-- CABSTART reads the rest of the byte and then nine bits, starts the engine with them, and answers the two errors. -/
theorem cabstart_of_readBits {P : Params} {s s1 s2 : State} {a off : Nat} (ha : readBits P s.bitcnt.toNat s = .ok (a, s1))
    (hoff : readBits P 9 s1 = .ok (off, s2)) :
    cabstart P s = respond
      ((BitVec.ofBool (decide (510 ≤ off)) ++ BitVec.ofBool (decide (a ≠ 2 ^ s.bitcnt.toNat - 1))).setWidth 32)
      (startEngine (decide (a ≠ 2 ^ s.bitcnt.toNat - 1)) off s2) := by
  rw [cabstart, ha, ok_bind, hoff, ok_bind, finish]

/-- The answer of CABSTART as a number: bit 1 for an illegal offset, bit 0 for bad alignment bits (42_cabac.md R105). -/
theorem errorBits_eq_ofNat (badinit align : Prop) [Decidable badinit] [Decidable align] :
    (BitVec.ofBool (decide badinit) ++ BitVec.ofBool (decide align)).setWidth 32 =
      BitVec.ofNat 32 ((if badinit then 2 else 0) + (if align then 1 else 0)) := by
  by_cases hb : badinit <;> by_cases ha : align <;> simp [hb, ha]

/-- Settles O18: both reads answer and move the cursor only, and `startEngine` is followed field by field. -/
theorem cabstartInitialisesTheEngine : Obligations.CabstartInitialisesTheEngine := by
  intro s hp
  obtain ⟨a, s1, ha⟩ := readBits_answers s.bitcnt.toNat hp
  have hmove1 := (readBits_move ha).1
  obtain ⟨off, s2, hoff⟩ := readBits_answers 9 (hmove1.contract hp)
  have hsame : SameButCursor s s2 := hmove1.same.trans (readBits_move hoff).1.same
  let bad := decide (a ≠ 2 ^ s.bitcnt.toNat - 1)
  have hflag {f : Flag} (hf : f ≠ .cabact) := flagOn_startEngine hf bad off s2
  refine ⟨a, s1, off, s2, _, ha, hoff, hsame, cabstart_of_readBits ha hoff, ?_, flagOn_cabact_startEngine bad off s2,
    (hflag (by decide)).trans ?_, (hflag (by decide)).trans ?_, (hflag (by decide)).trans ?_,
    (hflag (by decide)).trans ?_, ?_⟩
  · rw [startEngine_eq]
  · simp [hsame.flagOn]
  · simp [hsame.flagOn, bad]
  · simp
  · simp [hsame.flagOn]
  · exact congrArg (fun v => some (Response.mk false v)) (errorBits_eq_ofNat _ _)

/-- The clipped pre-state of a context is the formula of R106, with floor division by 16. -/
theorem preCtxState_eq (mn : BitVec 8 × BitVec 8) (qp : Nat) :
    preCtxState mn qp = max 1 (min 126 (mn.1.toInt * qp / 16 + mn.2.toInt)) := clip3_eq_max_min (by decide) _

/-- A packed context is twice its pStateIdx plus its valMPS (10_state.md R32). -/
theorem packed_toNat {p : Int} (h0 : 0 ≤ p) (h63 : p ≤ 63) (v : BitVec 1) :
    ((BitVec.ofInt 6 p ++ v).toNat : Int) = 2 * p + v.toNat := by
  have hv : v.toNat < 2 ^ 1 := v.isLt
  rw [BitVec.toNat_append, ← Nat.shiftLeft_add_eq_or_of_lt hv, Nat.shiftLeft_eq, BitVec.toNat_ofInt]
  omega

theorem packPre_toNat {pre : Int} (h1 : 1 ≤ pre) (h126 : pre ≤ 126) :
    ((packPre pre).toNat : Int) = if pre ≤ 63 then 2 * (63 - pre) else 2 * (pre - 64) + 1 := by
  unfold packPre
  split
  · exact (packed_toNat (by omega) (by omega) 0#1).trans (Int.add_zero _)
  · exact packed_toNat (by omega) (by omega) 1#1

/-- Settles O19: every context is listed with its packed pre-state. -/
theorem cabinitWritesEveryContext : Obligations.CabinitWritesEveryContext := by
  intro s col qp
  refine ⟨fun hqp => ⟨_, if_neg (Nat.not_lt.2 hqp), rfl, fun i => ?_⟩, fun hqp => if_pos hqp⟩
  have hread : ctxRead (ctxWriteAll (initialCtx Config.params col qp) s) i =
      packPre (preCtxState (Config.params.ctxInitMN col i) qp.toNat) := by
    rw [ctxRead_ctxWriteAll, initialCtx, BitVec.ofNat_toNat, BitVec.setWidth_eq]
  rw [ctxRead_response, hread, preCtxState_eq]
  exact packPre_toNat (le_max_left 1 _) (max_le (by decide) (min_le_left _ _))

end Sys2Proof.Machine

/-! ### One context

42_cabac.md R103, R110, R111: a context's next value, and the two commands that reach one context. -/

namespace Sys2Proof.Machine

/-- R103's index layout: the outcome, pStateIdx, valMPS. -/
theorem transTab_append (outcome : BitVec 1) (p : BitVec 6) (v : BitVec 1) :
    transTab (outcome ++ (p ++ v)) =
      if outcome.msb then transIdxMPS p ++ v else transIdxLPS p ++ (if p = 0 then ~~~v else v) := by
  have hp : (outcome ++ (p ++ v)).extractLsb' 1 6 = p := by
    rw [BitVec.extractLsb'_append_eq_of_add_le (by decide), BitVec.extractLsb'_append_eq_left]
  have hv : (outcome ++ (p ++ v)).extractLsb' 0 1 = v := by
    rw [BitVec.extractLsb'_append_eq_of_add_le (by decide), BitVec.extractLsb'_append_eq_right]
  have hmsb : (outcome ++ (p ++ v)).msb = outcome.msb := BitVec.msb_append
  simp only [transTab, hp, hv, hmsb]

/-- Settles O16: the two outcomes of the table's index, with R102's next MPS index and the flipped bit written out. -/
theorem transTabFollowsTheStateTables : Obligations.TransTabFollowsTheStateTables := by
  intro p v
  have hmps : transIdxMPS p = if p.toNat ≤ 61 then BitVec.ofNat 6 (p.toNat + 1) else p := by
    rw [transIdxMPS, BitVec.ofNat_add, BitVec.ofNat_toNat, BitVec.setWidth_eq]
    rfl
  have hflip : ~~~v = v ^^^ 1#1 := (BitVec.xor_allOnes (x := v)).symm
  exact ⟨hmps ▸ transTab_append 1#1 p v, hflip ▸ transTab_append 0#1 p v⟩

/-- Settles O24: read after write of one context. -/
theorem ctxwrAndCtxrdReachOneContext : Obligations.CtxwrAndCtxrdReachOneContext := by
  intro s i val
  refine ⟨⟨_, rfl, rfl, ?_, fun j hj => ?_⟩, ?_⟩
  · exact (ctxRead_ctxWrite s i i val).trans (if_pos rfl)
  · exact (ctxRead_ctxWrite s i j val).trans (if_neg hj)
  · rw [BitVec.ofNat_toNat]
    rfl

end Sys2Proof.Machine

/-! ### The bin commands

42_cabac.md R107, R108, R109, with the engine active: one equation per answer of each command. -/

namespace Sys2Proof.Machine

/-- A decision in one equation: `mps` says whether the most probable symbol is decided (42_cabac.md R107). -/
theorem decideBin_eq (s : State) (i : BitVec 10) :
    let c := ctxRead s i
    let mps := decide (s.codOffset.toNat < s.codRange.toNat - lpsRange s i)
    decideBin s i = (if mps then ctxV c else ~~~ctxV c, if mps then s.codRange.toNat - lpsRange s i else lpsRange s i,
      if mps then s.codOffset.toNat else s.codOffset.toNat - (s.codRange.toNat - lpsRange s i),
      ctxWrite i (transTab (BitVec.ofBool mps ++ c)) s) := by
  intro c mps
  rcases Nat.lt_or_ge s.codOffset.toNat (s.codRange.toNat - lpsRange s i) with hmps | hlps
  · rw [decideBin_mps hmps, show mps = true from decide_eq_true hmps]
    rfl
  · rw [decideBin_lps hlps, show mps = false from decide_eq_false (Nat.not_lt.2 hlps)]
    rfl

/-- Renormalising after a context write leaves the written contexts in the state renormalising alone leaves. -/
theorem renorm_ctxWrite {P : Params} {range offset range' offset' : Nat} {s u : State}
    (h : renorm P range offset s = .ok (range', offset', u)) (i : BitVec 10) (v : BitVec 7) :
    renorm P range offset (ctxWrite i v s) = .ok (range', offset', { u with ctx := cellSet s.ctx i.toNat v }) := by
  rw [renorm] at h
  exact (renormUpTo_ctx P (cellSet s.ctx i.toNat v) 7 range offset s).trans (by rw [h]; rfl)

/-- An active engine answers CABDEC with what its decision and the renormalisation give (42_cabac.md R107). -/
theorem cabdec_of_renorm {P : Params} {s u : State} {i : BitVec 10} {bin : BitVec 1} {v : BitVec 7}
    {range offset range' offset' : Nat} (hact : flagOn .cabact s = true)
    (hd : decideBin s i = (bin, range, offset, ctxWrite i v s)) (h : renorm P range offset s = .ok (range', offset', u)) :
    cabdec P i s =
      respond (bin.setWidth 32) (putEngine range' offset' { u with ctx := cellSet s.ctx i.toNat v }) := by
  rw [cabdec, if_pos hact, hd]
  simp only [renorm_ctxWrite h, ok_bind, finish]

/-- The decoded bin as a response: valMPS, or its complement (42_cabac.md R107). -/
theorem setWidth_bin (mps : Bool) (v : BitVec 1) :
    (if mps then v else ~~~v).setWidth 32 = BitVec.ofNat 32 (if mps then v.toNat else 1 - v.toNat) := by
  revert mps v
  decide

/-- Settles O20: the decision, then renormalisation, which answers under the pointer contract and moves the cursor only. -/
theorem cabdecDecodesOneBin : Obligations.CabdecDecodesOneBin := by
  intro s i hact _ hp
  let c := ctxRead s i
  let mps := decide (s.codOffset.toNat < s.codRange.toNat - lpsRange s i)
  let v := transTab (BitVec.ofBool mps ++ c)
  obtain ⟨range, offset, u, hr, hsame⟩ := renorm_answers hp
    (if mps then s.codRange.toNat - lpsRange s i else lpsRange s i)
    (if mps then s.codOffset.toNat else s.codOffset.toNat - (s.codRange.toNat - lpsRange s i))
  have hctx (j : BitVec 10) : ctxRead { u with ctx := cellSet s.ctx i.toNat v } j = if j = i then v else ctxRead s j := by
    rw [← ctxRead_ctxWrite, ctxRead, ctxRead, hsame.1]
    rfl
  refine ⟨range, offset, u, _, hr, hsame, cabdec_of_renorm hact (decideBin_eq s i) hr, ?_, ?_, fun j hj => ?_⟩
  · rw [setWidth_bin]
    rfl
  · exact (hctx i).trans (if_pos rfl)
  · exact (hctx j).trans (if_neg hj)

/-- An active engine answers CABBYP with whether the doubled offset and the bit read reach the range (42_cabac.md R108). -/
theorem cabbyp_of_readBit {P : Params} {s u : State} {b : Bool} (hact : flagOn .cabact s = true)
    (h : readBit P s = .ok (b, u)) :
    cabbyp P s = respond (if s.codRange.toNat ≤ 2 * s.codOffset.toNat + b.toNat then 1 else 0)
      { u with codOffset := BitVec.ofNat 9 (bypassOffset s b) } := by
  rw [cabbyp, if_pos hact, h, ok_bind, bypassOffset]
  simp only [ge_iff_le]
  split <;> rfl

/-- Settles O21: one bit is read, which moves the cursor only. -/
theorem cabbypDecodesOneBypassBin : Obligations.CabbypDecodesOneBypassBin := by
  intro s hact _ hp
  obtain ⟨b, u, hb⟩ := readBit_answers hp
  refine ⟨b, u, hb, (readBit_bitMove hb).same, ?_⟩
  have hbit : b.toNat = if b then 1 else 0 := Bool.cond_eq_ite b 1 0
  refine (cabbyp_of_readBit hact hb).trans ?_
  simp only [respond, bypassOffset, hbit, decide_eq_true_eq]

/-- At the end CABTERM lowers the range by 2 and stops the engine (42_cabac.md R109). -/
theorem cabterm_at_end {s : State} (hact : flagOn .cabact s = true) (h : s.codRange.toNat - 2 ≤ s.codOffset.toNat)
    (P : Params) :
    cabterm P s = respond 1 (clearFlag .cabact { s with codRange := BitVec.ofNat 9 (s.codRange.toNat - 2) }) := by
  rw [cabterm, if_pos hact]
  exact if_pos h

/-- Before the end CABTERM renormalises the lowered range (42_cabac.md R109). -/
theorem cabterm_of_renorm {P : Params} {s u : State} {range offset : Nat} (hact : flagOn .cabact s = true)
    (h : s.codOffset.toNat < s.codRange.toNat - 2)
    (hr : renorm P (s.codRange.toNat - 2) s.codOffset.toNat s = .ok (range, offset, u)) :
    cabterm P s = respond 0 (putEngine range offset u) := by
  rw [cabterm, if_pos hact]
  refine (if_neg (Nat.not_le.2 h)).trans ?_
  rw [hr, ok_bind, finish]

/-- Settles O22: the two outcomes; clearing CABACT leaves the other four STATUS bits. -/
theorem cabtermTestsForTheEnd : Obligations.CabtermTestsForTheEnd := by
  intro s hact _ hp
  refine ⟨fun hend => cabterm_at_end hact hend _, fun hlt => ?_⟩
  obtain ⟨range, offset, u, hr, hsame⟩ := renorm_answers hp (s.codRange.toNat - 2) s.codOffset.toNat
  exact ⟨range, offset, u, hr, hsame, cabterm_of_renorm hact hlt hr⟩

end Sys2Proof.Machine

/-! ### The coefficient file

43_transform.md R121 to R124: one entry after a write, and the commands that reach one entry or all. -/

namespace Sys2Proof.Machine

/-- An entry after a pass over the first `n`. -/
theorem getElem_mapFirst (n : Nat) (cs : Coefs) (f : Nat → BitVec 32) (k : Fin 64) :
    (mapFirst n cs f)[k] = if k.val < n then f k else cs[k] := Vector.getElem_ofFn k.isLt

/-- A pass over the first `n ≤ 64` entries gives them the function's values. -/
theorem coefAt_mapFirst_of_lt {n k : Nat} (hk : k < n) (hn : n ≤ 64) (cs : Coefs) (f : Nat → BitVec 32) :
    coefAt (mapFirst n cs f) k = f k := by
  rw [coefAt_mapFirst n cs f (hk.trans_le hn), if_pos hk]

/-- A pass over the first `n` entries leaves every other index, in the file or past it, as it reads. -/
theorem coefAt_mapFirst_of_le {n k : Nat} (hk : n ≤ k) (cs : Coefs) (f : Nat → BitVec 32) :
    coefAt (mapFirst n cs f) k = coefAt cs k := by
  rcases Nat.lt_or_ge k 64 with hin | hout
  · rw [coefAt_mapFirst n cs f hin, if_neg (Nat.not_lt.2 hk)]
  · rw [coefAt, coefAt, Vector.getElem?_eq_none hout, Vector.getElem?_eq_none hout]

/-- Settles O25: one entry of a vector is set, read, or all are the constant; sign extension keeps the value. -/
theorem coefficientAndWeightAccess : Obligations.CoefficientAndWeightAccess := by
  intro s idx imm val
  refine ⟨⟨_, rfl, rfl, rfl, fun k => ?_⟩, ?_, ⟨_, rfl, rfl, rfl, fun k => ?_⟩, ⟨_, rfl, rfl, fun k => ?_⟩⟩
  · have hsext : (imm.signExtend 32).toInt = imm.toInt := BitVec.toInt_signExtend_of_le (by decide)
    calc (s.coef.set idx.toNat (imm.signExtend 32) idx.isLt)[k].toInt
        = (if idx.toNat = k.val then imm.signExtend 32 else s.coef[k]).toInt :=
          congrArg BitVec.toInt (Vector.getElem_set idx.isLt k.isLt)
      _ = if k.val = idx.toNat then imm.toInt else s.coef[k].toInt := by
          rw [apply_ite BitVec.toInt, hsext]
          exact if_congr eq_comm rfl rfl
  · rw [← coefAt_eq_getElem s.coef idx.isLt]
    rfl
  · exact Vector.getElem_replicate k.isLt
  · exact (Vector.getElem_set idx.isLt k.isLt).trans (if_congr eq_comm rfl rfl)

end Sys2Proof.Machine

/-! ### Dequantisation

43_transform.md R126, R127, R134: the operations on 32-bit patterns are the rules' integer operations, each followed by `wrap32`. -/

namespace Sys2Proof.Machine

theorem toInt_add_ofNat (c : BitVec 32) (n : Nat) : (c + BitVec.ofNat 32 n).toInt = wrap32 (c.toInt + n) := by
  rw [← BitVec.ofInt_natCast, BitVec.toInt_add, BitVec.toInt_ofInt, Int.add_bmod_bmod]
  rfl

theorem toInt_mul_ofNat (c : BitVec 32) (n : Nat) : (c * BitVec.ofNat 32 n).toInt = wrap32 (c.toInt * n) := by
  rw [← BitVec.ofInt_natCast, BitVec.toInt_mul, BitVec.toInt_ofInt, Int.mul_bmod_bmod]
  rfl

theorem toInt_shiftLeft_eq_wrap32 (c : BitVec 32) (q : Nat) : (c <<< q).toInt = wrap32 (c.toInt * 2 ^ q) := by
  have hpow : BitVec.twoPow 32 q = BitVec.ofNat 32 (2 ^ q) := BitVec.eq_of_toNat_eq (by simp [BitVec.toNat_twoPow])
  rw [BitVec.shiftLeft_eq_mul_twoPow, hpow, toInt_mul_ofNat, Nat.cast_pow, Nat.cast_ofNat]

theorem toInt_sshiftRight_eq_div (c : BitVec 32) (k : Nat) : (c.sshiftRight k).toInt = c.toInt / 2 ^ k := by
  rw [BitVec.toInt_sshiftRight, Int.shiftRight_eq_div_pow, Nat.cast_pow, Nat.cast_ofNat]

/-- R126, R127: one coefficient's dequantisation on integers. -/
theorem toInt_deqCoef (ls q rnd shift : Nat) (c : BitVec 32) :
    (deqCoef ls q rnd shift c).toInt = wrap32 (wrap32 (wrap32 (c.toInt * ls) * 2 ^ q) + rnd) / 2 ^ shift := by
  rw [deqCoef, toInt_sshiftRight_eq_div, toInt_add_ofNat, toInt_shiftLeft_eq_wrap32, toInt_mul_ofNat]

theorem toInt_deq4Coef (rounds : Bool) (qp : Nat) (s : State) (k : Fin 64) :
    (deq4Coef rounds qp s k).toInt =
      wrap32 (wrap32 (wrap32 (s.coef[k].toInt * (s.ws[k].toNat * normAdjust4x4 (qp % 6) (k.val / 4) (k.val % 4)))
        * 2 ^ (qp / 6)) + (if rounds then 8 else 0)) / 2 ^ 4 := by
  rw [deq4Coef, toInt_deqCoef, coefAt_eq_getElem s.coef k.isLt, Vector.getElem?_eq_getElem k.isLt]
  push_cast
  rfl

theorem toInt_deq8Coef (rounds : Bool) (qp : Nat) (s : State) (k : Fin 64) :
    (deq8Coef rounds qp s k).toInt =
      wrap32 (wrap32 (wrap32 (s.coef[k].toInt * (s.ws[k].toNat * normAdjust8x8 (qp % 6) (k.val / 8) (k.val % 8)))
        * 2 ^ (qp / 6)) + (if rounds then 32 else 0)) / 2 ^ 6 := by
  rw [deq8Coef, toInt_deqCoef, coefAt_eq_getElem s.coef k.isLt, Vector.getElem?_eq_getElem k.isLt]
  push_cast
  rfl

/-- R126: a legal qp dequantises the first 16 entries. -/
theorem deq4_of_legal {qp : BitVec 6} (h : qp.toNat ≤ 51) (P : Params) (s : State) :
    deq4 P qp s = respond 0 { s with coef := mapFirst 16 s.coef (deq4Coef P.deqRound qp.toNat s) } :=
  if_neg (Nat.not_lt.2 h)

/-- R127: a legal qp dequantises all entries. -/
theorem deq8_of_legal {qp : BitVec 6} (h : qp.toNat ≤ 51) (P : Params) (s : State) :
    deq8 P qp s = respond 0 { s with coef := mapFirst 64 s.coef (deq8Coef P.deqRound qp.toNat s) } :=
  if_neg (Nat.not_lt.2 h)

/-- Settles O26: each entry of the pass is the formula of its entry before. -/
theorem dequantisationFollowsTheFormula : Obligations.DequantisationFollowsTheFormula := by
  intro s qp
  refine ⟨fun hqp => ⟨⟨_, deq4_of_legal hqp _ s, rfl, rfl, fun k => ?_⟩, ⟨_, deq8_of_legal hqp _ s, rfl, rfl, fun k => ?_⟩⟩,
    fun hqp => ⟨if_pos hqp, if_pos hqp⟩⟩
  · rw [getElem_mapFirst, apply_ite BitVec.toInt, toInt_deq4Coef]
  · rw [getElem_mapFirst, if_pos k.isLt, toInt_deq8Coef]

/-- Wrapping takes off a multiple of 2^32, so it keeps a multiple of 16. -/
theorem sixteen_dvd_wrap32 {v : Int} (h : 16 ∣ v) : 16 ∣ wrap32 v := by
  rw [wrap32, Int.bmod_def]
  split <;> omega

/-- Half of 16 added to a wrapped multiple of 16 neither wraps nor reaches the next multiple. -/
theorem wrap32_round_div {v : Int} (h : 16 ∣ v) (rounds : Bool) :
    wrap32 (wrap32 v + (if rounds then 8 else 0)) / 2 ^ 4 = wrap32 v / 2 ^ 4 := by
  have hdvd := sixteen_dvd_wrap32 h
  have hlo : -2147483648 ≤ wrap32 v := Int.le_bmod (by decide)
  have hhi : wrap32 v < 2147483648 := Int.bmod_lt (by decide)
  rw [wrap32_of_mem (v := wrap32 v + _) (by split <;> omega) (by split <;> omega)]
  split <;> omega

/-- Settles O27: from qp 24 on the shift left is by at least 4, so the rounded value is a multiple of 16. -/
theorem deqRoundIsInvisibleFromQp24 : Obligations.DeqRoundIsInvisibleFromQp24 := by
  intro s qp k h24 _ hk
  have hdvd : (16 : Int) ∣ 2 ^ (qp / 6) := pow_dvd_pow 2 (by omega : 4 ≤ qp / 6)
  have hround (rounds : Bool) :=
    (toInt_deq4Coef rounds qp s ⟨k, by omega⟩).trans (wrap32_round_div (hdvd.mul_left _) rounds)
  exact BitVec.eq_of_toInt_eq ((hround true).trans (hround false).symm)

end Sys2Proof.Machine

/-! ### The inverse transforms

43_transform.md R128 to R131: the column pass as a function of its own, and the butterflies on a block that holds one value. -/

namespace Sys2Proof.Machine

/-- Row `i`, column `j` after both passes of IDCT4, before rounding (R129). -/
def colPass4 (c : Coefs) (i j : Nat) : BitVec 32 :=
  (inv4 (rowPass4 c 0 j) (rowPass4 c 1 j) (rowPass4 c 2 j) (rowPass4 c 3 j)).getD i 0

/-- Row `i`, column `j` after both passes of IDCT8, before rounding (R131). -/
def colPass8 (c : Coefs) (i j : Nat) : BitVec 32 :=
  (inv8 (rowPass8 c 0 j) (rowPass8 c 1 j) (rowPass8 c 2 j) (rowPass8 c 3 j)
    (rowPass8 c 4 j) (rowPass8 c 5 j) (rowPass8 c 6 j) (rowPass8 c 7 j)).getD i 0

theorem idct4Coef_eq_colPass4 (c : Coefs) (k : Nat) :
    idct4Coef c k = (colPass4 c (k / 4) (k % 4) + 32).sshiftRight 6 := rfl

theorem idct8Coef_eq_colPass8 (c : Coefs) (k : Nat) :
    idct8Coef c k = (colPass8 c (k / 8) (k % 8) + 32).sshiftRight 6 := rfl

/-- Settles O28: the row pass is `rowPass4`, the column pass `colPass4`. -/
theorem idct4TransformsRowsThenColumns : Obligations.Idct4TransformsRowsThenColumns := by
  intro s
  refine ⟨_, rfl, rfl, rfl, rowPass4 s.coef, colPass4 s.coef, fun i _ => ⟨rfl, rfl, rfl, rfl⟩,
    fun j _ => ⟨rfl, rfl, rfl, rfl⟩, fun i hi j hj => ?_, fun k hk => coefAt_mapFirst_of_le hk _ _⟩
  rw [coefAt_mapFirst_of_lt (by omega) (by decide), idct4Coef_eq_colPass4, show (4 * i + j) / 4 = i by omega,
    show (4 * i + j) % 4 = j by omega]

/-- Settles O29: the row pass is `rowPass8`, the column pass `colPass8`. -/
theorem idct8TransformsRowsThenColumns : Obligations.Idct8TransformsRowsThenColumns := by
  intro s
  refine ⟨_, rfl, rfl, rfl, rowPass8 s.coef, colPass8 s.coef, fun i _ => ⟨rfl, rfl, rfl, rfl, rfl, rfl, rfl, rfl⟩,
    fun j _ => ⟨rfl, rfl, rfl, rfl, rfl, rfl, rfl, rfl⟩, fun i hi j hj => ?_⟩
  rw [coefAt_mapFirst_of_lt (by omega) (by decide), idct8Coef_eq_colPass8, show (8 * i + j) / 8 = i by omega,
    show (8 * i + j) % 8 = j by omega]

/-- R128: the 4-point butterfly spreads a lone first value. -/
theorem inv4_dc (c : BitVec 32) : inv4 c 0 0 0 = List.replicate 4 c := by
  simp [inv4, List.replicate]

/-- R130: the 8-point butterfly spreads a lone first value. -/
theorem inv8_dc (c : BitVec 32) : inv8 c 0 0 0 0 0 0 0 = List.replicate 8 c := by
  simp [inv8, List.replicate]

/-- A lone COEF[0] gives both passes of IDCT4 its value everywhere. -/
theorem colPass4_dc {cs : Coefs} {c : BitVec 32} (h0 : coefAt cs 0 = c) (h : ∀ k, 1 ≤ k → k < 16 → coefAt cs k = 0)
    {i j : Nat} (hi : i < 4) (hj : j < 4) : colPass4 cs i j = c := by
  have hfirst : rowPass4 cs 0 j = c := by
    simp (disch := omega) only [rowPass4, h, h0, Nat.mul_zero, inv4_dc, List.getD_replicate]
  have hrest (r : Nat) (h1 : 1 ≤ r) (h4 : r < 4) : rowPass4 cs r j = 0 := by
    simp (disch := omega) only [rowPass4, h, inv4_dc, List.getD_replicate]
  simp (disch := omega) only [colPass4, hfirst, hrest, inv4_dc, List.getD_replicate]

/-- A lone COEF[0] gives both passes of IDCT8 its value everywhere. -/
theorem colPass8_dc {cs : Coefs} {c : BitVec 32} (h0 : coefAt cs 0 = c) (h : ∀ k, 1 ≤ k → k < 64 → coefAt cs k = 0)
    {i j : Nat} (hi : i < 8) (hj : j < 8) : colPass8 cs i j = c := by
  have hfirst : rowPass8 cs 0 j = c := by
    simp (disch := omega) only [rowPass8, h, h0, Nat.mul_zero, inv8_dc, List.getD_replicate]
  have hrest (r : Nat) (h1 : 1 ≤ r) (h8 : r < 8) : rowPass8 cs r j = 0 := by
    simp (disch := omega) only [rowPass8, h, inv8_dc, List.getD_replicate]
  simp (disch := omega) only [colPass8, hfirst, hrest, inv8_dc, List.getD_replicate]

/-- Settles O30: both passes give the value itself everywhere, which is then rounded. -/
theorem dcOnlyBlockBecomesFlat : Obligations.DcOnlyBlockBecomesFlat := by
  intro s c
  refine ⟨fun h h0 => ⟨_, rfl, fun k hk => ?_⟩, fun h h0 => ⟨_, rfl, fun k hk => ?_⟩⟩
  · rw [coefAt_mapFirst_of_lt hk (by decide), idct4Coef_eq_colPass4, colPass4_dc h0 h (by omega) (by omega)]
  · rw [coefAt_mapFirst_of_lt hk (by decide), idct8Coef_eq_colPass8, colPass8_dc h0 h (by omega) (by omega)]

end Sys2Proof.Machine

/-! ### Reconstruction

43_transform.md R132, R133. -/

namespace Sys2Proof.Machine

/-- R132: the sample stored is `Clip1(wrap32(pred + residual))`. -/
theorem addClip_toNat (pred : Byte) (residual : BitVec 32) :
    ((addClip pred residual).toNat : Int) = clip1 (wrap32 (pred.toNat + residual.toInt)) := by
  have hbounds := clip1_bounds (pred.setWidth 32 + residual).toInt
  rw [addClip, toByte_toNat hbounds.1 hbounds.2, BitVec.add_comm, ← BitVec.ofNat_toNat, toInt_add_ofNat, Int.add_comm]

/-- R132, R133: on a legal picture with the block inside the plane, every sample of the block is clipped anew. -/
theorem addBlock_of_inside {P : Params} {s : State} {comp : BitVec 2} {c : Comp} {n : Nat} (hc : compOfField comp = some c)
    (hpic : pictureLegal P s = true) (hin : blockInside s c n n = true) :
    addBlock P n comp s = respond 0 (writeBlock c n n (fun j i =>
      addClip (fbRead s s.curSlot c (s.dstX.toNat + j) (s.dstY.toNat + i)) (coefAt s.coef (n * i + j))) s) := by
  rw [addBlock, hc]
  exact if_pos (by rw [hpic, hin]; rfl)

/-- Settles O31: what a block write does, with the sums as its values. -/
theorem addReconstructsTheBlock : Obligations.AddReconstructsTheBlock := by
  intro s comp c hc hpic n i hcmd hx hy
  have hin : blockInside s c n n = true := decide_eq_true ⟨hx, hy⟩
  have hexec : exec i s = addBlock Config.params n comp s := by
    rcases hcmd with ⟨rfl, rfl⟩ | ⟨rfl, rfl⟩ <;> rfl
  obtain ⟨hX, hY⟩ := blockInside_bounds hpic hin
  obtain ⟨-, hsamples, houtside⟩ := writeBlock_spec s c n n (fun j i =>
    addClip (fbRead s s.curSlot c (s.dstX.toNat + j) (s.dstY.toNat + i)) (coefAt s.coef (n * i + j))) hX hY
  refine ⟨_, hexec.trans (addBlock_of_inside hc hpic hin), rfl, rfl, fun x hxn y hyn => ?_, houtside⟩
  rw [fbRead_response, hsamples x hxn y hyn, addClip_toNat]

end Sys2Proof.Machine

/-! ### Interpolation

44_interp.md R142 to R144: the six-tap filter once for any samples, then the phase table and the bilinear mean. -/

namespace Sys2Proof.Machine

/-- The taps are 42 up and 10 down, so bounds of the samples are bounds of the sum. -/
theorem sixTap_bounds {f : Int → Int} {lo hi : Int} (hf : ∀ d, lo ≤ f d ∧ f d ≤ hi) :
    42 * lo - 10 * hi ≤ sixTap f ∧ sixTap f ≤ 42 * hi - 10 * lo := by
  have h0 := hf (-2)
  have h1 := hf (-1)
  have h2 := hf 0
  have h3 := hf 1
  have h4 := hf 2
  have h5 := hf 3
  unfold sixTap
  omega

/-- Filtering rows then columns is filtering columns then rows. -/
theorem sixTap_comm (f : Int → Int → Int) :
    (sixTap fun d => sixTap fun e => f e d) = sixTap fun e => sixTap fun d => f e d := by
  unfold sixTap
  ring

/-- R142: J1 formed from H1 horizontally. -/
theorem sumJ1_eq_sixTap_sumH1 (R : Int → Int → Int) (x y : Int) : sumJ1 R x y = sixTap fun d => sumH1 R (x + d) y :=
  sixTap_comm fun e d => R (x + e) (y + d)

/-- A six-tap sum around `x`, its six terms written out. -/
theorem sixTap_around (g : Int → Int) (x : Int) : (sixTap fun d => g (x + d)) =
    g (x - 2) - 5 * g (x - 1) + 20 * g x + 20 * g (x + 1) - 5 * g (x + 2) + g (x + 3) := by
  simp only [sixTap, add_zero, Int.sub_eq_add_neg]

section Bounds

variable {R : Int → Int → Int} (hR : ∀ x y, 0 ≤ R x y ∧ R x y ≤ 255) (x y : Int)
include hR

theorem sumB1_bounds : -2550 ≤ sumB1 R x y ∧ sumB1 R x y ≤ 10710 := sixTap_bounds fun _ => hR _ _

theorem sumH1_bounds : -2550 ≤ sumH1 R x y ∧ sumH1 R x y ≤ 10710 := sixTap_bounds fun _ => hR _ _

theorem sumJ1_bounds : -214200 ≤ sumJ1 R x y ∧ sumJ1 R x y ≤ 475320 := sixTap_bounds fun _ => sumB1_bounds hR _ _

end Bounds

/-- Settles O32: each sum is a six-tap sum of bounded values, and J1's two forms are one by `sixTap_comm`. -/
theorem sixTapSumsAreBounded : Obligations.SixTapSumsAreBounded := by
  intro R hR x y
  obtain ⟨hBlo, hBhi⟩ := sumB1_bounds hR x y
  obtain ⟨hHlo, hHhi⟩ := sumH1_bounds hR x y
  obtain ⟨hJlo, hJhi⟩ := sumJ1_bounds hR x y
  refine ⟨sixTap_around (fun i => R i y) x, sixTap_around (R x) y, sixTap_around (sumB1 R x) y, ?_, ?_, ?_, ?_,
    hBlo, hBhi, hHlo, hHhi, hJlo, hJhi⟩
  · rw [sumJ1_eq_sixTap_sumH1]
    exact sixTap_around (fun i => sumH1 R i y) x
  · norm_num [halfB, asr]
  · norm_num [halfH, asr]
  · norm_num [halfJ, asr]

/-- R143: `avg` as the rounded mean. -/
theorem avg_eq_div (u v : Int) : avg u v = (u + v + 1) / 2 := by
  rw [avg, asr, pow_one]

/-- R143: every entry of the table is a sample, a clipped half sample, or the average of two of these. -/
theorem lumaSample_bounds {R : Int → Int → Int} (hR : ∀ x y, 0 ≤ R x y ∧ R x y ≤ 255) (x y : Int) (xF yF : Nat) :
    0 ≤ lumaSample R x y xF yF ∧ lumaSample R x y xF yF ≤ 255 := by
  have hb (x y : Int) : 0 ≤ halfB R x y ∧ halfB R x y ≤ 255 := clip1_bounds _
  have hh (x y : Int) : 0 ≤ halfH R x y ∧ halfH R x y ≤ 255 := clip1_bounds _
  have hj : 0 ≤ halfJ R x y ∧ halfJ R x y ≤ 255 := clip1_bounds _
  match yF, xF with
  | 0, 0 => exact hR _ _
  | 0, 1 => exact avg_bounds (hR _ _) (hb _ _)
  | 0, 2 => exact hb _ _
  | 0, _ + 3 => exact avg_bounds (hR _ _) (hb _ _)
  | 1, 0 => exact avg_bounds (hR _ _) (hh _ _)
  | 1, 1 => exact avg_bounds (hb _ _) (hh _ _)
  | 1, 2 => exact avg_bounds (hb _ _) hj
  | 1, _ + 3 => exact avg_bounds (hb _ _) (hh _ _)
  | 2, 0 => exact hh _ _
  | 2, 1 => exact avg_bounds (hh _ _) hj
  | 2, 2 => exact hj
  | 2, _ + 3 => exact avg_bounds hj (hh _ _)
  | _ + 3, 0 => exact avg_bounds (hR _ _) (hh _ _)
  | _ + 3, 1 => exact avg_bounds (hh _ _) (hb _ _)
  | _ + 3, 2 => exact avg_bounds hj (hb _ _)
  | _ + 3, _ + 3 => exact avg_bounds (hh _ _) (hb _ _)

/-- Settles O33: the entries are the definition's own, with `avg` written as a division. -/
theorem lumaSampleFollowsThePhaseTable : Obligations.LumaSampleFollowsThePhaseTable := by
  intro R hR x y
  simp only [← avg_eq_div]
  exact ⟨⟨rfl, rfl, rfl, rfl⟩, ⟨rfl, rfl, rfl, rfl⟩, ⟨rfl, rfl, rfl, rfl⟩, ⟨rfl, rfl, rfl, rfl⟩,
    fun xF yF _ _ => lumaSample_bounds hR x y xF yF⟩

/-- A sample times a weight that is not negative. -/
theorem weighted_sample_bounds {w v : Int} (hw : 0 ≤ w) (hv : 0 ≤ v ∧ v ≤ 255) : 0 ≤ w * v ∧ w * v ≤ w * 255 :=
  ⟨mul_nonneg hw hv.1, mul_le_mul_of_nonneg_left hv.2 hw⟩

/-- R144: the four weights sum to 64, so the mean of four samples is a sample value. -/
theorem chromaSample_bounds {R : Int → Int → Int} (hR : ∀ x y, 0 ≤ R x y ∧ R x y ≤ 255) (x y : Int) {xF yF : Nat}
    (hxF : xF < 8) (hyF : yF < 8) : 0 ≤ chromaSample R x y xF yF ∧ chromaSample R x y xF yF ≤ 255 := by
  have hx : (0 : Int) ≤ 8 - xF := by omega
  have hy : (0 : Int) ≤ 8 - yF := by omega
  have hx' : (0 : Int) ≤ xF := by omega
  have hy' : (0 : Int) ≤ yF := by omega
  have hweights : ((8 - xF) * (8 - yF) + xF * (8 - yF) + (8 - xF) * yF + xF * yF : Int) = 64 := by ring
  have h00 := weighted_sample_bounds (mul_nonneg hx hy) (hR x y)
  have h10 := weighted_sample_bounds (mul_nonneg hx' hy) (hR (x + 1) y)
  have h01 := weighted_sample_bounds (mul_nonneg hx hy') (hR x (y + 1))
  have h11 := weighted_sample_bounds (mul_nonneg hx' hy') (hR (x + 1) (y + 1))
  unfold chromaSample asr
  omega

/-- R144: at fraction (0, 0) the sample itself. -/
theorem chromaSample_zero (R : Int → Int → Int) (x y : Int) : chromaSample R x y 0 0 = R x y := by
  simp only [chromaSample, asr, Nat.cast_zero]
  omega

/-- Settles O34: the shift by 6 is the division by 64, and the weights of `chromaSample_bounds` give the range. -/
theorem chromaSampleIsTheBilinearMean : Obligations.ChromaSampleIsTheBilinearMean := by
  intro R hR x y xF yF hxF hyF
  obtain ⟨hlo, hhi⟩ := chromaSample_bounds hR x y hxF hyF
  exact ⟨by norm_num [chromaSample, asr], hlo, hhi, chromaSample_zero R x y⟩

end Sys2Proof.Machine

/-! ### Combination with the destination

44_interp.md R145. -/

namespace Sys2Proof.Machine

/-- An arithmetic shift right keeps bounds on either side of 0. -/
theorem asr_bounds {v lo hi : Int} (hlo : lo ≤ 0) (hhi : 0 ≤ hi) (h : lo ≤ v ∧ v ≤ hi) (k : Nat) :
    lo ≤ asr v k ∧ asr v k ≤ hi := by
  have hone : (1 : Int) ≤ 2 ^ k := one_le_pow₀ (by decide)
  unfold asr
  constructor
  · rw [Int.le_ediv_iff_mul_le (by omega)]
    exact (mul_le_of_one_le_right hlo hone).trans h.1
  · exact Int.ediv_le_of_le_mul (by omega) (h.2.trans (le_mul_of_one_le_right hhi hone))

/-- A signed 16-bit weight times a sample. -/
theorem weight_mul_sample_bounds (w : BitVec 16) {v : Int} (h0 : 0 ≤ v) (h255 : v ≤ 255) :
    -8355840 ≤ w.toInt * v ∧ w.toInt * v ≤ 8355585 := by
  have hlo : -32768 ≤ w.toInt := BitVec.le_toInt w
  have hhi : w.toInt < 32768 := BitVec.toInt_lt
  constructor <;> nlinarith

/-- R145: neither the sum nor the shifted sum with its offset leaves the 32-bit range. -/
theorem wrap32_weighted {v : Int} (h : -16777216 ≤ v ∧ v ≤ 16777216) (k : Nat) (off : BitVec 16) :
    wrap32 (asr (wrap32 v) k + off.toInt) = v / 2 ^ k + off.toInt := by
  have hlo : -32768 ≤ off.toInt := BitVec.le_toInt off
  have hhi : off.toInt < 32768 := BitVec.toInt_lt
  have hasr := asr_bounds (by decide) (by decide) h k
  rw [wrap32_of_mem (v := v) (by omega) (by omega), wrap32_of_mem (by omega) (by omega), asr]

theorem combine_put (s : State) (d p : Int) : combine s 0 d p = p := rfl

/-- R145, WUNI. -/
theorem combine_wuni (s : State) (d : Int) {p : Int} (h0 : 0 ≤ p) (h255 : p ≤ 255) :
    combine s 1 d p = clip1 ((s.w0.toInt * p + s.wround.toNat) / 2 ^ s.wshift.toNat + s.woff.toInt) := by
  have hp := weight_mul_sample_bounds s.w0 h0 h255
  have hround := s.wround.isLt
  exact congrArg clip1 (wrap32_weighted (by omega) _ _)

/-- R145, WBI. -/
theorem combine_wbi (s : State) {d p : Int} (hd0 : 0 ≤ d) (hd255 : d ≤ 255) (h0 : 0 ≤ p) (h255 : p ≤ 255) :
    combine s 2 d p =
      clip1 ((s.w0.toInt * d + s.w1.toInt * p + s.wround.toNat) / 2 ^ s.wshift.toNat + s.woff.toInt) := by
  have hd := weight_mul_sample_bounds s.w0 hd0 hd255
  have hp := weight_mul_sample_bounds s.w1 h0 h255
  have hround := s.wround.isLt
  exact congrArg clip1 (wrap32_weighted (by omega) _ _)

/-- Settles O35: with unit weights the mean of two samples is a sample value, which `Clip1` keeps. -/
theorem combineNeverWraps : Obligations.CombineNeverWraps := by
  intro s d p hd0 hd255 hp0 hp255
  refine ⟨combine_put s d p, combine_wuni s d hp0 hp255, combine_wbi s hd0 hd255 hp0 hp255, ?_⟩
  intro hw0 hw1 hround hshift hoff
  have hmean : 0 ≤ (d + p + 1) / 2 ∧ (d + p + 1) / 2 ≤ 255 := by omega
  rw [combine_wbi s hd0 hd255 hp0 hp255, hw0, hw1, hround, hshift, hoff]
  calc clip1 ((1 * d + 1 * p + 1) / 2 ^ 1 + 0)
      = clip1 ((d + p + 1) / 2) := by rw [one_mul, one_mul, pow_one, add_zero]
    _ = (d + p + 1) / 2 := clip3_of_mem hmean.1 hmean.2

/-- R145: what is combined from a sample value is a sample value, in every mode. -/
theorem combine_bounds (s : State) (mode : BitVec 2) (d : Int) {p : Int} (hp : 0 ≤ p ∧ p ≤ 255) :
    0 ≤ combine s mode d p ∧ combine s mode d p ≤ 255 := by
  unfold combine
  split
  · exact hp
  · split <;> exact clip1_bounds _

end Sys2Proof.Machine

/-! ### Motion compensation

44_interp.md R140, R146, R147, R150. -/

namespace Sys2Proof.Machine

/-- R140: the low bits of the pattern are the vector modulo the unit. -/
theorem mvFrac_eq_emod {k : Nat} (hk : k ≤ 16) (mv : BitVec 16) : mvFrac k mv = (mv.toInt % 2 ^ k).toNat := by
  have hdvd : (2 ^ k : Int) ∣ (2 ^ 16 : Nat) := by exact_mod_cast pow_dvd_pow 2 hk
  have hmod : mv.toInt % 2 ^ k = (mv.toNat % 2 ^ k : Nat) := by
    rw [← Int.emod_emod_of_dvd _ hdvd, BitVec.toInt_eq_toNat_bmod, Int.bmod_emod, Int.emod_emod_of_dvd _ hdvd]
    push_cast
    rfl
  rw [mvFrac, hmod, Int.toNat_natCast]

/-- R143, R144: an interpolated sample is a sample value. -/
theorem predSample_bounds (s : State) (c : Comp) (ref : BitVec 5) (x y : Nat) :
    0 ≤ predSample s c ref x y ∧ predSample s c ref x y ≤ 255 := by
  have hfrac (mv : BitVec 16) : mvFrac 3 mv < 8 := Nat.mod_lt _ (by decide)
  cases c with
  | y => exact lumaSample_bounds (refSample_bounds s ref .y) _ _ _ _
  | cb => exact chromaSample_bounds (refSample_bounds s ref .cb) _ _ (hfrac _) (hfrac _)
  | cr => exact chromaSample_bounds (refSample_bounds s ref .cr) _ _ (hfrac _) (hfrac _)

/-- R140, R146, R147: luma vectors have two fraction bits and chroma vectors three. -/
theorem predSample_eq_ite (s : State) (c : Comp) (ref : BitVec 5) (x y : Nat) :
    predSample s c ref x y =
      if c = .y then
        lumaSample (refSample s ref c) (s.dstX.toNat + x + s.mvX.toInt / 4) (s.dstY.toNat + y + s.mvY.toInt / 4)
          (s.mvX.toInt % 4).toNat (s.mvY.toInt % 4).toNat
      else
        chromaSample (refSample s ref c) (s.dstX.toNat + x + s.mvX.toInt / 8) (s.dstY.toNat + y + s.mvY.toInt / 8)
          (s.mvX.toInt % 8).toNat (s.mvY.toInt % 8).toNat := by
  have hfrac2 (mv : BitVec 16) : mvFrac 2 mv = (mv.toInt % 4).toNat := mvFrac_eq_emod (by decide) mv
  have hfrac3 (mv : BitVec 16) : mvFrac 3 mv = (mv.toInt % 8).toNat := mvFrac_eq_emod (by decide) mv
  cases c with
  | y => rw [predSample, hfrac2, hfrac2]; rfl
  | cb => rw [predSample, hfrac3, hfrac3]; rfl
  | cr => rw [predSample, hfrac3, hfrac3]; rfl

/-- R150: with a zero vector the interpolated sample is the collocated one. -/
theorem predSample_of_mv_zero {s : State} (hmvX : s.mvX = 0) (hmvY : s.mvY = 0) {c : Comp} (ref : BitVec 5) {x y : Nat}
    (hx : s.dstX.toNat + x < planeWidth s c) (hy : s.dstY.toNat + y < planeHeight s c) :
    predSample s c ref x y = (fbRead s ref c (s.dstX.toNat + x) (s.dstY.toNat + y)).toNat := by
  have hread := refSample_inside (slot := ref) hx hy
  push_cast at hread
  rw [predSample_eq_ite, hmvX, hmvY, BitVec.ofNat_eq_ofNat, BitVec.toInt_zero, ← hread]
  split
  · rw [Int.zero_ediv, add_zero, add_zero]
    rfl
  · rw [Int.zero_ediv, add_zero, add_zero]
    exact chromaSample_zero _ _ _

/-- R146, R147: both commands are one operation on their plane, and their sides are doublings of the unit (30_encoding.md R66). -/
theorem exec_motion {c : Comp} {unit : Nat} {i : Instr} {cr : BitVec 1} {ref : BitVec 5} {wc hc mode : BitVec 2}
    (h : c = .y ∧ unit = 4 ∧ i = .mcluma ref wc hc mode ∨
      c = (if cr = 0 then .cb else .cr) ∧ unit = 2 ∧ i = .mcchroma cr ref wc hc mode) :
    (∀ s, exec i s = motionBlock Config.params c ref wc hc mode s) ∧ ∀ code, blockSide c code = unit * 2 ^ code.toNat := by
  rcases h with ⟨rfl, rfl, rfl⟩ | ⟨rfl, rfl, rfl⟩
  · exact ⟨fun _ => rfl, fun _ => Nat.shiftLeft_eq _ _⟩
  · refine ⟨fun _ => rfl, fun _ => ?_⟩
    split <;> exact Nat.shiftLeft_eq _ _

/-- R146, R147: with legal codes, on a legal picture with the block inside the plane, the block is written with the combined
samples of the state before, and nothing else changes. -/
theorem motionBlock_of_inside {P : Params} {s : State} {c : Comp} {wc hc mode : BitVec 2} (ref : BitVec 5) (hwc : wc ≠ 3)
    (hhc : hc ≠ 3) (hmode : mode ≠ 3) (hpic : pictureLegal P s = true)
    (hin : blockInside s c (blockSide c wc) (blockSide c hc) = true) :
    ∃ t, motionBlock P c ref wc hc mode s = .next t ∧ SameButFb s t ∧ t.response = some ⟨false, 0⟩ ∧
      (∀ x < blockSide c wc, ∀ y < blockSide c hc,
        ((fbRead t s.curSlot c (s.dstX.toNat + x) (s.dstY.toNat + y)).toNat : Int) =
          combine s mode (fbRead s s.curSlot c (s.dstX.toNat + x) (s.dstY.toNat + y)).toNat (predSample s c ref x y)) ∧
      FbSameOutside s.curSlot c s.dstX.toNat s.dstY.toNat (blockSide c wc) (blockSide c hc) s t := by
  have hcodes : (codeLegal wc && codeLegal hc && codeLegal mode) = true := by
    simp only [codeLegal, Bool.and_eq_true, bne_iff_ne]
    exact ⟨⟨hwc, hhc⟩, hmode⟩
  have hlegal : (pictureLegal P s && blockInside s c (blockSide c wc) (blockSide c hc)) = true := by rw [hpic, hin]; rfl
  obtain ⟨hX, hY⟩ := blockInside_bounds hpic hin
  obtain ⟨-, hsamples, houtside⟩ := writeBlock_spec s c (blockSide c wc) (blockSide c hc) (fun x y =>
    toByte (combine s mode (fbRead s s.curSlot c (s.dstX.toNat + x) (s.dstY.toNat + y)).toNat (predSample s c ref x y))) hX hY
  refine ⟨_, (if_pos hcodes).trans (if_pos hlegal), rfl, rfl, fun x hx y hy => ?_, houtside⟩
  obtain ⟨hlo, hhi⟩ := combine_bounds s mode (fbRead s s.curSlot c (s.dstX.toNat + x) (s.dstY.toNat + y)).toNat
    (predSample_bounds s c ref x y)
  rw [fbRead_response, hsamples x hx y hy, toByte_toNat hlo hhi]

/-- Settles O37: the interpolated sample is taken at the vector's integer part and fraction (R140). -/
theorem motionCompensationPredictsTheBlock : Obligations.MotionCompensationPredictsTheBlock := by
  intro s ref wc hc mode cr hwc hhc hmode hpic c unit i hcmd
  obtain ⟨hexec, hside⟩ := exec_motion hcmd
  intro bw bh hx hy
  have hin : blockInside s c (blockSide c wc) (blockSide c hc) = true := by
    rw [hside, hside]
    exact decide_eq_true ⟨hx, hy⟩
  obtain ⟨t, ht, hsame, hresponse, hsamples, houtside⟩ := motionBlock_of_inside ref hwc hhc hmode hpic hin
  rw [hside, hside] at hsamples houtside
  refine ⟨t, (hexec s).trans ht, hsame, hresponse, fun x hxb y hyb => ?_, houtside⟩
  rw [hsamples x hxb y hyb, predSample_eq_ite]

/-- Settles O38: mode PUT stores the interpolated sample, which is the collocated one. -/
theorem zeroVectorCopiesTheBlock : Obligations.ZeroVectorCopiesTheBlock := by
  intro s ref wc hc cr hwc hhc hmvX hmvY hpic c unit i hcmd hx hy
  obtain ⟨hexec, hside⟩ := exec_motion hcmd
  rw [← hside] at hx hy
  obtain ⟨t, ht, -, -, hsamples, -⟩ := motionBlock_of_inside (mode := 0) ref hwc hhc (by decide) hpic
    (decide_eq_true ⟨hx, hy⟩)
  refine ⟨t, (hexec s).trans ht, fun x hxb y hyb => ?_⟩
  rw [← hside] at hxb hyb
  have hsample := hsamples x hxb y hyb
  rw [combine_put, predSample_of_mv_zero hmvX hmvY ref (by omega) (by omega)] at hsample
  exact BitVec.eq_of_toNat_eq (Int.ofNat_inj.1 hsample)

end Sys2Proof.Machine

/-! ### The frame-store port

44_interp.md R148, R149. -/

namespace Sys2Proof.Machine

/-- R148: on a legal picture with the position inside the plane, the checks pass. -/
theorem withSample_of_inside {P : Params} {comp : BitVec 2} {s : State} {c : Comp} (hc : compOfField comp = some c)
    (hpic : pictureLegal P s = true) (hx : s.dstX.toNat < planeWidth s c) (hy : s.dstY.toNat < planeHeight s c)
    (k : Comp → Result) : withSample P comp s k = k c := by
  have hin : blockInside s c 1 1 = true := decide_eq_true ⟨hx, hy⟩
  rw [withSample, hc]
  exact if_pos (by rw [hpic, hin]; rfl)

/-- Settles O39: one sample read, and one sample written. -/
theorem smprdAndSmpwrReachOneSample : Obligations.SmprdAndSmpwrReachOneSample := by
  intro s slot comp c val hc hpic hx hy
  refine ⟨(withSample_of_inside hc hpic hx hy _).trans ?_, _, withSample_of_inside hc hpic hx hy _, rfl, rfl, ?_, ?_⟩
  · rw [BitVec.ofNat_toNat]
    rfl
  · exact fbRead_fbWriteAll_singleton s slot c s.dstX s.dstY val
  · exact fbSameOutside_fbWriteAll_singleton s slot c s.dstX s.dstY val

end Sys2Proof.Machine

/-! ### Deblocking thresholds

45_deblock.md R161, R162. -/

namespace Sys2Proof.Machine

/-- R162: the index is clamped. -/
theorem thresholdIndex_eq_max_min (qpav : BitVec 6) (offset : BitVec 8) :
    thresholdIndex qpav offset = (max 0 (min 51 (qpav.toNat + offset.toInt))).toNat :=
  congrArg Int.toNat (clip3_eq_max_min (by decide) _)

/-- Settles O41: the thresholds are the tables' entries at `thresholdIndex`; the tables' shape is read off their entries. -/
theorem thresholdsComeFromTheClampedIndex : Obligations.ThresholdsComeFromTheClampedIndex := by
  refine ⟨fun s => ?_, by decide, by decide, by decide⟩
  rw [← thresholdIndex_eq_max_min, ← thresholdIndex_eq_max_min]
  exact ⟨rfl, rfl, fun _ => rfl⟩

end Sys2Proof.Machine

/-! ### The line filters

45_deblock.md R163 to R166, R171: what each shape of line lists, then the samples and the bounds read off the list. -/

namespace Sys2Proof.Machine

theorem absInt_sub_comm (a b : Int) : absInt (a - b) = absInt (b - a) := by
  unfold absInt
  split <;> split <;> omega

theorem clip1_eq_max_min (v : Int) : clip1 v = max 0 (min 255 v) := clip3_eq_max_min (by decide) v

/-- R163: `filterSamplesFlag`. -/
theorem filterSamples_iff {t : Thresholds} {bS : Nat} {p q : Nat → Int} : filterSamples t bS p q = true ↔
    bS ≠ 0 ∧ absInt (p 0 - q 0) < t.alpha ∧ absInt (p 1 - p 0) < t.beta ∧ absInt (q 1 - q 0) < t.beta :=
  decide_eq_true_iff

/-- R164: `tc`, the bound of a soft luma line. -/
def softBound (t : Thresholds) (bS : Nat) (p q : Nat → Int) : Int :=
  tc0Of t bS + (if absInt (p 2 - p 0) < t.beta then 1 else 0) + (if absInt (q 2 - q 0) < t.beta then 1 else 0)

theorem tc0Of_bounds (t : Thresholds) (bS : Nat) : 0 ≤ tc0Of t bS ∧ tc0Of t bS ≤ 25 := tc0Tab_bounds _ _

theorem softBound_bounds (t : Thresholds) (bS : Nat) (p q : Nat → Int) :
    0 ≤ softBound t bS p q ∧ softBound t bS p q ≤ 27 := by
  have h := tc0Of_bounds t bS
  unfold softBound
  split <;> split <;> omega

theorem softDelta_eq {tc : Int} (h : 0 ≤ tc) (p q : Nat → Int) :
    softDelta tc p q = max (-tc) (min tc ((4 * (q 0 - p 0) + (p 1 - q 1) + 4) / 8)) :=
  clip3_eq_max_min (by omega) _

theorem softSecond_eq {tc0 : Int} (h : 0 ≤ tc0) (p q : Nat → Int) :
    softSecond tc0 p q = p 1 + max (-tc0) (min tc0 ((p 2 + (p 0 + q 0 + 1) / 2 - 2 * p 1) / 2)) :=
  congrArg (p 1 + ·) (clip3_eq_max_min (by omega) _)

/-- R164, R166: a clipped sum or difference with `delta` is at most its bound away. -/
theorem absInt_clip1_add_softDelta_le {tc v : Int} (htc : 0 ≤ tc) (hv : 0 ≤ v ∧ v ≤ 255) (p q : Nat → Int) :
    absInt (clip1 (v + softDelta tc p q) - v) ≤ tc ∧ absInt (clip1 (v - softDelta tc p q) - v) ≤ tc := by
  obtain ⟨hlo, hhi⟩ := softDelta_bounds htc p q
  exact ⟨absInt_clip1_sub_le hv ⟨hlo, hhi⟩, absInt_clip1_sub_le (d := -softDelta tc p q) hv ⟨by omega, by omega⟩⟩

section
variable {t : Thresholds} {bS : Nat} {p q : Nat → Int}

/-- R164: the samples a soft luma line lists. -/
theorem filterLine_luma_soft (hon : filterSamples t bS p q = true) (h : bS < 4) : filterLine .y t bS p q =
    [(-1, clip1 (p 0 + softDelta (softBound t bS p q) p q)), (0, clip1 (q 0 - softDelta (softBound t bS p q) p q))]
      ++ (if absInt (p 2 - p 0) < t.beta then [(-2, softSecond (tc0Of t bS) p q)] else [])
      ++ (if absInt (q 2 - q 0) < t.beta then [(1, softSecond (tc0Of t bS) q p)] else []) := by
  simp only [filterLine, lumaLine, lumaSoft, softBound, hon, h, if_true, decide_eq_true_eq]

theorem filterLine_luma_strong (hon : filterSamples t 4 p q = true) :
    filterLine .y t 4 p q = atOffsetsP (strongSide t p q) ++ atOffsetsQ (strongSide t q p) := by
  rw [filterLine, lumaLine, if_pos hon]
  rfl

/-- R166: a chroma line with bS 1, 2 or 3. -/
theorem filterLine_chroma_soft {c : Comp} (hc : c ≠ .y) (hon : filterSamples t bS p q = true) (h : bS < 4) :
    filterLine c t bS p q =
      [(-1, clip1 (p 0 + softDelta (tc0Of t bS + 1) p q)), (0, clip1 (q 0 - softDelta (tc0Of t bS + 1) p q))] := by
  cases c with
  | y => exact absurd rfl hc
  | cb | cr => rw [filterLine, chromaLine, if_pos hon, if_pos h]

/-- R166: a chroma line with bS 4. -/
theorem filterLine_chroma_strong {c : Comp} (hc : c ≠ .y) (hon : filterSamples t 4 p q = true) :
    filterLine c t 4 p q = [(-1, (2 * p 1 + p 0 + q 1 + 2) / 4), (0, (2 * q 1 + q 0 + p 1 + 2) / 4)] := by
  cases c with
  | y => exact absurd rfl hc
  | cb | cr => rw [filterLine, chromaLine, if_pos hon]; rfl

/-- R164: the samples after a soft luma line; p2 and q2 are not listed. -/
theorem luma_soft_samples (hon : filterSamples t bS p q = true) (h : bS < 4) :
    let now := fun (o before : Int) => ((filterLine .y t bS p q).lookup o).getD before
    now (-1) (p 0) = clip1 (p 0 + softDelta (softBound t bS p q) p q) ∧
    now 0 (q 0) = clip1 (q 0 - softDelta (softBound t bS p q) p q) ∧
    now (-2) (p 1) = (if absInt (p 2 - p 0) < t.beta then softSecond (tc0Of t bS) p q else p 1) ∧
    now 1 (q 1) = (if absInt (q 2 - q 0) < t.beta then softSecond (tc0Of t bS) q p else q 1) ∧
    now (-3) (p 2) = p 2 ∧ now 2 (q 2) = q 2 := by
  rw [filterLine_luma_soft hon h]
  split <;> split <;> exact ⟨rfl, rfl, rfl, rfl, rfl, rfl⟩

/-- R165: a side takes the long filters, or only its first sample changes. -/
theorem strongSide_eq (t : Thresholds) (a b : Nat → Int) : strongSide t a b =
    if absInt (a 2 - a 0) < t.beta ∧ absInt (a 0 - b 0) < t.alpha / 4 + 2 then
      [(a 2 + 2 * a 1 + 2 * a 0 + 2 * b 0 + b 1 + 4) / 8, (a 2 + a 1 + a 0 + b 0 + 2) / 4,
        (2 * a 3 + 3 * a 2 + a 1 + a 0 + b 0 + 4) / 8]
    else [(2 * a 1 + a 0 + b 1 + 2) / 4] := rfl

/-- R165: the samples of one side after a strong luma line. -/
theorem strongSide_samples (t : Thresholds) (a b : Nat → Int) :
    let long := absInt (a 2 - a 0) < t.beta ∧ absInt (a 0 - b 0) < t.alpha / 4 + 2
    (strongSide t a b)[0]?.getD (a 0) =
      (if long then (a 2 + 2 * a 1 + 2 * a 0 + 2 * b 0 + b 1 + 4) / 8 else (2 * a 1 + a 0 + b 1 + 2) / 4) ∧
    (strongSide t a b)[1]?.getD (a 1) = (if long then (a 2 + a 1 + a 0 + b 0 + 2) / 4 else a 1) ∧
    (strongSide t a b)[2]?.getD (a 2) = (if long then (2 * a 3 + 3 * a 2 + a 1 + a 0 + b 0 + 4) / 8 else a 2) := by
  intro long
  rw [strongSide_eq]
  split <;> exact ⟨rfl, rfl, rfl⟩

/-- R165: the sample at a distance from the edge is the entry of its side's list. -/
theorem lookup_luma_strong (hon : filterSamples t 4 p q = true) :
    (filterLine .y t 4 p q).lookup (-1) = (strongSide t p q)[0]? ∧
    (filterLine .y t 4 p q).lookup (-2) = (strongSide t p q)[1]? ∧
    (filterLine .y t 4 p q).lookup (-3) = (strongSide t p q)[2]? ∧
    (filterLine .y t 4 p q).lookup 0 = (strongSide t q p)[0]? ∧
    (filterLine .y t 4 p q).lookup 1 = (strongSide t q p)[1]? ∧
    (filterLine .y t 4 p q).lookup 2 = (strongSide t q p)[2]? := by
  rw [filterLine_luma_strong hon, strongSide_eq, strongSide_eq]
  split <;> split <;> exact ⟨rfl, rfl, rfl, rfl, rfl, rfl⟩

/-- R164 to R166: beyond p2 and q2, and on a chroma line beyond p0 and q0, nothing is listed. -/
theorem lookup_filterLine_eq_none {c : Comp} {o : Int} (ho : o < -3 ∨ 2 < o ∨ (c ≠ .y ∧ o ≠ -1 ∧ o ≠ 0)) :
    (filterLine c t bS p q).lookup o = none := by
  obtain ⟨-, hall, hchroma⟩ := filterLine_offsets c t bS p q
  refine List.lookup_eq_none_iff.2 fun w hw => bne_iff_ne.2 fun hwo => ?_
  have hw3 := hall w hw
  rcases ho with ho | ho | ⟨hc, ho⟩
  · omega
  · omega
  · have hw0 := hchroma hc w hw
    omega

/-- R171: a soft luma line moves p0 and q0 by at most tc, and p1 and q1 by at most tc0. -/
theorem luma_soft_moves (hon : filterSamples t bS p q = true) (h4 : bS < 4)
    (hp : ∀ i, 0 ≤ p i ∧ p i ≤ 255) (hq : ∀ i, 0 ≤ q i ∧ q i ≤ 255) {w : Int × Int}
    (hw : w ∈ filterLine .y t bS p q) :
    (w.1 = -1 ∧ absInt (w.2 - p 0) ≤ softBound t bS p q) ∨ (w.1 = 0 ∧ absInt (w.2 - q 0) ≤ softBound t bS p q) ∨
      (w.1 = -2 ∧ absInt (w.2 - p 1) ≤ tc0Of t bS) ∨ (w.1 = 1 ∧ absInt (w.2 - q 1) ≤ tc0Of t bS) := by
  obtain ⟨htc, -⟩ := softBound_bounds t bS p q
  obtain ⟨htc0, -⟩ := tc0Of_bounds t bS
  rw [filterLine_luma_soft hon h4, List.mem_append, List.mem_append, List.mem_pair, List.mem_ite_nil_right,
    List.mem_ite_nil_right, List.mem_singleton, List.mem_singleton] at hw
  rcases hw with ((rfl | rfl) | ⟨-, rfl⟩) | ⟨-, rfl⟩
  · exact .inl ⟨rfl, (absInt_clip1_add_softDelta_le htc (hp 0) p q).1⟩
  · exact .inr (.inl ⟨rfl, (absInt_clip1_add_softDelta_le htc (hq 0) p q).2⟩)
  · exact .inr (.inr (.inl ⟨rfl, (softSecond_bounds htc0 hp hq).2.2⟩))
  · exact .inr (.inr (.inr ⟨rfl, (softSecond_bounds htc0 hq hp).2.2⟩))

/-- R171: a chroma line with bS 1, 2 or 3 moves p0 and q0 by at most tc0 + 1. -/
theorem chroma_soft_moves {c : Comp} (hc : c ≠ .y) (hon : filterSamples t bS p q = true) (h4 : bS < 4)
    (hp : ∀ i, 0 ≤ p i ∧ p i ≤ 255) (hq : ∀ i, 0 ≤ q i ∧ q i ≤ 255) {w : Int × Int}
    (hw : w ∈ filterLine c t bS p q) :
    (w.1 = -1 ∧ absInt (w.2 - p 0) ≤ tc0Of t bS + 1) ∨ (w.1 = 0 ∧ absInt (w.2 - q 0) ≤ tc0Of t bS + 1) := by
  obtain ⟨htc0, -⟩ := tc0Of_bounds t bS
  have htc : 0 ≤ tc0Of t bS + 1 := by omega
  rw [filterLine_chroma_soft hc hon h4, List.mem_pair] at hw
  rcases hw with rfl | rfl
  · exact .inl ⟨rfl, (absInt_clip1_add_softDelta_le htc (hp 0) p q).1⟩
  · exact .inr ⟨rfl, (absInt_clip1_add_softDelta_le htc (hq 0) p q).2⟩

end

/-- Settles O42: each shape of line lists its samples, and a shift is a division. -/
theorem lineFiltersFollowTheirFormulas : Obligations.LineFiltersFollowTheirFormulas := by
  intro t bS p q _
  obtain ⟨htc0, -⟩ := tc0Of_bounds t bS
  obtain ⟨htc, -⟩ := softBound_bounds t bS p q
  refine ⟨fun hoff c => ?_, fun hon h4 => ?_, fun hon h4 => ?_, fun c o v ho => ?_⟩
  · exact filterLine_of_filterSamples_false (Bool.eq_false_iff.2 (filterSamples_iff.not.2 hoff))
  · have hon := filterSamples_iff.2 hon
    have hluma := luma_soft_samples hon h4
    rw [softDelta_eq htc, softSecond_eq htc0, softSecond_eq htc0, clip1_eq_max_min, clip1_eq_max_min,
      add_comm (q 0) (p 0)] at hluma
    obtain ⟨hp0, hq0, hp1, hq1, hp2, hq2⟩ := hluma
    refine ⟨hp0, hq0, hp1, hq1, hp2, hq2, fun c hc => ?_⟩
    dsimp only
    rw [filterLine_chroma_soft hc hon h4, clip1_eq_max_min, clip1_eq_max_min, softDelta_eq (by omega)]
    exact ⟨rfl, rfl⟩
  · subst h4
    have hon := filterSamples_iff.2 hon
    obtain ⟨hp0, hp1, hp2, hq0, hq1, hq2⟩ := lookup_luma_strong hon
    obtain ⟨ep0, ep1, ep2⟩ := strongSide_samples t p q
    have hq := strongSide_samples t q p
    rw [absInt_sub_comm (q 0) (p 0),
      show q 2 + 2 * q 1 + 2 * q 0 + 2 * p 0 + p 1 + 4 = p 1 + 2 * p 0 + 2 * q 0 + 2 * q 1 + q 2 + 4 by ring,
      show q 2 + q 1 + q 0 + p 0 + 2 = p 0 + q 0 + q 1 + q 2 + 2 by ring] at hq
    obtain ⟨eq0, eq1, eq2⟩ := hq
    dsimp only
    rw [hp0, hp1, hp2, hq0, hq1, hq2]
    refine ⟨ep0, ep1, ep2, eq0, eq1, eq2, fun c hc => ?_⟩
    rw [filterLine_chroma_strong hc hon]
    exact ⟨rfl, rfl⟩
  · exact congrArg (Option.getD · v) (lookup_filterLine_eq_none ho)

/-- Settles O43: values and offsets by `filterLine_values` and `filterLine_offsets`, moves by the shape of the line. -/
theorem lineFiltersStayInBounds : Obligations.LineFiltersStayInBounds := by
  intro s c bS p q _ hp hq t tc0 tc
  obtain ⟨htc0, htc25⟩ := tc0Of_bounds t bS
  have hluma (hc : c = .y) : tc = softBound t bS p q :=
    (congrArg (tc0 + ·) (if_pos hc)).trans (add_assoc _ _ _).symm
  have hchroma (hc : c ≠ .y) : tc = tc0 + 1 := congrArg (tc0 + ·) (if_neg hc)
  obtain ⟨-, hoffsets, hchromaOffsets⟩ := filterLine_offsets c t bS p q
  refine ⟨fun _ => ⟨htc0, htc25, ?_⟩, fun w hw => ?_⟩
  · by_cases hc : c = .y
    · rw [hluma hc]
      exact (softBound_bounds t bS p q).2
    · rw [hchroma hc]
      omega
  · have hvalue := filterLine_values hp hq w hw
    have hoffset := hoffsets w hw
    refine ⟨hvalue.1, hvalue.2, hoffset.1, hoffset.2, fun hc => hchromaOffsets hc w hw, fun h4 => ?_⟩
    have hon : filterSamples t bS p q = true := by
      by_contra hoff
      rw [filterLine_of_filterSamples_false (Bool.eq_false_iff.2 hoff)] at hw
      exact List.not_mem_nil hw
    by_cases hc : c = .y
    · rw [hluma hc]
      subst hc
      exact luma_soft_moves hon h4 hp hq hw
    · rw [hchroma hc]
      exact (chroma_soft_moves hc hon h4 hp hq hw).imp_right .inl

end Sys2Proof.Machine

/-! ### Deblocking an edge

45_deblock.md R160, R167 to R170: the checks, then the samples of the edge as distinct places. -/

namespace Sys2Proof.Machine

/-- R167, R168: both commands are one operation on their plane, and its lines and depth are those of the plane. -/
theorem exec_deblock {c : Comp} {lines depth : Nat} {i : Instr} {cr dir : BitVec 1}
    (h : c = .y ∧ lines = 16 ∧ depth = 4 ∧ i = .dbkluma dir ∨
      c = (if cr = 0 then .cb else .cr) ∧ lines = 8 ∧ depth = 2 ∧ i = .dbkchroma cr dir) :
    lines = edgeLines c ∧ depth = edgeDepth c ∧ ∀ s, exec i s = deblockEdge Config.params c dir s := by
  rcases h with ⟨rfl, rfl, rfl, rfl⟩ | ⟨rfl, rfl, rfl, rfl⟩
  · exact ⟨rfl, rfl, fun _ => rfl⟩
  · refine ⟨?_, ?_, fun _ => rfl⟩ <;> split <;> rfl

/-- R22: the fields of BS, three bits each. -/
theorem strengthAt_eq (s : State) (n : Nat) : strengthAt s n = s.bs.toNat / 8 ^ n % 8 := by
  rw [strengthAt, BitVec.extractLsb'_toNat, Nat.shiftRight_eq_div_pow, pow_mul]
  rfl

/-- R167: the check of the operands, over the four fields. -/
theorem strengthsLegal_iff {s : State} :
    strengthsLegal s = true ↔ (∀ n < 4, s.bs.toNat / 8 ^ n % 8 ≤ 4) ∧ s.qpav.toNat ≤ 51 := by
  simp only [strengthsLegal, strengthAt_eq, decide_eq_true_eq]
  constructor
  · rintro ⟨h0, h1, h2, h3, hqp⟩
    refine ⟨fun n hn => ?_, hqp⟩
    interval_cases n <;> assumption
  · rintro ⟨hbs, hqp⟩
    exact ⟨hbs 0 (by decide), hbs 1 (by decide), hbs 2 (by decide), hbs 3 (by decide), hqp⟩

/-- R160, R167, R168: the check of the edge, one clause for each direction. -/
theorem edgeInside_iff {s : State} {c : Comp} {dir : BitVec 1} : edgeInside s c dir = true ↔
    (dir = 0 → edgeDepth c ≤ s.dstX.toNat ∧ s.dstX.toNat + edgeDepth c ≤ planeWidth s c ∧
      s.dstY.toNat + edgeLines c ≤ planeHeight s c) ∧
    (dir = 1 → edgeDepth c ≤ s.dstY.toNat ∧ s.dstY.toNat + edgeDepth c ≤ planeHeight s c ∧
      s.dstX.toNat + edgeLines c ≤ planeWidth s c) := by
  rcases BitVec.eq_zero_or_eq_one dir with rfl | rfl <;> simp [edgeInside]

/-- The samples a command changes (R160, R170). -/
def edgeWrites (s : State) (c : Comp) (dir : BitVec 1) : List (Nat × Nat × Byte) :=
  (List.range (edgeLines c)).flatMap (lineWrites s c dir)

section
variable {P : Params} {s : State} {c : Comp} {dir : BitVec 1}

/-- R167, R168: the three outcomes of a command, in the order of its checks. -/
theorem deblockEdge_of_inside (hlegal : strengthsLegal s = true) (hpic : pictureLegal P s = true)
    (hin : edgeInside s c dir = true) : deblockEdge P c dir s =
      respond 0 (fbWriteAll s.curSlot c (edgeWrites s c dir) s) := by
  rw [deblockEdge, if_pos hlegal, hpic, hin]
  rfl

theorem deblockEdge_of_outside (hlegal : strengthsLegal s = true)
    (h : ¬ (pictureLegal P s = true ∧ edgeInside s c dir = true)) : deblockEdge P c dir s = raiseFault .eGeometry s := by
  rw [deblockEdge, if_pos hlegal, if_neg (by rwa [Bool.and_eq_true])]

theorem deblockEdge_of_illegal (h : ¬ strengthsLegal s = true) : deblockEdge P c dir s = raiseFault .eOperand s :=
  if_neg h

end

/-- Settles O46: the checks are the command's two conditions, operands before geometry. -/
theorem deblockingFaultsInOrder : Obligations.DeblockingFaultsInOrder := by
  intro s dir cr c lines depth i hcmd
  obtain ⟨rfl, rfl, hexec⟩ := exec_deblock hcmd
  rw [hexec]
  refine ⟨fun hillegal => deblockEdge_of_illegal fun hlegal => ?_, fun hbs hqp hgeom =>
    deblockEdge_of_outside (strengthsLegal_iff.2 ⟨hbs, hqp⟩) ?_⟩
  · obtain ⟨hbs, hqp⟩ := strengthsLegal_iff.1 hlegal
    rcases hillegal with ⟨n, hn, h⟩ | h
    · exact absurd (hbs n hn) (by omega)
    · omega
  · rintro ⟨hpic, hin⟩
    obtain ⟨h0, h1⟩ := edgeInside_iff.1 hin
    rcases hgeom with hnot | ⟨hdir, h⟩ | ⟨hdir, h⟩
    · rw [hpic] at hnot
      cases hnot
    · have hinside := h0 hdir
      omega
    · have hinside := h1 hdir
      omega

/-- R160: the list of changes of line `k`, from the samples before the command. -/
def lineChanges (s : State) (c : Comp) (dir : BitVec 1) (k : Nat) : List (Int × Int) :=
  filterLine c (thresholds s) (strengthAt s (strengthField c k))
    (fun d => lineSample s c dir k (-1 - d)) (fun d => lineSample s c dir k d)

section
variable {s : State} {c : Comp} {dir : BitVec 1} {k : Nat}

theorem mem_lineWrites {t : Nat × Nat × Byte} : t ∈ lineWrites s c dir k ↔
    ∃ w ∈ lineChanges s c dir k, t = ((linePos s dir k w.1).1, (linePos s dir k w.1).2, toByte w.2) := by
  simp only [lineWrites, lineChanges, List.mem_map, eq_comm]

/-- R160: a line changes only samples of the edge. -/
theorem lineChanges_offset {w : Int × Int} (hw : w ∈ lineChanges s c dir k) : -edgeDepth c ≤ w.1 ∧ w.1 < edgeDepth c := by
  obtain ⟨-, hluma, hchroma⟩ := filterLine_offsets c (thresholds s) (strengthAt s (strengthField c k))
    (fun d => lineSample s c dir k (-1 - d)) (fun d => lineSample s c dir k d)
  cases c with
  | y =>
    have hoffset := hluma w hw
    simp only [edgeDepth]
    omega
  | cb | cr =>
    have hoffset := hchroma (by decide) w hw
    simp only [edgeDepth]
    omega

/-- R171: the values of a line are stored as they are. -/
theorem lineChanges_value {w : Int × Int} (hw : w ∈ lineChanges s c dir k) : ((toByte w.2).toNat : Int) = w.2 := by
  obtain ⟨hlo, hhi⟩ := filterLine_values (fun _ => lineSample_bounds s c dir k _)
    (fun _ => lineSample_bounds s c dir k _) w hw
  exact toByte_toNat hlo hhi

theorem mem_lineChanges_of_lookup {o v : Int} (h : (lineChanges s c dir k).lookup o = some v) :
    (o, v) ∈ lineChanges s c dir k := by
  obtain ⟨l₁, l₂, hl, -⟩ := List.lookup_eq_some_iff.1 h
  rw [hl]
  exact List.mem_append_right _ List.mem_cons_self

/-- A line lists each offset once. -/
theorem lineChanges_once {w w' : Int × Int} (hw : w ∈ lineChanges s c dir k) (hw' : w' ∈ lineChanges s c dir k)
    (h : w.1 = w'.1) : w = w' :=
  List.inj_on_of_nodup_map (filterLine_offsets _ _ _ _ _).1 hw hw' h

end

section
variable {P : Params} {s : State} {c : Comp} {dir : BitVec 1}

/-- R160: the lines of a vertical edge are rows. -/
theorem linePos_of_dir_zero (h : dir = 0) (s : State) (k : Nat) (o : Int) :
    linePos s dir k o = ((s.dstX.toNat + o).toNat, s.dstY.toNat + k) := if_pos h

/-- R160: the lines of a horizontal edge are columns. -/
theorem linePos_of_dir_one (h : dir = 1) (s : State) (k : Nat) (o : Int) :
    linePos s dir k o = (s.dstX.toNat + k, (s.dstY.toNat + o).toNat) := if_neg (by rw [h]; decide)

/-- R160: no two places of the edge are the same sample. -/
theorem linePos_inj (hin : edgeInside s c dir = true) {k k' : Nat} {o o' : Int} (ho : -edgeDepth c ≤ o)
    (ho' : -edgeDepth c ≤ o') (hx : (linePos s dir k o).1 = (linePos s dir k' o').1)
    (hy : (linePos s dir k o).2 = (linePos s dir k' o').2) :
    k = k' ∧ o = o' := by
  obtain ⟨h0, h1⟩ := edgeInside_iff.1 hin
  rcases BitVec.eq_zero_or_eq_one dir with hdir | hdir
  · have hinside := h0 hdir
    rw [linePos_of_dir_zero hdir, linePos_of_dir_zero hdir] at hx hy
    omega
  · have hinside := h1 hdir
    rw [linePos_of_dir_one hdir, linePos_of_dir_one hdir] at hx hy
    omega

/-- The checks put the edge inside the sample space. -/
theorem linePos_lt (hpic : pictureLegal P s = true) (hin : edgeInside s c dir = true) {k : Nat} {o : Int} (hk : k < edgeLines c)
    (ho : o < edgeDepth c) : (linePos s dir k o).1 < 65536 ∧ (linePos s dir k o).2 < 65536 := by
  obtain ⟨hw, hh⟩ := planeWidth_lt hpic c
  obtain ⟨h0, h1⟩ := edgeInside_iff.1 hin
  rcases BitVec.eq_zero_or_eq_one dir with hdir | hdir
  · have hinside := h0 hdir
    rw [linePos_of_dir_zero hdir]
    omega
  · have hinside := h1 hdir
    rw [linePos_of_dir_one hdir]
    omega

theorem mem_edgeWrites {t : Nat × Nat × Byte} : t ∈ edgeWrites s c dir ↔
    ∃ k < edgeLines c, ∃ w ∈ lineChanges s c dir k, t = ((linePos s dir k w.1).1, (linePos s dir k w.1).2, toByte w.2) := by
  simp only [edgeWrites, List.mem_flatMap, List.mem_range, mem_lineWrites]

theorem edgeWrites_lt (hpic : pictureLegal P s = true) (hin : edgeInside s c dir = true) :
    ∀ t ∈ edgeWrites s c dir, t.1 < 65536 ∧ t.2.1 < 65536 := by
  intro t ht
  obtain ⟨k, hk, w, hw, rfl⟩ := mem_edgeWrites.1 ht
  exact linePos_lt hpic hin hk (lineChanges_offset hw).2

/-- R170: each sample of the edge is what its line's filter lists for it, or as before. -/
theorem fbRead_edgeWrites_inside (hpic : pictureLegal P s = true) (hin : edgeInside s c dir = true) {k : Nat} {o : Int}
    (hk : k < edgeLines c) (hlo : -edgeDepth c ≤ o) (hhi : o < edgeDepth c) :
    ((fbRead (fbWriteAll s.curSlot c (edgeWrites s c dir) s) s.curSlot c (linePos s dir k o).1 (linePos s dir k o).2).toNat :
      Int) = ((lineChanges s c dir k).lookup o).getD (lineSample s c dir k o) := by
  obtain ⟨hX, hY⟩ := linePos_lt hpic hin hk hhi
  cases hv : (lineChanges s c dir k).lookup o with
  | some v =>
    have hmem := mem_lineChanges_of_lookup hv
    rw [fbRead_fbWriteAll_of_mem _ _ _ _ _ _ (toByte v) hX hY (edgeWrites_lt hpic hin)
      (mem_edgeWrites.2 ⟨k, hk, _, hmem, rfl⟩)]
    · exact lineChanges_value hmem
    · intro t ht hx hy
      obtain ⟨k', -, w, hw, rfl⟩ := mem_edgeWrites.1 ht
      obtain ⟨rfl, ho⟩ := linePos_inj hin (lineChanges_offset hw).1 hlo hx hy
      rw [lineChanges_once hw hmem ho]
  | none =>
    rw [fbRead_fbWriteAll_of_not_mem _ _ _ _ _ _ _ _ hX hY (edgeWrites_lt hpic hin)]
    · rfl
    · rintro t ht ⟨-, -, hx, hy⟩
      obtain ⟨k', -, w, hw, rfl⟩ := mem_edgeWrites.1 ht
      obtain ⟨rfl, ho⟩ := linePos_inj hin (lineChanges_offset hw).1 hlo hx hy
      exact bne_iff_ne.1 (List.lookup_eq_none_iff.1 hv w hw) ho.symm

/-- A box that holds every place of the edge holds every sample the command changes. -/
theorem fbSameOutside_edgeWrites (hpic : pictureLegal P s = true) (hin : edgeInside s c dir = true) {x0 y0 bw bh : Nat}
    (hbox : ∀ k < edgeLines c, ∀ o : Int, -edgeDepth c ≤ o → o < edgeDepth c →
      x0 ≤ (linePos s dir k o).1 ∧ (linePos s dir k o).1 < x0 + bw ∧
        y0 ≤ (linePos s dir k o).2 ∧ (linePos s dir k o).2 < y0 + bh) :
    FbSameOutside s.curSlot c x0 y0 bw bh s (fbWriteAll s.curSlot c (edgeWrites s c dir) s) := by
  intro slot' c' x y hx hy hout
  refine fbRead_fbWriteAll_of_not_mem _ _ _ _ _ _ _ _ hx hy (edgeWrites_lt hpic hin) ?_
  rintro t ht ⟨hslot, hc, rfl, rfl⟩
  obtain ⟨k, hk, w, hw, rfl⟩ := mem_edgeWrites.1 ht
  obtain ⟨hlo, hhi⟩ := lineChanges_offset hw
  exact hout ⟨hslot, hc, hbox k hk w.1 hlo hhi⟩

end

/-- R160: the strength of line `k` of a luma and of a chroma edge is one field of BS. -/
theorem strengthField_eq (c : Comp) (k : Nat) : strengthField c k = 4 * k / edgeLines c := by
  cases c <;> simp only [strengthField, edgeLines] <;> omega

/-- Settles O44: the places of the edge are distinct samples (`linePos_inj`), so writing all lines at once is filtering each. -/
theorem deblockingFiltersTheEdge : Obligations.DeblockingFiltersTheEdge := by
  intro s dir cr hbs hqp hpic c lines depth i hcmd h0 h1 at' changes
  obtain ⟨rfl, rfl, hexec⟩ := exec_deblock hcmd
  have hin : edgeInside s c dir = true := edgeInside_iff.2 ⟨h0, h1⟩
  have hat : at' = fun u k o => fbRead u s.curSlot c (linePos s dir k o).1 (linePos s dir k o).2 := by
    funext u k o
    rcases BitVec.eq_zero_or_eq_one dir with rfl | rfl <;> rfl
  have hchanges (k : Nat) : changes k = lineChanges s c dir k := by
    simp only [changes, hat, lineChanges, ← strengthField_eq, ← strengthAt_eq, lineSample]
  refine ⟨_, (hexec s).trans (deblockEdge_of_inside (strengthsLegal_iff.2 ⟨hbs, hqp⟩) hpic hin), rfl, rfl,
    fun k hk o hlo hhi => ?_, fun hdir => ?_, fun hdir => ?_⟩
  · rw [hchanges, hat]
    exact fbRead_edgeWrites_inside hpic hin hk hlo hhi
  · refine fbSameOutside_edgeWrites hpic hin fun k hk o hlo hhi => ?_
    have hinside := h0 hdir
    rw [linePos_of_dir_zero hdir]
    omega
  · refine fbSameOutside_edgeWrites hpic hin fun k hk o hlo hhi => ?_
    have hinside := h1 hdir
    rw [linePos_of_dir_one hdir]
    omega

/-- R161, R162: at an index of at most 15 the threshold is 0, so no line is filtered. -/
theorem filterSamples_eq_false_of_index_le {s : State} (h : s.qpav.toNat + s.foa.toInt ≤ 15 ∨ s.qpav.toNat + s.fob.toInt ≤ 15)
    (bS : Nat) (p q : Nat → Int) : filterSamples (thresholds s) bS p q = false := by
  obtain ⟨hlookup, hzero, -⟩ := thresholdsComeFromTheClampedIndex
  obtain ⟨halpha, hbeta, -⟩ := hlookup s
  rcases h with h | h
  · refine filterSamples_eq_false_of_alpha ?_ bS p q
    rw [halpha, (hzero _ (by omega)).1]
  · refine filterSamples_eq_false_of_beta ?_ bS p q
    rw [hbeta, (hzero _ (by omega)).2.1]

/-- R169: with BS = 0, or alpha = 0 or beta = 0, no line lists a sample. -/
theorem edgeWrites_eq_nil {s : State}
    (h : s.bs = 0 ∨ s.qpav.toNat + s.foa.toInt ≤ 15 ∨ s.qpav.toNat + s.fob.toInt ≤ 15) (c : Comp) (dir : BitVec 1) :
    edgeWrites s c dir = [] := by
  have hlines (k : Nat) : lineChanges s c dir k = [] := by
    rcases h with hbs | hindex
    · have hstrength : strengthAt s (strengthField c k) = 0 := by
        rw [strengthAt_eq, hbs]
        exact congrArg (· % 8) (Nat.zero_div _)
      rw [lineChanges, hstrength]
      exact filterLine_zero _ _ _ _
    · exact filterLine_of_filterSamples_false (filterSamples_eq_false_of_index_le hindex _ _ _)
  refine List.eq_nil_iff_forall_not_mem.2 fun t ht => ?_
  obtain ⟨k, -, w, hw, -⟩ := mem_edgeWrites.1 ht
  rw [hlines k] at hw
  exact List.not_mem_nil hw

/-- A command that does not fault has passed its checks. -/
theorem deblockEdge_answers {P : Params} {c : Comp} {dir : BitVec 1} {s t : State} (h : deblockEdge P c dir s = .next t)
    (hok : ∀ d, t.response ≠ some ⟨true, d⟩) :
    t = { fbWriteAll s.curSlot c (edgeWrites s c dir) s with response := some ⟨false, 0⟩ } := by
  by_cases hlegal : strengthsLegal s = true
  · by_cases hgeom : pictureLegal P s = true ∧ edgeInside s c dir = true
    · rw [deblockEdge_of_inside hlegal hgeom.1 hgeom.2] at h
      exact respond_eq_next.1 h
    · rw [deblockEdge_of_outside hlegal hgeom] at h
      rw [raiseFault_eq_next.1 h] at hok
      exact absurd rfl (hok _)
  · rw [deblockEdge_of_illegal hlegal] at h
    rw [raiseFault_eq_next.1 h] at hok
    exact absurd rfl (hok _)

/-- Settles O45: no line lists a sample, and writing nothing changes nothing. -/
theorem zeroStrengthDeblockingChangesNothing : Obligations.ZeroStrengthDeblockingChangesNothing := by
  intro s t dir cr i hcmd hzero hnext hok
  have hexec : ∃ c, exec i s = deblockEdge Config.params c dir s := by
    rcases hcmd with rfl | rfl
    · exact ⟨.y, rfl⟩
    · exact ⟨compOfCr cr, rfl⟩
  obtain ⟨c, hexec⟩ := hexec
  rw [deblockEdge_answers (hexec.symm.trans hnext) hok, edgeWrites_eq_nil hzero]
  rfl

end Sys2Proof.Machine

/-! ### The fault record

60_exceptions.md R181, R183: what a fault writes, and that a word answered with err = 1 did nothing else. -/

namespace Sys2Proof.Machine

/-- R183, 10_state.md R25: the fault record written out. -/
theorem faultRecord_eq (c : FaultCode) (s : State) :
    faultRecord c s = { s with status := s.status ||| 0b10000#5
                               faultcode := if flagOn .fault s then s.faultcode else faultNumber c
                               response := some ⟨true, (faultNumber c).setWidth 32⟩ } := rfl

/-- Settles O53: the codes by their table, the record by `faultRecord_eq`. -/
theorem faultRecordKeepsTheFirstCode : Obligations.FaultRecordKeepsTheFirstCode := by
  refine ⟨rfl, fun c s => ?_⟩
  rw [BitVec.ofNat_toNat]
  exact faultRecord_eq c s

/-- A response with err = 1 is that of a fault: a command that does not fault answers err = 0 (30_encoding.md R62). -/
theorem execWord_faults {w d : Word} {s t : State} (h : execWord w s = .next t) (hd : t.response = some ⟨true, d⟩) :
    ∃ c, t = faultRecord c s := by
  obtain hfault | ⟨i, v, u, -, -, rfl⟩ := execWord_outcome h
  · exact hfault
  · cases hd

/-- Settles O54: the word recorded a fault, and the response's data is the code of that fault. -/
theorem faultingWordChangesOnlyTheFaultRecord : Obligations.FaultingWordChangesOnlyTheFaultRecord := by
  intro w s t d h hd
  obtain ⟨c, rfl⟩ := execWord_faults h hd
  have hcode : (faultNumber c).setWidth 32 = d := by
    cases hd
    rfl
  have hnum : d.setWidth 8 = faultNumber c := by
    rw [← hcode, BitVec.setWidth_setWidth_of_le _ (by decide), BitVec.setWidth_eq]
  have hnat : d.toNat = (faultNumber c).toNat := by
    rw [← hcode, BitVec.toNat_setWidth_of_le (by decide)]
  obtain ⟨h1, h7⟩ := faultNumber_bounds c
  refine ⟨hnat ▸ h1, hnat ▸ h7, ?_⟩
  rw [hnum, ← hcode]
  exact faultRecord_eq c s

end Sys2Proof.Machine

/-! ### The checks of the frame-store commands

60_exceptions.md R182: the reserved fields first, then the picture size and the position. One equation per refusal of each
operation. -/

namespace Sys2Proof.Machine

/-- The codes of a motion command are checked together (30_encoding.md R65, R66). -/
theorem codesLegal_iff {wc hc mode : BitVec 2} :
    (codeLegal wc && codeLegal hc && codeLegal mode) = true ↔ wc ≠ 3 ∧ hc ≠ 3 ∧ mode ≠ 3 := by
  simp only [codeLegal, Bool.and_eq_true, bne_iff_ne, and_assoc]
  rfl

section
variable {P : Params} {s : State} {c : Comp} {bw bh : Nat}

/-- 10_state.md R26, 20_memory.md R44: the check of the geometry fails for an illegal picture and for a block that ends outside
the plane. -/
theorem geometry_eq_false
    (h : pictureLegal P s = false ∨ planeWidth s c < s.dstX.toNat + bw ∨ planeHeight s c < s.dstY.toNat + bh) :
    (pictureLegal P s && blockInside s c bw bh) = false := by
  rw [Bool.and_eq_false_iff]
  exact h.imp_right fun hout => decide_eq_false (by omega)

theorem addBlock_of_reserved {comp : BitVec 2} {n : Nat} (hc : compOfField comp = none) :
    addBlock P n comp s = raiseFault .eReserved s := by
  rw [addBlock, hc]

theorem addBlock_of_outside {comp : BitVec 2} {n : Nat} (hc : compOfField comp = some c)
    (h : (pictureLegal P s && blockInside s c n n) = false) : addBlock P n comp s = raiseFault .eGeometry s := by
  rw [addBlock, hc]
  exact if_neg (ne_true_of_eq_false h)

theorem motionBlock_of_reserved {ref : BitVec 5} {wc hc mode : BitVec 2} (h : ¬ (wc ≠ 3 ∧ hc ≠ 3 ∧ mode ≠ 3)) :
    motionBlock P c ref wc hc mode s = raiseFault .eReserved s := if_neg (mt codesLegal_iff.1 h)

theorem motionBlock_of_outside {ref : BitVec 5} {wc hc mode : BitVec 2} (hcodes : wc ≠ 3 ∧ hc ≠ 3 ∧ mode ≠ 3)
    (h : (pictureLegal P s && blockInside s c (blockSide c wc) (blockSide c hc)) = false) :
    motionBlock P c ref wc hc mode s = raiseFault .eGeometry s := by
  rw [motionBlock, if_pos (codesLegal_iff.2 hcodes), if_neg (ne_true_of_eq_false h)]

theorem withSample_of_reserved {comp : BitVec 2} (hc : compOfField comp = none) (k : Comp → Result) :
    withSample P comp s k = raiseFault .eReserved s := by
  rw [withSample, hc]

theorem withSample_of_outside {comp : BitVec 2} (hc : compOfField comp = some c)
    (h : (pictureLegal P s && blockInside s c 1 1) = false) (k : Comp → Result) :
    withSample P comp s k = raiseFault .eGeometry s := by
  rw [withSample, hc]
  exact if_neg (ne_true_of_eq_false h)

/-- R146, R147: MCLUMA and MCCHROMA with legal codes refuse the geometry of their plane, their sides being doublings of the unit. -/
theorem exec_motion_of_outside {unit : Nat} {i : Instr} {cr : BitVec 1} {ref : BitVec 5} {wc hc mode : BitVec 2}
    (hcmd : c = .y ∧ unit = 4 ∧ i = .mcluma ref wc hc mode ∨
      c = (if cr = 0 then .cb else .cr) ∧ unit = 2 ∧ i = .mcchroma cr ref wc hc mode)
    (hcodes : wc ≠ 3 ∧ hc ≠ 3 ∧ mode ≠ 3)
    (h : pictureLegal Config.params s = false ∨ planeWidth s c < s.dstX.toNat + unit * 2 ^ wc.toNat ∨
      planeHeight s c < s.dstY.toNat + unit * 2 ^ hc.toNat) : exec i s = .next (faultRecord .eGeometry s) := by
  obtain ⟨hexec, hside⟩ := exec_motion hcmd
  rw [← hside, ← hside] at h
  exact (hexec s).trans (motionBlock_of_outside hcodes (geometry_eq_false h))

end

/-- The two chroma planes have one size (20_memory.md R43). -/
theorem chromaPlane_size (s : State) (cr : BitVec 1) :
    planeWidth s (if cr = 0 then .cb else .cr) = planeWidth s .cb ∧
    planeHeight s (if cr = 0 then .cb else .cr) = planeHeight s .cb := by
  split <;> exact ⟨rfl, rfl⟩

/-- Settles O40: each operation refuses its reserved fields first, then its geometry. -/
theorem frameStoreCommandsFaultInOrder : Obligations.FrameStoreCommandsFaultInOrder := by
  intro s comp wc hc mode ref cr val
  simp only [List.forall_mem_cons, List.not_mem_nil, false_imp_iff, implies_true, and_true]
  refine ⟨fun hcomp => ?_, fun hcode => ?_, fun hwc hhc hmode => ⟨?_, fun hgeom => ?_⟩, fun c hcomp => ⟨fun hgeom => ?_,
    fun hgeom => ?_, fun hgeom => ?_⟩⟩
  · have hnone : compOfField comp = none := by rw [hcomp]; rfl
    exact ⟨addBlock_of_reserved hnone, addBlock_of_reserved hnone, withSample_of_reserved hnone _,
      withSample_of_reserved hnone _⟩
  · have hillegal : ¬ (wc ≠ 3 ∧ hc ≠ 3 ∧ mode ≠ 3) := by tauto
    exact ⟨motionBlock_of_reserved hillegal, motionBlock_of_reserved hillegal⟩
  · exact exec_motion_of_outside (cr := cr) (.inl ⟨rfl, rfl, rfl⟩) ⟨hwc, hhc, hmode⟩
  · obtain ⟨hwidth, hheight⟩ := chromaPlane_size s cr
    rw [← hwidth, ← hheight] at hgeom
    exact exec_motion_of_outside (.inr ⟨rfl, rfl, rfl⟩) ⟨hwc, hhc, hmode⟩ hgeom
  · exact addBlock_of_outside hcomp (geometry_eq_false hgeom)
  · exact addBlock_of_outside hcomp (geometry_eq_false hgeom)
  · have hout : (pictureLegal Config.params s && blockInside s c 1 1) = false :=
      geometry_eq_false (hgeom.imp_right (Or.imp Nat.lt_succ_of_le Nat.lt_succ_of_le))
    exact ⟨withSample_of_outside hcomp hout _, withSample_of_outside hcomp hout _⟩

end Sys2Proof.Machine

/-! ### Every command word is answered

60_exceptions.md R185, 70_reset_and_hazards.md R211: the only stop of a command is a stuck fetch, which the pointer contract
excludes. -/

namespace Sys2Proof.Machine

/-- A meaning that ends in a next state with a response. -/
def Answers (r : Result) : Prop := ∃ t a, r = .next t ∧ t.response = some a

theorem Answers.respond (v : Word) (s : State) : Answers (respond v s) := ⟨_, _, rfl, rfl⟩

theorem Answers.raise (c : FaultCode) (s : State) : Answers (raiseFault c s) := ⟨_, _, rfl, rfl⟩

/-- A command with one check. -/
theorem Answers.ite {p : Prop} [Decidable p] {a b : Result} (ha : Answers a) (hb : Answers b) :
    Answers (if p then a else b) := by
  split
  · exact ha
  · exact hb

/-! #### The commands that consume no bits -/

theorem execWrl_answers (reg : BitVec 8) (imm : BitVec 16) (s : State) : Answers (execWrl reg imm s) := by
  unfold execWrl
  split
  · exact .raise _ _
  · exact .ite (.raise _ _) (.respond _ _)

theorem execWrh_answers (reg : BitVec 8) (imm : BitVec 16) (s : State) : Answers (execWrh reg imm s) := by
  unfold execWrh
  split
  · exact .respond _ _
  · exact .respond _ _
  · exact .raise _ _

theorem execRdreg_answers (reg : BitVec 8) (s : State) : Answers (execRdreg reg s) := by
  unfold execRdreg
  split
  · exact .raise _ _
  · exact .respond _ _

theorem FbOutcome.answers {s : State} {r : Result} (h : FbOutcome s r) : Answers r := by
  obtain ⟨c, rfl⟩ | ⟨v, slot, c, l, rfl⟩ := h
  · exact .raise _ _
  · exact .respond _ _

theorem smprd_answers (P : Params) (slot : BitVec 5) (comp : BitVec 2) (s : State) : Answers (smprd P slot comp s) := by
  unfold smprd withSample
  split
  · exact .raise _ _
  · exact .ite (.respond _ _) (.raise _ _)

/-! #### The commands that consume bits -/

section
variable {P : Params} {s : State} (hp : PointerContract P s)
include hp

theorem rdbits_answers (n : BitVec 6) : Answers (rdbits P n s) := by
  by_cases hn : n.toNat = 0 ∨ 32 < n.toNat
  · rw [rdbits_of_illegal hn]
    exact .raise _ _
  · cases hact : flagOn .cabact s with
    | true =>
      rw [rdbits_of_active (by omega) (by omega) hact]
      exact .raise _ _
    | false =>
      obtain ⟨v, t, hv⟩ := readBits_answers n.toNat hp
      rw [rdbits_of_readBits (by omega) (by omega) hact hv]
      exact .respond _ _

theorem cabstart_answers : Answers (cabstart P s) := by
  obtain ⟨a, s1, ha⟩ := readBits_answers s.bitcnt.toNat hp
  obtain ⟨off, s2, hoff⟩ := readBits_answers 9 ((readBits_move ha).1.contract hp)
  rw [cabstart_of_readBits ha hoff]
  exact .respond _ _

theorem cabdec_answers (i : BitVec 10) : Answers (cabdec P i s) := by
  cases hact : flagOn .cabact s with
  | false =>
    rw [cabdec_of_idle hact]
    exact .raise _ _
  | true =>
    obtain ⟨range, offset, u, hr, -⟩ := renorm_answers hp _ _
    rw [cabdec_of_renorm hact (decideBin_eq s i) hr]
    exact .respond _ _

theorem cabbyp_answers : Answers (cabbyp P s) := by
  cases hact : flagOn .cabact s with
  | false =>
    rw [cabbyp_of_idle hact]
    exact .raise _ _
  | true =>
    obtain ⟨b, u, hb⟩ := readBit_answers hp
    rw [cabbyp_of_readBit hact hb]
    exact .respond _ _

theorem cabterm_answers : Answers (cabterm P s) := by
  cases hact : flagOn .cabact s with
  | false =>
    rw [cabterm_of_idle hact]
    exact .raise _ _
  | true =>
    rcases Nat.lt_or_ge s.codOffset.toNat (s.codRange.toNat - 2) with hlt | hend
    · obtain ⟨range, offset, u, hr, -⟩ := renorm_answers hp (s.codRange.toNat - 2) s.codOffset.toNat
      rw [cabterm_of_renorm hact hlt hr]
      exact .respond _ _
    · rw [cabterm_at_end hact hend]
      exact .respond _ _

end

/-! #### Every command -/

theorem exec_answers {s : State} (hp : PointerContract Config.params s) (i : Instr) : Answers (exec i s) := by
  cases i with
  | nop | clrst | sreset | ctxwr | ctxrd | coefwr | coefrd | coefclr | wswr | idct4 | idct8 => exact .respond _ _
  | wrl reg imm => exact execWrl_answers reg imm s
  | wrh reg imm => exact execWrh_answers reg imm s
  | rdreg reg => exact execRdreg_answers reg s
  | bsinit => exact .ite (.respond _ _) (.raise _ _)
  | rdbits n => exact rdbits_answers hp n
  | cabstart => exact cabstart_answers hp
  | cabinit | deq4 | deq8 => exact .ite (.raise _ _) (.respond _ _)
  | cabdec ctxIdx => exact cabdec_answers hp ctxIdx
  | cabbyp => exact cabbyp_answers hp
  | cabterm => exact cabterm_answers hp
  | add4 comp => exact (addBlock_fbOutcome _ 4 comp s).answers
  | add8 comp => exact (addBlock_fbOutcome _ 8 comp s).answers
  | mcluma ref wc hc mode => exact (motionBlock_fbOutcome _ _ ref wc hc mode s).answers
  | mcchroma cr ref wc hc mode => exact (motionBlock_fbOutcome _ _ ref wc hc mode s).answers
  | dbkluma dir => exact (deblockEdge_fbOutcome _ _ dir s).answers
  | dbkchroma cr dir => exact (deblockEdge_fbOutcome _ _ dir s).answers
  | smprd slot comp => exact smprd_answers _ slot comp s
  | smpwr slot comp val => exact (smpwr_fbOutcome _ slot comp val s).answers

/-- Settles O55: a decoded command is answered by `exec_answers`, a refused word by the fault of its refusal. -/
theorem everyCommandWordIsAnswered : Obligations.EveryCommandWordIsAnswered := by
  intro w s hp
  show Answers (execWord w s)
  cases hw : decode w with
  | ok i =>
    rw [execWord_of_decode_ok hw]
    exact exec_answers hp i
  | error r =>
    rw [execWord_of_decode_error hw]
    exact .raise _ _

end Sys2Proof.Machine
